-- ==== Sys2Proof/Word.lean ====
section
/-! DEFINITION. The word types of HUFFCORE and the one command format (00_scope.md R8, R9; 30_encoding.md R90). -/

namespace Sys2Proof

/-- A symbol, a buffer byte or a code length: 8 bits (00_scope.md R8). -/
abbrev Byte := BitVec 8

/-- A host-port data word, a register, a count: 32 bits (`HDATA_W`, `CNT_W`, 00_scope.md R8). -/
abbrev Word := BitVec 32

/-- A host-port byte address: 22 bits (`HADDR_W`, 00_scope.md R8; 20_memory.md R60). -/
abbrev HostAddr := BitVec 22

/-- A node weight: `CNT_W` + 8 = 40 bits (`WT_W`, 00_scope.md R8, R16). -/
abbrev Weight := BitVec 40

/-- A bit-string, first bit at the head, `true` for 1 (00_scope.md R12). -/
abbrev Bits := List Bool

/-- The fields of a command word, format C (30_encoding.md R90). -/
structure CommandWord where
  /-- bits 31:8, reserved, must be 0 -/
  rsv : BitVec 24
  /-- bits 7:0, the opcode -/
  op : BitVec 8
  deriving DecidableEq, Repr

end Sys2Proof
end

