-- ==== Sys2Proof/Syntax.lean ====
section
/-! DEFINITION. The instructions: one constructor for each row of spec/opcode_table.json (30_encoding.md R92). A command word
carries no operand (30_encoding.md R91), so no constructor has an argument. -/

namespace Sys2Proof

/-- The six commands (30_encoding.md R92). -/
inductive Instr where
  /-- NOP (44_system.md R200) -/
  | nop
  /-- BUILD (40_build.md R110) -/
  | build
  /-- ENCODE (41_encode.md R140) -/
  | encode
  /-- REBUILD (42_rebuild.md R160) -/
  | rebuild
  /-- DECODE (43_decode.md R180) -/
  | decode
  /-- CLEAR (44_system.md R202) -/
  | clear
  deriving DecidableEq, Repr

end Sys2Proof
end

