-- ==== Sys2Proof/WellFormed.lean ====
section
/-! DEFINITION. Which command words are legal (30_encoding.md R90, R92, R93). -/

namespace Sys2Proof

/-- The reserved field is zero (30_encoding.md R90: "reserved, must be 0"). -/
def CommandWord.reservedIsZero (c : CommandWord) : Bool :=
  c.rsv == 0

/-- The opcode is one of the six assigned ones, 0x00 to 0x05 (30_encoding.md R92, R93). -/
def CommandWord.opcodeIsAssigned (c : CommandWord) : Bool :=
  decide (c.op.toNat ≤ 5)

/-- A command word is legal when both checks hold (30_encoding.md R93). -/
def CommandWord.wellFormed (c : CommandWord) : Bool :=
  c.reservedIsZero && c.opcodeIsAssigned

/-- An instruction names no operand (30_encoding.md R91), so every instruction is well formed. -/
def Instr.wellFormed : Instr → Bool
  | .nop => true
  | .build => true
  | .encode => true
  | .rebuild => true
  | .decode => true
  | .clear => true

end Sys2Proof
end

