-- ==== Sys2Proof/Decode.lean ====
section
/-! DEFINITION. Decoding of command words, total on every 32-bit word (30_encoding.md R94), and after it the encoder, from the
table of 30_encoding.md R92. -/

namespace Sys2Proof

/-- What a word written to CMD decodes to: one of the six commands, or the illegal word itself (30_encoding.md R94). -/
inductive Decoded where
  | instr (i : Instr)
  | illegal (w : Word)
  deriving DecidableEq, Repr

/-- The fields of a word (30_encoding.md R90). -/
def CommandWord.ofWord (w : Word) : CommandWord where
  rsv := w.extractLsb' 8 24
  op := w.extractLsb' 0 8

/-- The word of given fields (30_encoding.md R90). -/
def CommandWord.toWord (c : CommandWord) : Word :=
  c.rsv ++ c.op

/-- The opcode map (30_encoding.md R92, R94). -/
def instrOfOpcode (op : BitVec 8) : Option Instr :=
  match op.toNat with
  | 0 => some .nop
  | 1 => some .build
  | 2 => some .encode
  | 3 => some .rebuild
  | 4 => some .decode
  | 5 => some .clear
  | _ => none

/-- `decode(w)` of 30_encoding.md R94. -/
def decode (w : Word) : Decoded :=
  if (CommandWord.ofWord w).reservedIsZero then
    match instrOfOpcode (CommandWord.ofWord w).op with
    | some i => .instr i
    | none => .illegal w
  else
    .illegal w

/-- The instruction a decoded word runs, if it is legal. -/
def Decoded.instr? : Decoded → Option Instr
  | .instr i => some i
  | .illegal _ => none

/-- The opcode of each command (30_encoding.md R92). -/
def Instr.opcode : Instr → BitVec 8
  | .nop => 0x00#8
  | .build => 0x01#8
  | .encode => 0x02#8
  | .rebuild => 0x03#8
  | .decode => 0x04#8
  | .clear => 0x05#8

/-- The fields of the word that selects a command (30_encoding.md R90, R92). -/
def Instr.fields (i : Instr) : CommandWord where
  rsv := 0
  op := i.opcode

/-- The command word of a command (30_encoding.md R92). -/
def encode (i : Instr) : Word :=
  i.fields.toWord

/-- The 32-bit word that a table word of `nbits` bits stands for: its bits above `nbits` are 0. -/
def commandWordOfTable (nbits w : Nat) : Word :=
  BitVec.ofNat 32 (w % 2 ^ nbits)

/-- The instruction this decoder reads from a word numbered as spec/opcode_table.json numbers it. No command word is longer
than 32 bits (30_encoding.md R95), so a longer table word is no instruction. -/
def decodeTableWord (nbits w : Nat) : Option Instr :=
  if nbits ≤ 32 then (decode (commandWordOfTable nbits w)).instr? else none

end Sys2Proof
end

