-- ==== Sys2Proof/Machine/Arena.lean ====
section
/-! DEFINITION. The records of the two node arenas and the stores that hold them (10_state.md R42, R43; 42_rebuild.md
R163). An arena is the list of the records written so far, index 0 first; an index past its end is a FREE record. An arena
index is a natural number (log 8). -/

namespace Sys2Proof.Machine

/-- One record of the build arena `BN` (10_state.md R42). A leaf has no children, an internal node no symbol. -/
inductive BuildNode where
  /-- kind FREE (0) -/
  | free
  /-- kind LEAF (1) -/
  | leaf (sym : Byte) (weight : Weight)
  /-- kind INTERNAL (2) -/
  | internal (left right : Nat) (weight : Weight)
  deriving DecidableEq, Repr, Inhabited

/-- What only BUILD writes: the build arena and the working list `WL` (10_state.md R42). -/
structure BuildStore where
  bn : List BuildNode
  wl : List Nat
  deriving DecidableEq, Repr, Inhabited

/-- One record of the rebuilt-tree arena `RN`; there is no weight (10_state.md R43). -/
inductive RebuildNode where
  /-- kind FREE (0) -/
  | free
  /-- kind LEAF (1) -/
  | leaf (sym : Byte)
  /-- kind INTERNAL (2) -/
  | internal (left right : Nat)
  /-- kind PHOLD (3), the placeholder of the degenerate tree (42_rebuild.md R165) -/
  | phold
  deriving DecidableEq, Repr, Inhabited

/-- One element of `RL`: the key bit-string `str(len, val)` and the node that stands for it (42_rebuild.md R161, R163). -/
structure RlEntry where
  len : Nat
  val : Nat
  node : Nat
  deriving DecidableEq, Repr, Inhabited

/-- What only REBUILD writes: the arena `RN`, the working list `RL` and the root `RROOT`, `none` for `NIL`
(10_state.md R43). -/
structure RebuildStore where
  rn : List RebuildNode
  rl : List RlEntry
  rroot : Option Nat
  deriving DecidableEq, Repr, Inhabited

/-- The fields of a build record fit their bits: child indices are 9 bits wide (10_state.md R42). -/
def BuildNode.fits : BuildNode → Prop
  | .free => True
  | .leaf _ _ => True
  | .internal l r _ => l < 2 ^ 9 ∧ r < 2 ^ 9

/-- A build record cut to the bits of its fields (10_state.md R42). -/
def BuildNode.clip : BuildNode → BuildNode
  | .free => .free
  | .leaf sym w => .leaf sym w
  | .internal l r w => .internal (l % 2 ^ 9) (r % 2 ^ 9) w

/-- The build store fits the hardware: 511 records, 256 list elements, indices of 9 bits (10_state.md R42). -/
structure BuildStore.Fits (b : BuildStore) : Prop where
  records : b.bn.length ≤ 511
  elements : b.wl.length ≤ 256
  fields : ∀ n ∈ b.bn, n.fits
  indices : ∀ i ∈ b.wl, i < 2 ^ 9

/-- A build store cut to what the hardware holds (10_state.md R42). -/
def BuildStore.clip (b : BuildStore) : BuildStore :=
  { bn := (b.bn.take 511).map BuildNode.clip, wl := (b.wl.take 256).map (· % 2 ^ 9) }

/-- The fields of a rebuilt record fit their bits: child indices are 9 bits wide (10_state.md R43). -/
def RebuildNode.fits : RebuildNode → Prop
  | .free => True
  | .leaf _ => True
  | .internal l r => l < 2 ^ 9 ∧ r < 2 ^ 9
  | .phold => True

/-- A rebuilt record cut to the bits of its fields (10_state.md R43). -/
def RebuildNode.clip : RebuildNode → RebuildNode
  | .free => .free
  | .leaf sym => .leaf sym
  | .internal l r => .internal (l % 2 ^ 9) (r % 2 ^ 9)
  | .phold => .phold

/-- The triple fits its bits: `len` 8, `val` 255, `node` 9 (42_rebuild.md R163). -/
structure RlEntry.Fits (e : RlEntry) : Prop where
  len : e.len < 2 ^ 8
  val : e.val < 2 ^ 255
  node : e.node < 2 ^ 9

/-- A triple cut to its bits: `len` 8, `val` 255, `node` 9 (42_rebuild.md R163). -/
def RlEntry.clip (e : RlEntry) : RlEntry :=
  { len := e.len % 2 ^ 8, val := e.val % 2 ^ 255, node := e.node % 2 ^ 9 }

/-- The rebuild store fits the hardware: 511 records, 256 triples, every field in its bits, a root that is an index or `NIL`
(10_state.md R43; 42_rebuild.md R163). -/
structure RebuildStore.Fits (t : RebuildStore) : Prop where
  records : t.rn.length ≤ 511
  elements : t.rl.length ≤ 256
  fields : ∀ n ∈ t.rn, n.fits
  triples : ∀ e ∈ t.rl, e.Fits
  root : ∀ i ∈ t.rroot, i < 511

/-- A rebuild store cut to what the hardware holds (10_state.md R43; 42_rebuild.md R163). -/
def RebuildStore.clip (t : RebuildStore) : RebuildStore :=
  { rn := (t.rn.take 511).map RebuildNode.clip
    rl := (t.rl.take 256).map RlEntry.clip
    rroot := t.rroot.filter fun i => i < 511 }

end Sys2Proof.Machine
end

