-- ==== Sys2Proof/Config.lean ====
section
/-! DEFINITION. What HUFFCORE fixes (00_scope.md R8) and the free values: constants without a body for what the spec leaves
unspecified (10_state.md R49; 20_memory.md R64). -/

namespace Sys2Proof.Config

/-- Alphabet size `NSYM` (00_scope.md R8). -/
def nsym : Nat := 256

/-- Entries of each node arena, `MAXNODE` (00_scope.md R8). -/
def maxNode : Nat := 511

/-- `NIL`, the index value meaning "no node" (00_scope.md R8). -/
def nil : Nat := 511

/-- Longest codeword in bits, `MAXLEN` (00_scope.md R8, R17). -/
def maxLen : Nat := 255

/-- Bytes in the input buffer, `IBUF_CAP` (00_scope.md R8). -/
def ibufCap : Nat := 65536

/-- Bytes in the output buffer, `OBUF_CAP` (00_scope.md R8). -/
def obufCap : Nat := 2097152

/-- Largest legal padding count, `PADMAX` (00_scope.md R8). -/
def padMax : Nat := 7

/-- The constant of the ID register (10_state.md R30). -/
def idWord : Word := 0x48554631#32

/-- FREE VALUE (log 4): word `w` of `CT_VAL[s]` after reset number `gen` (10_state.md R38, R49). -/
opaque freeCtValWord (gen s w : Nat) : Word

/-- FREE VALUE (log 2): the byte of IBUF at host address `a` while nobody has written it since reset number `gen`
(10_state.md R40, R49). -/
opaque freeIbufByte (gen a : Nat) : Byte

/-- FREE VALUE (log 3): the byte of OBUF at host address `a` where no output is valid; `gen` counts the events that may
change it (10_state.md R41, R49). -/
opaque freeObufByte (gen a : Nat) : Byte

/-- FREE VALUE (log 5): the data returned with the `n`-th ERROR read (20_memory.md R64). -/
opaque freeBusWord (n : Nat) : Word

/-- FREE VALUE (log 6): `BN` and `WL` after reset number `gen` (10_state.md R42, R48). -/
opaque freeBuildStore (gen : Nat) : Machine.BuildStore

/-- FREE VALUE (log 6, log 7): `RN`, `RL` and `RROOT` after reset and after a failed REBUILD; `gen` counts these events
(10_state.md R43, R48; 42_rebuild.md R174). -/
opaque freeRebuildStore (gen : Nat) : Machine.RebuildStore

end Sys2Proof.Config
end

