-- ==== Sys2Proof/Machine/State.lean ====
section
/-! DEFINITION. The state of the machine as plain data (10_state.md R20) and its value after reset (10_state.md R48;
70_reset_and_hazards.md R240). INVENTORY.md lists every piece with its rule. -/

namespace Sys2Proof.Machine

/-- A bus response (20_memory.md R60). -/
inductive Resp where
  | okay
  | error
  deriving DecidableEq, Repr

/-- What a completed transaction returns: `(resp, data)` for a read, `resp` for a write (20_memory.md R60). -/
inductive HostResponse where
  | read (resp : Resp) (data : Word)
  | write (resp : Resp)
  deriving DecidableEq, Repr

/-- What the outside world does to the block: a host transaction (20_memory.md R60), or a reset between two transactions
(70_reset_and_hazards.md R241). -/
inductive HostEvent where
  | read (addr : HostAddr)
  | write (addr : HostAddr) (data : Word)
  | reset
  deriving DecidableEq, Repr

/-- The nine command errors (60_exceptions.md R211). -/
inductive CmdError where
  | emptyAlphabetMismatch
  | unknownSymbol
  | malformedCodeTable
  | paddingRange
  | truncatedStream
  | invalidCodeword
  | noTree
  | illegalCommand
  | operandRange
  deriving DecidableEq, Repr

/-- The model's counters that select fresh free values (log 10). They are not state of the hardware. -/
structure FreeCounters where
  /-- resets so far; selects the unspecified contents of CT_VAL, IBUF, BN and WL after a reset -/
  reset : Nat
  /-- events after which the unspecified part of OBUF may have changed -/
  obuf : Nat
  /-- ERROR reads so far -/
  bus : Nat
  /-- events after which RN, RL and RROOT are unspecified -/
  tree : Nat
  deriving DecidableEq, Repr

/-- The machine (10_state.md R20). -/
structure State where
  /-- `STATUS.ERR` (10_state.md R32) -/
  err : BitVec 4
  /-- `STATUS.TREE_VALID` (10_state.md R32) -/
  treeValid : Bool
  /-- `ERRINFO` (10_state.md R33) -/
  errInfo : Word
  /-- `ILEN` (10_state.md R21) -/
  ilen : Word
  /-- `OLEN` (10_state.md R22) -/
  olen : Word
  /-- `PAD` (10_state.md R23) -/
  pad : Word
  /-- `FREQ[0..255]` (10_state.md R36) -/
  freq : Vector Word 256
  /-- `CT_LEN[0..255]` (10_state.md R37) -/
  ctLen : Vector Byte 256
  /-- `CT_VAL[0..255]`, eight words each, word 0 least significant (10_state.md R38) -/
  ctVal : Vector (Vector Word 8) 256
  /-- the written bytes of IBUF by host address, addresses strictly rising; an unlisted address holds no known byte
  (10_state.md R40, R49) -/
  ibuf : List Host.Cell
  /-- the valid bytes of OBUF by host address, addresses strictly rising; an unlisted address holds no known byte
  (10_state.md R41, R49) -/
  obuf : List Host.Cell
  /-- `BN` and `WL` (10_state.md R42); what they hold after a command other than BUILD: log 15 -/
  build : BuildStore
  /-- `RN`, `RL` and `RROOT` (10_state.md R43); what they hold while `treeValid` is false: log 7, log 15 -/
  tree : RebuildStore
  /-- the model's own: what the host does next, oldest first (log 1) -/
  inputs : List HostEvent
  /-- the model's own: the response of the last completed transaction, none right after reset (log 5) -/
  resp : Option HostResponse
  /-- the model's own: counters of free values (log 10) -/
  free : FreeCounters
  deriving DecidableEq, Repr

/-- A step never stops with a fault: every command ends in success or in an error code and every transaction gets a response
(00_scope.md R7; 60_exceptions.md R210; 93_implementation_defined.md section 2). Nobody raises one, so there is no
constructor (log 13). -/
inductive Fault where
  deriving DecidableEq, Repr

/-- Why a step has no meaning. -/
inductive Refusal where
  /-- raised by an arm of `exec` for an instruction without a meaning (safe); no arm of this model raises it (log 13) -/
  | notModelled (mnemonic : String)
  deriving DecidableEq, Repr

/-- The state right after a reset whose free values the counters select (10_state.md R48, R49). -/
def State.afterReset (free : FreeCounters) : State where
  err := 0
  treeValid := false
  errInfo := 0
  ilen := 0
  olen := 0
  pad := 0
  freq := Vector.replicate 256 0
  ctLen := Vector.replicate 256 0
  ctVal := Vector.ofFn fun s => Vector.ofFn fun w => Config.freeCtValWord free.reset s w
  ibuf := []
  obuf := []
  build := (Config.freeBuildStore free.reset).clip
  tree := (Config.freeRebuildStore free.tree).clip
  inputs := []
  resp := none
  free := free

/-- The machine right after reset (70_reset_and_hazards.md R240). -/
def State.reset : State :=
  State.afterReset { reset := 0, obuf := 0, bus := 0, tree := 0 }

end Sys2Proof.Machine
end

