-- ==== Sys2Proof/Machine/Flags.lean ====
section
/-! DEFINITION. The status register: error codes, the two flags, the word the host reads (10_state.md R26, R32;
60_exceptions.md R211). There are no arithmetic flags (10_state.md R26). -/

namespace Sys2Proof.Machine

/-- The code of each error (60_exceptions.md R211). -/
def CmdError.code : CmdError → BitVec 4
  | .emptyAlphabetMismatch => 1#4
  | .unknownSymbol => 2#4
  | .malformedCodeTable => 3#4
  | .paddingRange => 4#4
  | .truncatedStream => 5#4
  | .invalidCodeword => 6#4
  | .noTree => 7#4
  | .illegalCommand => 8#4
  | .operandRange => 9#4

/-- `ERRINFO` of an UnknownSymbolError: position in bits 31:8, symbol in bits 7:0 (10_state.md R33). -/
def unknownSymbolInfo (pos : Nat) (sym : Byte) : Word :=
  BitVec.ofNat 24 pos ++ sym

/-- The STATUS word: `ERR` in bits 3:0, `TREE_VALID` in bit 4, the rest 0 (10_state.md R32). -/
def State.statusWord (s : State) : Word :=
  (0#27 ++ BitVec.ofBool s.treeValid) ++ s.err

/-- Drop the rebuilt tree (10_state.md R26, R39). DESIGN CHOICE (log 15): `RN`, `RL` and `RROOT` keep their content, where
10_state.md R43 leaves it unspecified while `TREE_VALID` is 0. -/
def State.dropTree (s : State) : State :=
  { s with treeValid := false }

/-- The rebuilt tree is the one the code table stands for (10_state.md R26; 42_rebuild.md R160). -/
def State.keepTree (s : State) : State :=
  { s with treeValid := true }

end Sys2Proof.Machine
end

