-- ==== Sys2Proof/Machine/Ops.lean ====
section
/-! DEFINITION. The shared operations: bit-strings (00_scope.md R12), the byte memories, the address map (20_memory.md R66),
how a command ends (60_exceptions.md R210, R213, R227). -/

namespace Sys2Proof.Machine

/-! ### Symbols and per-symbol tables -/

/-- The symbols 0..255 in ascending order (00_scope.md R8). -/
def allSymbols : List Byte :=
  (List.range Config.nsym).map (BitVec.ofNat 8)

/-- The entry of symbol `sym` in a table of 256 (00_scope.md R10). -/
def symAt {α : Type} (v : Vector α 256) (sym : Byte) : α :=
  v[sym.toNat]'sym.isLt

/-- The table whose entry for each symbol is `f sym`. -/
@[irreducible] def symTable {α : Type} (f : Byte → α) : Vector α 256 :=
  ⟨(allSymbols.map f).toArray, by simp [allSymbols, Config.nsym]⟩

/-- The table with the entry of one symbol replaced (00_scope.md R10). -/
def symSet {α : Type} (v : Vector α 256) (sym : Byte) (x : α) : Vector α 256 :=
  v.set sym.toNat x sym.isLt

/-! ### Bit-strings -/

/-- `val(c)`: the number whose binary numeral is `c`, first bit most significant (00_scope.md R12). -/
def Bits.val : Bits → Nat
  | [] => 0
  | b :: c => b.toNat * 2 ^ c.length + Bits.val c

/-- `str(n, v)`: the bit-string of length `n` whose `i`-th bit is bit `n-1-i` of `v` (00_scope.md R12). -/
def Bits.str (n v : Nat) : Bits :=
  (List.range n).map fun i => v.testBit (n - 1 - i)

/-- The 8 bits of a byte, most significant first (20_memory.md R67). -/
def bitsOfByte (b : Byte) : Bits :=
  Bits.str 8 b.toNat

/-- The byte of a group of 8 bits, first bit most significant (20_memory.md R67; 41_encode.md R144). -/
def byteOfBits (c : Bits) : Byte :=
  BitVec.ofNat 8 (Bits.val c)

/-- The 256-bit value `zext_256(val(c))` as eight words, word `w` its bits `32w+31 : 32w` (10_state.md R38;
40_build.md R123). -/
def valueWords (c : Bits) : Vector Word 8 :=
  Vector.ofFn fun w => BitVec.ofNat 32 (Bits.val c >>> (32 * w.val))

/-- Bit `i` of a 256-bit value held in eight words (10_state.md R38). -/
def wordsBit (v : Vector Word 8) (i : Nat) : Bool :=
  (v[i / 32]?.getD 0).getLsbD (i % 32)

/-! ### Byte memories -/

/-- A byte memory: pairs (address, byte), addresses strictly rising; an address that is not listed holds no known byte
(10_state.md R49). -/
abbrev Memory := List Host.Cell

/-- The canonical form: addresses strictly rising. -/
abbrev Memory.wf (m : Memory) : Prop :=
  m.Pairwise fun c d => c.1 < d.1

/-- The byte last written at an address, if any. -/
def Memory.lookup : Memory → Nat → Option Byte
  | [], _ => none
  | c :: m, a => if c.1 = a then some c.2 else Memory.lookup m a

/-- Write one byte. -/
def Memory.write : Memory → Nat → Byte → Memory
  | [], a, v => [(a, v)]
  | c :: m, a, v =>
    if a < c.1 then (a, v) :: c :: m
    else if a = c.1 then (a, v) :: m
    else c :: Memory.write m a v

/-- Byte lane `k` of a host word, little-endian (20_memory.md R68). -/
def lane (w : Word) (k : Nat) : Byte :=
  w.extractLsb' (8 * k) 8

/-- A host word from its four byte lanes, lane 0 least significant (20_memory.md R68). -/
def wordOfLanes (b0 b1 b2 b3 : Byte) : Word :=
  b3 ++ b2 ++ b1 ++ b0

/-- Write the four lanes of a host word at `a` (20_memory.md R68). -/
def Memory.writeWord (m : Memory) (a : Nat) (w : Word) : Memory :=
  (((m.write a (lane w 0)).write (a + 1) (lane w 1)).write (a + 2) (lane w 2)).write (a + 3) (lane w 3)

/-- The memory that holds exactly the bytes `bs`, from address `base` upward. -/
def Memory.ofBytes (base : Nat) : List Byte → Memory
  | [] => []
  | b :: bs => (base, b) :: Memory.ofBytes (base + 1) bs

/-! ### The address map (20_memory.md R66) -/

/-- The regions of 20_memory.md R66. -/
inductive Region where
  | id | cmd | status | errInfo | ilen | olen | pad | freq | ctLen | ctVal | ibuf | obuf
  deriving DecidableEq, Repr

/-- One row of the address map: region, first byte offset, size in bytes, whether a write is allowed. -/
structure MapRow where
  region : Region
  base : Nat
  size : Nat
  writable : Bool
  deriving DecidableEq, Repr

/-- Byte offset of FREQ (20_memory.md R66). -/
def freqBase : Nat := 0x000400
/-- Byte offset of CT_LEN (20_memory.md R66). -/
def ctLenBase : Nat := 0x000800
/-- Byte offset of CT_VAL (20_memory.md R66). -/
def ctValBase : Nat := 0x002000
/-- Byte offset of IBUF (20_memory.md R66). -/
def ibufBase : Nat := 0x010000
/-- Byte offset of OBUF (20_memory.md R66). -/
def obufBase : Nat := 0x200000

/-- The byte offset of CMD (10_state.md R31). -/
def cmdAddr : HostAddr := 0x000004#22
/-- The byte offset of ILEN (10_state.md R21). -/
def ilenAddr : HostAddr := 0x000010#22
/-- The byte offset of OLEN (10_state.md R22). -/
def olenAddr : HostAddr := 0x000014#22
/-- The byte offset of PAD (10_state.md R23). -/
def padAddr : HostAddr := 0x000018#22

/-- The address map, row by row (20_memory.md R66). Every region can be read; CMD reads as 0. -/
def addressMap : List MapRow :=
  [ ⟨.id, 0x000000, 4, false⟩,
    ⟨.cmd, 0x000004, 4, true⟩,
    ⟨.status, 0x000008, 4, false⟩,
    ⟨.errInfo, 0x00000C, 4, false⟩,
    ⟨.ilen, 0x000010, 4, true⟩,
    ⟨.olen, 0x000014, 4, false⟩,
    ⟨.pad, 0x000018, 4, true⟩,
    ⟨.freq, freqBase, 1024, true⟩,
    ⟨.ctLen, ctLenBase, 1024, true⟩,
    ⟨.ctVal, ctValBase, 8192, true⟩,
    ⟨.ibuf, ibufBase, 65536, true⟩,
    ⟨.obuf, obufBase, 2097152, false⟩ ]

/-- The row an address lies in, if any. -/
def mapRowOf (a : Nat) : Option MapRow :=
  addressMap.find? fun r => decide (r.base ≤ a ∧ a < r.base + r.size)

/-! ### How a command ends -/

/-- A command ends in success: `STATUS.ERR <- 0`, `ERRINFO <- 0` (60_exceptions.md R210; 10_state.md R33). -/
def State.succeed (s : State) : State :=
  { s with err := 0, errInfo := 0 }

/-- `raise <Error>(info)`: the two things every error saves (60_exceptions.md R213, R227). What else a command's own error
rule changes, the command does first. There is no return operation: the next command overwrites both
(60_exceptions.md R228). -/
def State.raise (s : State) (e : CmdError) (info : Word) : State :=
  { s with err := e.code, errInfo := info }

/-- OBUF holds the valid bytes `bs` and nothing is known of the rest: `OLEN <- |bs|` (10_state.md R22, R41). -/
def State.output (s : State) (bs : List Byte) : State :=
  { s with
    olen := BitVec.ofNat 32 bs.length
    obuf := Memory.ofBytes obufBase bs
    free := { s.free with obuf := s.free.obuf + 1 } }

end Sys2Proof.Machine
end

