-- ==== Sys2Proof/Machine/Operands.lean ====
section
/-! DEFINITION. The implicit operands of the commands, read from the state (00_scope.md R10, R13, R14, R19). -/

namespace Sys2Proof.Machine

/-- `FREQ[sym]` (10_state.md R36). -/
def State.freqAt (s : State) (sym : Byte) : Word :=
  symAt s.freq sym

/-- `CT_LEN[sym]` (10_state.md R37). -/
def State.ctLenAt (s : State) (sym : Byte) : Byte :=
  symAt s.ctLen sym

/-- `CT_VAL[sym][32w+31 : 32w]` for `w` in 0..7 (10_state.md R38). -/
def State.ctValWordAt (s : State) (sym : Byte) (w : Nat) : Word :=
  (symAt s.ctVal sym)[w]?.getD 0

/-- `CT_VAL[sym][i]` (10_state.md R38). -/
def State.ctValBit (s : State) (sym : Byte) (i : Nat) : Bool :=
  wordsBit (symAt s.ctVal sym) i

/-- `code(sym) = str(CT_LEN[sym], CT_VAL[sym][CT_LEN[sym]-1 : 0])`, empty when the symbol has no entry
(00_scope.md R14; 10_state.md R38). Bits at `CT_LEN[sym]` and above are never read. -/
def State.code (s : State) (sym : Byte) : Bits :=
  (List.range (s.ctLenAt sym).toNat).map fun i => s.ctValBit sym ((s.ctLenAt sym).toNat - 1 - i)

/-- A symbol has an entry in the CodeTable when its length is not 0 (00_scope.md R14). -/
def State.hasEntry (s : State) (sym : Byte) : Bool :=
  s.ctLenAt sym != 0

/-- The CodeTable that CT denotes: the symbols with an entry, ascending, each with its code (00_scope.md R14). -/
def State.codeTable (s : State) : List (Byte × Bits) :=
  (allSymbols.filter s.hasEntry).map fun sym => (sym, s.code sym)

/-- `IBUF[i]` (10_state.md R40); a byte nobody wrote is a free value (log 2). -/
def State.ibufAt (s : State) (i : Nat) : Byte :=
  (Memory.lookup s.ibuf (ibufBase + i)).getD (Config.freeIbufByte s.free.reset (ibufBase + i))

/-- `OBUF[i]` (10_state.md R41); a byte that is no valid output is a free value (log 3). -/
def State.obufAt (s : State) (i : Nat) : Byte :=
  (Memory.lookup s.obuf (obufBase + i)).getD (Config.freeObufByte s.free.obuf (obufBase + i))

/-- `IBUF[0..ILEN-1]`: the data of ENCODE, the packed bytes of DECODE (00_scope.md R19). -/
def State.inputBytes (s : State) : List Byte :=
  (List.range s.ilen.toNat).map s.ibufAt

/-- Content bit `k` of the packed bytes: `(IBUF[k div 8] >> (7 - (k mod 8))) mod 2` (20_memory.md R67;
43_decode.md R185). -/
def State.contentBit (s : State) (k : Nat) : Bool :=
  (s.ibufAt (k / 8)).getLsbD (7 - k % 8)

/-- The number of content bits, `8 x ILEN - PAD` (43_decode.md R185). -/
def State.contentLength (s : State) : Nat :=
  8 * s.ilen.toNat - s.pad.toNat

/-- The content bits in stream order (43_decode.md R185). -/
def State.contentBits (s : State) : Bits :=
  (List.range s.contentLength).map s.contentBit

end Sys2Proof.Machine
end

