-- ==== Sys2Proof/Machine/Build.lean ====
section
/-! DEFINITION. BUILD: the Huffman tree builder and the code-table generator (40_build.md). -/

namespace Sys2Proof.Machine

/-- `P`: the symbols with a non-zero count, ascending (40_build.md R111). -/
def presentSymbols (freq : Vector Word 256) : List Byte :=
  allSymbols.filter fun sym => symAt freq sym != 0

/-- `MakeLeaves(P)`: leaf `i` is the `i`-th present symbol, its weight the count extended to 40 bits (40_build.md R115). -/
def makeLeaves (freq : Vector Word 256) (p : List Byte) : List BuildNode :=
  p.map fun sym => .leaf sym ((symAt freq sym).setWidth 40)

/-- `BN[i].weight` (10_state.md R42). -/
def weightAt (bn : List BuildNode) (i : Nat) : Weight :=
  match bn[i]? with
  | some (.leaf _ w) => w
  | some (.internal _ _ w) => w
  | some .free => 0
  | none => 0

/-- Insert index `i` after every node whose weight is greater than or equal to its own: position `p` of 40_build.md R118
(R119). -/
def insertByWeight (bn : List BuildNode) (wl : List Nat) (i : Nat) : List Nat :=
  let p := wl.countP fun j => decide (weightAt bn i ≤ weightAt bn j)
  wl.take p ++ i :: wl.drop p

/-- `InitialOrder(n)`: weight descending, equal weights by ascending index (40_build.md R116), as the stable insertion of
0, 1, ..., n-1. -/
def initialOrder (bn : List BuildNode) (n : Nat) : List Nat :=
  (List.range n).foldl (insertByWeight bn) []

/-- `MergeStep` (40_build.md R117, R118): `r` the last, `l` the one before it; the new node takes the next free index. -/
def mergeStep (b : BuildStore) : BuildStore :=
  match b.wl.reverse with
  | r :: l :: rest =>
    let w := weightAt b.bn l + weightAt b.bn r
    let bn := b.bn ++ [.internal l r w]
    { bn := bn, wl := insertByWeight bn rest.reverse b.bn.length }
  | _ => b

/-- `while |WL| > 1: MergeStep()`, at most `fuel` passes (40_build.md R111, R120). -/
def mergeLoop : Nat → BuildStore → BuildStore
  | 0, b => b
  | fuel + 1, b => if b.wl.length > 1 then mergeLoop fuel (mergeStep b) else b

/-- The arena and working list when the loop has ended; each pass shortens `WL` by one, so `n` passes are enough
(40_build.md R120). -/
def buildTree (freq : Vector Word 256) (p : List Byte) : BuildStore :=
  let bn := makeLeaves freq p
  mergeLoop p.length { bn := bn, wl := initialOrder bn p.length }

/-- `Traverse(i, c)`: 0 for left, 1 for right, the accumulated bit-string recorded at each leaf (40_build.md R123). `fuel`
bounds the depth. -/
def traverse (bn : List BuildNode) : Nat → Nat → Bits → List (Byte × Bits)
  | 0, _, _ => []
  | fuel + 1, i, c =>
    match bn[i]? with
    | some (.leaf sym _) => [(sym, c)]
    | some (.internal l r _) => traverse bn fuel l (c ++ [false]) ++ traverse bn fuel r (c ++ [true])
    | some .free => []
    | none => []

/-- What BUILD records in the code table, symbol by symbol, and the scratch it leaves (40_build.md R111): nothing for the
empty map (R112), the code "0" for a single symbol (R113), the traversal of the tree otherwise. DESIGN CHOICE (log 15): the
first two leave `BN` and `WL` as they were, where 10_state.md R42 leaves them unspecified. -/
def buildCodes (freq : Vector Word 256) (old : BuildStore) : List (Byte × Bits) × BuildStore :=
  match presentSymbols freq with
  | [] => ([], old)
  | [sym] => ([(sym, [false])], old)
  | p =>
    let b := buildTree freq p
    (traverse b.bn b.bn.length (b.wl.headD 0) [], b)

/-- The code recorded for a symbol, empty when none was (40_build.md R124). -/
def codeIn (codes : List (Byte × Bits)) (sym : Byte) : Bits :=
  match codes.find? fun e => e.1 == sym with
  | some e => e.2
  | none => []

/-- All 256 entries of CT from the recorded codes: length, and value with every higher bit 0 (40_build.md R123, R124). -/
def State.writeCodeTable (s : State) (codes : List (Byte × Bits)) : State :=
  { s with
    ctLen := symTable fun sym => BitVec.ofNat 8 (codeIn codes sym).length
    ctVal := symTable fun sym => valueWords (codeIn codes sym) }

/-- BUILD (40_build.md R110, R111). It cannot fail. `RN` and `RROOT` keep their content (R110); that `RL` does is log 15. -/
def execBuild (s : State) : Host.Outcome State Fault Refusal :=
  let r := buildCodes s.freq s.build
  .next ({ (s.writeCodeTable r.1) with build := r.2 }).dropTree.succeed

end Sys2Proof.Machine
end

