-- ==== Sys2Proof/Machine/Encode.lean ====
section
/-! DEFINITION. ENCODE: the bit-packer (41_encode.md). -/

namespace Sys2Proof.Machine

/-- The substitution loop from index `i` on: the codes of the bytes in order, or the position and value of the first byte
without an entry (41_encode.md R141, R143). -/
def State.substitute (s : State) : Nat → List Byte → Except (Nat × Byte) Bits
  | _, [] => .ok []
  | i, b :: bs =>
    if s.hasEntry b then
      match State.substitute s (i + 1) bs with
      | .ok rest => .ok (s.code b ++ rest)
      | .error e => .error e
    else .error (i, b)

/-- `pad = (8 - (L mod 8)) mod 8` (41_encode.md R145). -/
def padFor (l : Nat) : Nat :=
  (8 - l % 8) % 8

/-- The first `n` groups of 8 bits as bytes (41_encode.md R144). -/
def packBytes : Nat → Bits → List Byte
  | 0, _ => []
  | n + 1, bits => byteOfBits (bits.take 8) :: packBytes n (bits.drop 8)

/-- The packed bytes of a stream: right-padded with 0 bits to a whole number of bytes (41_encode.md R141, R144, R145). -/
def pack (bits : Bits) : List Byte :=
  packBytes ((bits.length + padFor bits.length) / 8) (bits ++ List.replicate (padFor bits.length) false)

/-- ENCODE ends with an error: `OLEN <- 0`, `PAD <- 0`, OBUF unspecified (41_encode.md R147). -/
def State.failEncode (s : State) (e : CmdError) (info : Word) : State :=
  ({ s with pad := 0 }.output []).raise e info

/-- ENCODE (41_encode.md R140, R141), its tests in the order of 60_exceptions.md R225. -/
def execEncode (s : State) : Host.Outcome State Fault Refusal :=
  if s.ilen.toNat > Config.ibufCap then .next (s.failEncode .operandRange 0)
  else if s.codeTable = [] ∧ s.ilen ≠ 0 then .next (s.failEncode .emptyAlphabetMismatch 0)
  else
    match s.substitute 0 s.inputBytes with
    | .error (pos, sym) => .next (s.failEncode .unknownSymbol (unknownSymbolInfo pos sym))
    | .ok bits => .next ({ s with pad := BitVec.ofNat 32 (padFor bits.length) }.output (pack bits)).succeed

end Sys2Proof.Machine
end

