-- ==== Sys2Proof/Machine/Rebuild.lean ====
section
/-! DEFINITION. REBUILD: the tree reconstructor (42_rebuild.md). -/

namespace Sys2Proof.Machine

/-- Element `e` stands before a key `k` that is inserted: shorter, or equally long and not greater in value
(42_rebuild.md R161, R166, R169). -/
def RlEntry.notAfter (e k : RlEntry) : Bool :=
  decide (e.len < k.len) || (decide (e.len = k.len) && decide (e.val ≤ k.val))

/-- Insert `k` at position `p`, the number of elements that stand before it (42_rebuild.md R161, R169). -/
def insertByKey (rl : List RlEntry) (k : RlEntry) : List RlEntry :=
  let p := rl.countP fun e => e.notAfter k
  rl.take p ++ k :: rl.drop p

/-- `RL` sorted by (len, val, node) ascending, as the stable insertion of elements that come in ascending node order
(42_rebuild.md R161, R166). -/
def sortByKey (rl : List RlEntry) : List RlEntry :=
  rl.foldl insertByKey []

/-- The leaves of the arena, one for each entry of the table in ascending symbol order (42_rebuild.md R164). -/
def rebuildLeaves (table : List (Byte × Bits)) : List RebuildNode :=
  table.map fun e => .leaf e.1

/-- The initial working list: `(CT_LEN, CT_VAL mod 2^CT_LEN, i)` of entry `i` (42_rebuild.md R161). -/
def initialEntries (table : List (Byte × Bits)) : List RlEntry :=
  table.mapIdx fun i e => { len := e.2.length, val := Bits.val e.2, node := i }

/-- The selected pair passes the test of 42_rebuild.md R170: same length, not empty, the same but for the last bit, and
different. -/
def RlEntry.siblings (a b : RlEntry) : Bool :=
  decide (a.len = b.len) && decide (b.len ≠ 0) && decide (a.val >>> 1 = b.val >>> 1) && decide (a.val ≠ b.val)

/-- One pass of the merge loop on the last two elements, `none` for MalformedCodeTableError (42_rebuild.md R167 to R170). -/
def rebuildStep (rn : List RebuildNode) (rl : List RlEntry) : Option (List RebuildNode × List RlEntry) :=
  match rl.reverse with
  | b :: a :: rest =>
    if a.siblings b then
      some (rn ++ [.internal a.node b.node],
        insertByKey rest.reverse { len := b.len - 1, val := b.val >>> 1, node := rn.length })
    else none
  | _ => none

/-- `while |RL| > 1`, at most `fuel` passes (42_rebuild.md R161, R167). -/
def rebuildLoop : Nat → List RebuildNode → List RlEntry → Option (List RebuildNode × List RlEntry)
  | 0, rn, rl => some (rn, rl)
  | fuel + 1, rn, rl =>
    if rl.length > 1 then
      match rebuildStep rn rl with
      | some r => rebuildLoop fuel r.1 r.2
      | none => none
    else some (rn, rl)

/-- The loop and the final check that one element with the empty key is left (42_rebuild.md R161, R171). -/
def rebuildFrom (rn : List RebuildNode) (rl : List RlEntry) : Option RebuildStore :=
  match rebuildLoop rl.length rn (sortByKey rl) with
  | some (rn', [e]) => if e.len = 0 then some { rn := rn', rl := [e], rroot := some e.node } else none
  | some (_, _) => none
  | none => none

/-- The tree of a table, `none` for MalformedCodeTableError (42_rebuild.md R161): `NIL` for the empty table, no node being
written (R162; `RN` and `RL` stay, log 8); a lone one-bit code gets the placeholder with the complement code (R165); otherwise the merge. -/
def rebuildTable (table : List (Byte × Bits)) (old : RebuildStore) : Option RebuildStore :=
  match table with
  | [] => some { old with rroot := none }
  | [(sym, c)] =>
    if c.length = 1 then
      rebuildFrom [.leaf sym, .phold] [{ len := 1, val := Bits.val c, node := 0 }, { len := 1, val := 1 - Bits.val c, node := 1 }]
    else none
  | _ => rebuildFrom (rebuildLeaves table) (initialEntries table)

/-- REBUILD ends with MalformedCodeTableError: the tree is lost, RN and RROOT are unspecified (42_rebuild.md R174;
log 7). -/
def State.failRebuild (s : State) : State :=
  let n := s.free.tree + 1
  ({ s with tree := (Config.freeRebuildStore n).clip, free := { s.free with tree := n } }).dropTree.raise .malformedCodeTable 0

/-- REBUILD (42_rebuild.md R160, R161). -/
def execRebuild (s : State) : Host.Outcome State Fault Refusal :=
  match rebuildTable s.codeTable s.tree with
  | some t => .next ({ s with tree := t }).keepTree.succeed
  | none => .next s.failRebuild

end Sys2Proof.Machine
end

