-- ==== Sys2Proof/Machine/System.lean ====
section
/-! DEFINITION. NOP and CLEAR (44_system.md), and the end of an illegal command word (30_encoding.md R93). -/

namespace Sys2Proof.Machine

/-- NOP: `STATUS.ERR <- 0`, `ERRINFO <- 0` and nothing else (44_system.md R200). -/
def execNop (s : State) : Host.Outcome State Fault Refusal :=
  .next s.succeed

/-- CLEAR: everything with a reset value back to it; CT_VAL and IBUF keep their content, OBUF is unspecified from index 0 on
(44_system.md R202). DESIGN CHOICE (log 15): `BN`, `WL`, `RN`, `RL` and `RROOT` keep their content too, where 10_state.md R48
leaves it unspecified. -/
def execClear (s : State) : Host.Outcome State Fault Refusal :=
  .next ({ s with
    freq := Vector.replicate 256 0
    ctLen := Vector.replicate 256 0
    ilen := 0
    pad := 0 }.output []).dropTree.succeed

/-- An illegal command word executes nothing: `STATUS.ERR <- 8`, `ERRINFO <-` the word (30_encoding.md R93;
60_exceptions.md R223). -/
def State.illegalCommand (s : State) (w : Word) : State :=
  s.raise .illegalCommand w

end Sys2Proof.Machine
end

