-- ==== Sys2Proof/Machine/Walk.lean ====
section
/-! DEFINITION. DECODE: the bit-walker (43_decode.md). -/

namespace Sys2Proof.Machine

/-- `RN[i]`; an index no record was written at is a FREE record (10_state.md R43). -/
def nodeAt (rn : List RebuildNode) (i : Nat) : RebuildNode :=
  rn[i]?.getD .free

/-- `if b = 0 then RN[pos].left else RN[pos].right`; a record without children has `NIL` there (10_state.md R42, R43; log 8). -/
def childOf (n : RebuildNode) (b : Bool) : Nat :=
  match n with
  | .internal l r => if b then r else l
  | .leaf _ => Config.nil
  | .phold => Config.nil
  | .free => Config.nil

/-- The walk over the remaining content bits from position `pos` (43_decode.md R186 to R188): the symbols it emits, or the
error that ends it. -/
def walk (rn : List RebuildNode) (root : Nat) : Nat → Bits → Except CmdError (List Byte)
  | pos, [] => if pos = root then .ok [] else .error .truncatedStream
  | pos, b :: bs =>
    match nodeAt rn (childOf (nodeAt rn pos) b) with
    | .leaf sym =>
      match walk rn root root bs with
      | .ok out => .ok (sym :: out)
      | .error e => .error e
    | .phold => .error .invalidCodeword
    | .internal _ _ => walk rn root (childOf (nodeAt rn pos) b) bs
    | .free => walk rn root (childOf (nodeAt rn pos) b) bs

/-- DECODE ends with an error: `OLEN <- 0`, OBUF unspecified, `ERRINFO <- 0` (43_decode.md R190). -/
def State.failDecode (s : State) (e : CmdError) : State :=
  (s.output []).raise e 0

/-- DECODE (43_decode.md R180, R181), its tests in the order of 60_exceptions.md R225. -/
def execDecode (s : State) : Host.Outcome State Fault Refusal :=
  if s.ilen.toNat > Config.ibufCap then .next (s.failDecode .operandRange)
  else if s.treeValid = false then .next (s.failDecode .noTree)
  else if s.pad.toNat > Config.padMax ∨ (s.ilen = 0 ∧ s.pad ≠ 0) then .next (s.failDecode .paddingRange)
  else
    match s.tree.rroot with
    | none => if s.ilen ≠ 0 then .next (s.failDecode .emptyAlphabetMismatch) else .next (s.output []).succeed
    | some root =>
      match walk s.tree.rn root root s.contentBits with
      | .ok out => .next (s.output out).succeed
      | .error e => .next (s.failDecode e)

end Sys2Proof.Machine
end

