-- ==== Sys2Proof/Machine/Dispatch.lean ====
section
/-! DEFINITION. One arm per instruction (30_encoding.md R92). -/

namespace Sys2Proof.Machine

def exec (i : Instr) (s : State) : Host.Outcome State Fault Refusal :=
  match i with
  | .nop => Sys2Proof.Machine.execNop s
  | .build => Sys2Proof.Machine.execBuild s
  | .encode => Sys2Proof.Machine.execEncode s
  | .rebuild => Sys2Proof.Machine.execRebuild s
  | .decode => Sys2Proof.Machine.execDecode s
  | .clear => Sys2Proof.Machine.execClear s

end Sys2Proof.Machine
end

