-- ==== Sys2Proof/Machine/HostPort.lean ====
section
/-! DEFINITION. The host port: reads, writes, their responses, and reset (20_memory.md R60 to R71; 70_reset_and_hazards.md
R240, R241). -/

namespace Sys2Proof.Machine

/-- The word at the aligned byte offset `a` of a region (20_memory.md R61, R66, R68; 10_state.md R30 to R41). -/
def State.regionWord (s : State) (r : Region) (a : Nat) : Word :=
  match r with
  | .id => Config.idWord
  | .cmd => 0
  | .status => s.statusWord
  | .errInfo => s.errInfo
  | .ilen => s.ilen
  | .olen => s.olen
  | .pad => s.pad
  | .freq => s.freqAt (BitVec.ofNat 8 ((a - freqBase) / 4))
  | .ctLen => (s.ctLenAt (BitVec.ofNat 8 ((a - ctLenBase) / 4))).setWidth 32
  | .ctVal => s.ctValWordAt (BitVec.ofNat 8 ((a - ctValBase) / 32)) ((a - ctValBase) % 32 / 4)
  | .ibuf =>
    let i := a - ibufBase
    wordOfLanes (s.ibufAt i) (s.ibufAt (i + 1)) (s.ibufAt (i + 2)) (s.ibufAt (i + 3))
  | .obuf =>
    let i := a - obufBase
    wordOfLanes (s.obufAt i) (s.obufAt (i + 1)) (s.obufAt (i + 2)) (s.obufAt (i + 3))

/-- The word an OKAY read of `addr` returns; `none` where the read gets ERROR: misaligned or unmapped
(20_memory.md R61, R64). -/
def State.readWord (s : State) (addr : HostAddr) : Option Word :=
  if addr.toNat % 4 = 0 then
    (mapRowOf addr.toNat).map fun row => s.regionWord row.region addr.toNat
  else none

/-- The byte at byte offset `a` of the address space, as a lane of the word a read returns (20_memory.md R63, R68);
`none` where there is nothing to read. -/
def State.byteAt (s : State) (a : Nat) : Option Byte :=
  if a < 2 ^ 22 then (s.readWord (BitVec.ofNat 22 (a / 4 * 4))).map fun w => lane w (a % 4) else none

/-- `HostRead(addr)`: OKAY and the word, or ERROR and unspecified data (20_memory.md R61, R64; log 5). -/
def State.hostRead (s : State) (addr : HostAddr) : State :=
  match s.readWord addr with
  | some w => { s with resp := some (.read .okay w) }
  | none =>
    { s with
      resp := some (.read .error (Config.freeBusWord s.free.bus))
      free := { s.free with bus := s.free.bus + 1 } }

/-- A write with an OKAY response is complete. -/
def State.writeOkay (s : State) : State :=
  { s with resp := some (.write .okay) }

/-- A write with an ERROR response changes no state (20_memory.md R64). -/
def State.writeError (s : State) : State :=
  { s with resp := some (.write .error) }

/-- The outcome of a command with the OKAY response of its CMD write (60_exceptions.md R213). -/
def completeCommand : Host.Outcome State Fault Refusal → Host.Outcome State Fault Refusal
  | .next t => .next t.writeOkay
  | .fault r => .fault r
  | .refused r => .refused r

/-- A write of `w` to CMD runs the command it encodes to its end (10_state.md R31; 30_encoding.md R93; 60_exceptions.md
R213). -/
def State.command (s : State) (w : Word) : Host.Outcome State Fault Refusal :=
  match decode w with
  | .instr i => completeCommand (exec i s)
  | .illegal w => .next (s.illegalCommand w).writeOkay

/-- The stored effect of an OKAY write to a region other than CMD (20_memory.md R62; 10_state.md R21, R23, R36 to R40). -/
def State.storeRegion (s : State) (r : Region) (a : Nat) (w : Word) : State :=
  match r with
  | .ilen => { s with ilen := w }
  | .pad => { s with pad := w }
  | .freq => { s with freq := symSet s.freq (BitVec.ofNat 8 ((a - freqBase) / 4)) w }
  | .ctLen => { s with ctLen := symSet s.ctLen (BitVec.ofNat 8 ((a - ctLenBase) / 4)) (w.setWidth 8) }.dropTree
  | .ctVal =>
    let sym := BitVec.ofNat 8 ((a - ctValBase) / 32)
    { s with ctVal := symSet s.ctVal sym ((symAt s.ctVal sym).setIfInBounds ((a - ctValBase) % 32 / 4) w) }.dropTree
  | .ibuf => { s with ibuf := Memory.writeWord s.ibuf a w }
  | .id => s
  | .cmd => s
  | .status => s
  | .errInfo => s
  | .olen => s
  | .obuf => s

/-- `HostWrite(addr, w)` (20_memory.md R62, R64). -/
def State.hostWrite (s : State) (addr : HostAddr) (w : Word) : Host.Outcome State Fault Refusal :=
  if addr.toNat % 4 = 0 then
    match mapRowOf addr.toNat with
    | some row =>
      if row.writable then
        match row.region with
        | .cmd => s.command w
        | r => .next (s.storeRegion r addr.toNat w).writeOkay
      else .next s.writeError
    | none => .next s.writeError
  else .next s.writeError

/-- The counters after a reset: every unspecified content may be new (10_state.md R49). -/
def FreeCounters.next (f : FreeCounters) : FreeCounters where
  reset := f.reset + 1
  obuf := f.obuf + 1
  bus := f.bus
  tree := f.tree + 1

/-- `Reset : State -> State` (70_reset_and_hazards.md R240, R241). What the host does afterwards is still to come. -/
def State.resetEvent (s : State) : State :=
  { State.afterReset s.free.next with inputs := s.inputs }

/-- Perform one event of the outside world. -/
def State.perform (s : State) (e : HostEvent) : Host.Outcome State Fault Refusal :=
  match e with
  | .read addr => .next (s.hostRead addr)
  | .write addr w => s.hostWrite addr w
  | .reset => .next s.resetEvent

/-- One step: the oldest waiting event is taken and performed; with none waiting the core is idle and nothing changes
(00_scope.md R5, R6; 30_encoding.md R96). -/
def State.nextEvent (s : State) : Host.Outcome State Fault Refusal :=
  match s.inputs with
  | [] => .next s
  | e :: rest => { s with inputs := rest }.perform e

end Sys2Proof.Machine
end

