-- ==== Sys2Proof/Machine/Step.lean ====
section
/-! DEFINITION. One step of the machine, and how a command word is placed where the next step takes it. -/

namespace Sys2Proof.Machine

/-- One step: one event of the host, with everything it causes (00_scope.md R6). -/
def step (s : State) : Host.Outcome State Fault Refusal :=
  s.nextEvent

/-- `s` with a CMD write of the table word as the next thing the host does, so that the very next step runs it. There is no
instruction memory and no fetch: a program comes from the host, one CMD write at a time (00_scope.md R5; log 1). -/
def State.withFetchWord (s : State) (nbits w : Nat) : State :=
  { s with inputs := .write cmdAddr (commandWordOfTable nbits w) :: s.inputs }

end Sys2Proof.Machine
end

