-- ==== Sys2Proof/Machine/Script.lean ====
section
/-! DEFINITION. Host scripts: the notation of 30_encoding.md R97 and R98 as transactions of the host port. -/

namespace Sys2Proof.Machine

/-- One line of a host script (30_encoding.md R97, R98). -/
inductive ScriptLine where
  /-- `WR addr, value` -/
  | wr (addr : HostAddr) (value : Word)
  /-- `RD addr` -/
  | rd (addr : HostAddr)
  /-- one of the six mnemonics -/
  | command (i : Instr)
  /-- `EXPECT addr, value` -/
  | expect (addr : HostAddr) (value : Word)
  /-- `SETFREQ s, c` -/
  | setFreq (sym : Byte) (count : Word)
  /-- `SETCODE s, "bits"` -/
  | setCode (sym : Byte) (bits : Bits)
  /-- `DELCODE s` -/
  | delCode (sym : Byte)
  /-- `LDIBUF b0 b1 ...` -/
  | ldIbuf (bytes : List Byte)
  /-- `SETPAD p` -/
  | setPad (p : Word)
  /-- `MOVOI` -/
  | movoi
  /-- `EXPECTOBUF b0 b1 ...` -/
  | expectObuf (bytes : List Byte)
  deriving DecidableEq, Repr

/-- The host address of a byte offset. -/
def hostAddr (a : Nat) : HostAddr :=
  BitVec.ofNat 22 a

/-- The number of words that hold `n` bytes, `ceil(n/4)` (30_encoding.md R98). -/
def wordCount (n : Nat) : Nat :=
  (n + 3) / 4

/-- Word `k` of a list of bytes, a missing byte taken as 0 (30_encoding.md R98, `LDIBUF`). -/
def wordOfBytes (bytes : List Byte) (k : Nat) : Word :=
  wordOfLanes (bytes.getD (4 * k) 0) (bytes.getD (4 * k + 1) 0) (bytes.getD (4 * k + 2) 0) (bytes.getD (4 * k + 3) 0)

/-- Which lines the notation allows: `SETCODE` takes a code of 1 to 255 bits (00_scope.md R14, R17), `LDIBUF` no more bytes than
IBUF holds, `EXPECTOBUF` no more than OBUF holds. -/
def ScriptLine.wellFormed : ScriptLine → Bool
  | .setCode _ bits => decide (1 ≤ bits.length ∧ bits.length ≤ Config.maxLen)
  | .ldIbuf bytes => decide (bytes.length ≤ Config.ibufCap)
  | .expectObuf bytes => decide (bytes.length ≤ Config.obufCap)
  | .wr _ _ => true
  | .rd _ => true
  | .command _ => true
  | .expect _ _ => true
  | .setFreq _ _ => true
  | .delCode _ => true
  | .setPad _ => true
  | .movoi => true

/-- `MOVOI` is legal only when the last output fits the input buffer (30_encoding.md R98). -/
def ScriptLine.legalAt (s : State) : ScriptLine → Bool
  | .movoi => decide (s.olen.toNat ≤ Config.ibufCap)
  | _ => true

/-- The transactions a line stands for when the machine is in state `s` (30_encoding.md R97, R98). Only `MOVOI` depends on
`s`, through the values its reads return: reads change nothing a later read of it sees (20_memory.md R61; log 14). -/
def ScriptLine.expand (s : State) : ScriptLine → List HostEvent
  | .wr addr value => [.write addr value]
  | .rd addr => [.read addr]
  | .command i => [.write cmdAddr (encode i)]
  | .expect addr _ => [.read addr]
  | .setFreq sym count => [.write (hostAddr (freqBase + 4 * sym.toNat)) count]
  | .setCode sym bits =>
    ((List.range 8).map fun w =>
      .write (hostAddr (ctValBase + 32 * sym.toNat + 4 * w)) (BitVec.ofNat 32 (Bits.val bits >>> (32 * w)))) ++
      [.write (hostAddr (ctLenBase + 4 * sym.toNat)) (BitVec.ofNat 32 bits.length)]
  | .delCode sym => [.write (hostAddr (ctLenBase + 4 * sym.toNat)) 0]
  | .ldIbuf bytes =>
    ((List.range (wordCount bytes.length)).map fun k => .write (hostAddr (ibufBase + 4 * k)) (wordOfBytes bytes k)) ++
      [.write ilenAddr (BitVec.ofNat 32 bytes.length)]
  | .setPad p => [.write padAddr p]
  | .movoi =>
    [.read olenAddr] ++
      ((List.range (wordCount s.olen.toNat)).flatMap fun k =>
        [.read (hostAddr (obufBase + 4 * k)),
          .write (hostAddr (ibufBase + 4 * k)) ((s.readWord (hostAddr (obufBase + 4 * k))).getD 0)]) ++
      [.write ilenAddr s.olen]
  | .expectObuf bytes =>
    .read olenAddr :: (List.range (wordCount bytes.length)).map fun k => .read (hostAddr (obufBase + 4 * k))

/-- What a line claims of the state it is reached in (30_encoding.md R97 `EXPECT`, R98 `EXPECTOBUF`). -/
def ScriptLine.claim (s : State) : ScriptLine → Bool
  | .expect addr value => decide (s.readWord addr = some value)
  | .expectObuf bytes =>
    decide (s.readWord olenAddr = some (BitVec.ofNat 32 bytes.length)) &&
      (List.range bytes.length).all fun k => decide (s.byteAt (obufBase + k) = bytes[k]?)
  | _ => true

/-- Perform events one after the other, stopping at the first that gives no next state (20_memory.md R60, R73). -/
def State.performAll : State → List HostEvent → Host.Outcome State Fault Refusal
  | s, [] => .next s
  | s, e :: es =>
    match s.perform e with
    | .next t => State.performAll t es
    | .fault r => .fault r
    | .refused r => .refused r

/-- Run a script from `s`: the state at its end, or `none` when a claim fails, a line is not legal, or a step gives no next
state. -/
def State.runScript : State → List ScriptLine → Option State
  | s, [] => some s
  | s, l :: ls =>
    if l.wellFormed && l.legalAt s && l.claim s then
      match s.performAll (l.expand s) with
      | .next t => State.runScript t ls
      | .fault _ => none
      | .refused _ => none
    else none

end Sys2Proof.Machine
end

