-- ==== Sys2Proof/Machine/Tree.lean ====
section
/-! DEFINITION. The abstract Code Tree that an arena denotes, its leaves and their paths, and the complete tables
(00_scope.md R15, R18). No command uses these; claims are stated with them. -/

namespace Sys2Proof.Machine

/-- A Code Tree (00_scope.md R15). -/
inductive CodeTree where
  | leaf (sym : Byte)
  | phold
  | node (left right : CodeTree)
  deriving DecidableEq, Repr

/-- `leaves(t)`: the (symbol, path) pairs of the leaves, left to right (00_scope.md R15). -/
def CodeTree.leaves : CodeTree → List (Byte × Bits)
  | .leaf sym => [(sym, [])]
  | .phold => []
  | .node l r => (l.leaves.map fun e => (e.1, false :: e.2)) ++ (r.leaves.map fun e => (e.1, true :: e.2))

/-- The paths of the placeholders of a tree (42_rebuild.md R165). -/
def CodeTree.pholdPaths : CodeTree → List Bits
  | .leaf _ => []
  | .phold => [[]]
  | .node l r => (l.pholdPaths.map fun c => false :: c) ++ (r.pholdPaths.map fun c => true :: c)

/-- The tree has a placeholder somewhere. -/
def CodeTree.hasPhold : CodeTree → Bool
  | .leaf _ => false
  | .phold => true
  | .node l r => l.hasPhold || r.hasPhold

/-- The number of nodes of a tree. -/
def CodeTree.size : CodeTree → Nat
  | .leaf _ => 1
  | .phold => 1
  | .node l r => l.size + r.size + 1

/-- `tree(RN, i)`, `none` where the arena holds no tree of depth below `fuel` at `i` (00_scope.md R15). -/
def treeOfRn (rn : List RebuildNode) : Nat → Nat → Option CodeTree
  | 0, _ => none
  | fuel + 1, i =>
    match nodeAt rn i with
    | .leaf sym => some (.leaf sym)
    | .phold => some .phold
    | .free => none
    | .internal l r =>
      match treeOfRn rn fuel l, treeOfRn rn fuel r with
      | some tl, some tr => some (.node tl tr)
      | _, _ => none

/-- `tree(BN, i)`, `none` where the arena holds no tree of depth below `fuel` at `i` (00_scope.md R15). -/
def treeOfBn (bn : List BuildNode) : Nat → Nat → Option CodeTree
  | 0, _ => none
  | fuel + 1, i =>
    match bn[i]? with
    | some (.leaf sym _) => some (.leaf sym)
    | some (.internal l r _) =>
      match treeOfBn bn fuel l, treeOfBn bn fuel r with
      | some tl, some tr => some (.node tl tr)
      | _, _ => none
    | some .free => none
    | none => none

/-- The tree DECODE walks, `none` for the tree of the empty table (10_state.md R43; 43_decode.md R180). -/
def RebuildStore.codeTree (t : RebuildStore) : Option CodeTree :=
  match t.rroot with
  | some root => treeOfRn t.rn t.rn.length root
  | none => none

/-- A complete table: its codes are pairwise different and are exactly the leaf paths of a tree whose internal nodes all have
two children (00_scope.md R18; 42_rebuild.md R172). -/
def CompleteTable (table : List (Byte × Bits)) : Prop :=
  (table.map Prod.snd).Nodup ∧
    ∃ t : CodeTree, t.hasPhold = false ∧ ∀ c : Bits, c ∈ table.map Prod.snd ↔ c ∈ t.leaves.map Prod.snd

/-- No code of a table is a prefix of the code of another symbol (00_scope.md R18, "Prefix-free"). -/
def PrefixFree (table : List (Byte × Bits)) : Prop :=
  ∀ e ∈ table, ∀ f ∈ table, e.1 ≠ f.1 → ¬ e.2 <+: f.2

end Sys2Proof.Machine
end

