-- ==== Sys2Proof/Safety.lean ====
section
/-! DEFINITION. What the claims are stated with: the invariant of the machine, the addresses of the map, the state a failed
command leaves, the table and data a command reads. -/

namespace Sys2Proof.Machine

/-- The byte offsets that some region of 20_memory.md R66 covers. -/
def Mapped (a : Nat) : Prop :=
  a < 0x00001C ∨ (0x000400 ≤ a ∧ a < 0x000C00) ∨ (0x002000 ≤ a ∧ a < 0x004000) ∨ (0x010000 ≤ a ∧ a < 0x020000) ∨
    (0x200000 ≤ a ∧ a < 0x400000)

/-- The byte offsets of the regions marked W in 20_memory.md R66: CMD, ILEN, PAD, FREQ, CT_LEN, CT_VAL, IBUF. -/
def Writable (a : Nat) : Prop :=
  (0x000004 ≤ a ∧ a < 0x000008) ∨ (0x000010 ≤ a ∧ a < 0x000014) ∨ (0x000018 ≤ a ∧ a < 0x00001C) ∨
    (0x000400 ≤ a ∧ a < 0x000C00) ∨ (0x002000 ≤ a ∧ a < 0x004000) ∨ (0x010000 ≤ a ∧ a < 0x020000)

/-- The byte offsets of the two CT windows (20_memory.md R66). -/
def InCtWindow (a : Nat) : Prop :=
  (0x000800 ≤ a ∧ a < 0x000C00) ∨ (0x002000 ≤ a ∧ a < 0x004000)

/-- Everything but the registers ERR, ERRINFO, TREE_VALID, OLEN, PAD, the code table, OBUF and the rebuilt tree is the same,
and so is every byte of the address space outside these registers and windows. -/
structure SameOutside (s t : State) : Prop where
  ilen : t.ilen = s.ilen
  freq : t.freq = s.freq
  ibuf : t.ibuf = s.ibuf
  inputs : t.inputs = s.inputs
  resp : t.resp = s.resp
  resets : t.free.reset = s.free.reset
  bytes : ∀ a, (0x000400 ≤ a ∧ a < 0x000800) ∨ (0x010000 ≤ a ∧ a < 0x020000) → t.byteAt a = s.byteAt a

/-- The code table is the same, and so is every byte of its windows. -/
structure SameTable (s t : State) : Prop where
  len : t.ctLen = s.ctLen
  val : t.ctVal = s.ctVal
  bytes : ∀ a, InCtWindow a → t.byteAt a = s.byteAt a

/-- The rebuilt tree and whether it is valid are the same. -/
structure SameTree (s t : State) : Prop where
  valid : t.treeValid = s.treeValid
  tree : t.tree = s.tree

/-- The output is the same: OLEN and every byte of OBUF. -/
structure SameOutput (s t : State) : Prop where
  olen : t.olen = s.olen
  obuf : t.obuf = s.obuf
  bytes : ∀ a, 0x200000 ≤ a ∧ a < 0x400000 → t.byteAt a = s.byteAt a

/-- What a failed ENCODE leaves (41_encode.md R147). -/
structure FailedEncode (s t : State) (code : BitVec 4) (info : Word) : Prop where
  err : t.err = code
  errInfo : t.errInfo = info
  olen : t.olen = 0
  pad : t.pad = 0
  outside : SameOutside s t
  table : SameTable s t
  tree : SameTree s t
  build : t.build = s.build

/-- What a failed DECODE leaves (43_decode.md R190). -/
structure FailedDecode (s t : State) (code : BitVec 4) : Prop where
  err : t.err = code
  errInfo : t.errInfo = 0
  olen : t.olen = 0
  pad : t.pad = s.pad
  outside : SameOutside s t
  table : SameTable s t
  tree : SameTree s t
  build : t.build = s.build

/-- DECODE passes the tests of 43_decode.md R182 and R183. -/
structure DecodeAllowed (s : State) : Prop where
  length : s.ilen.toNat ≤ 65536
  valid : s.treeValid = true
  padRange : s.pad.toNat ≤ 7
  padFits : s.pad.toNat ≤ 8 * s.ilen.toNat

/-- ENCODE passes its tests: a legal length, and an entry for every data byte (41_encode.md R142, R143). -/
structure EncodeAllowed (s : State) : Prop where
  length : s.ilen.toNat ≤ 65536
  covered : ∀ i, i < s.ilen.toNat → s.ctLenAt (s.ibufAt i) ≠ 0

/-- The bit-stream of the data: the codes of the input bytes in order (41_encode.md R143). -/
def State.stream (s : State) : Bits :=
  s.inputBytes.flatMap s.code

/-- The concatenated codes of a list of table entries. -/
def streamOf (es : List (Byte × Bits)) : Bits :=
  es.flatMap Prod.snd

/-- A table on which REBUILD succeeds (42_rebuild.md R172): empty, one entry with a one-bit code, or complete. -/
def Rebuildable (table : List (Byte × Bits)) : Prop :=
  table = [] ∨ (∃ sym c, table = [(sym, c)] ∧ c.length = 1) ∨ CompleteTable table

/-- `m` is `e` after its output was moved to the input buffer (30_encoding.md R98 `MOVOI`): same table, same tree, same PAD. -/
structure OutputMoved (e m : State) : Prop where
  ilen : m.ilen = e.olen
  ibuf : ∀ i, i < e.olen.toNat → m.ibufAt i = e.obufAt i
  pad : m.pad = e.pad
  table : SameTable e m
  tree : SameTree e m

/-- The invariant of the machine. -/
structure State.Inv (s : State) : Prop where
  /-- `STATUS.ERR` values 10 to 15 are never produced (60_exceptions.md R211) -/
  errCode : s.err.toNat ≤ 9
  /-- IBUF is in canonical form -/
  ibufForm : Memory.wf s.ibuf
  /-- IBUF lists bytes of its own window only (20_memory.md R66) -/
  ibufWindow : ∀ a, (Memory.lookup s.ibuf a).isSome → ibufBase ≤ a ∧ a < ibufBase + Config.ibufCap
  /-- OBUF is in canonical form -/
  obufForm : Memory.wf s.obuf
  /-- the known bytes of OBUF are exactly `OBUF[0..OLEN-1]` (10_state.md R22, R41) -/
  obufValid : ∀ a, (Memory.lookup s.obuf a).isSome ↔ obufBase ≤ a ∧ a < obufBase + s.olen.toNat
  /-- `OLEN` is in 0..OBUF_CAP (10_state.md R22) -/
  olenRange : s.olen.toNat ≤ Config.obufCap
  /-- `BN` and `WL` fit the hardware: 511 records, 256 elements, indices of 9 bits (10_state.md R42) -/
  buildFits : s.build.Fits
  /-- `RN`, `RL` and `RROOT` fit the hardware: 511 records, 256 triples of 8, 255 and 9 bits, a root that is an index or `NIL`
  (10_state.md R43; 42_rebuild.md R163) -/
  treeFits : s.tree.Fits
  /-- `TREE_VALID = 1` means the tree is the one REBUILD makes from the CodeTable that CT holds now (10_state.md R32) -/
  treeOfTable : s.treeValid = true → ∃ old, rebuildTable s.codeTable old = some s.tree

end Sys2Proof.Machine
end

