-- ==== Sys2Proof/Certificates/Slice0/Obligations.lean ====
section
/-! DEFINITION. The statements for the provers. Each docstring names the rules of spec/ it formalises; where a clause rests on a
choice of the model it says so and names the log entry. -/

open Sys2Proof Sys2Proof.Machine

/-! ### Command words and steps -/

/-- The six command words of 30_encoding.md R92 decode to their commands. -/
def Obligations.DecodeReadsTheSixCommandWords : Prop :=
  decode 0x00000000#32 = .instr .nop ∧ decode 0x00000001#32 = .instr .build ∧ decode 0x00000002#32 = .instr .encode ∧
    decode 0x00000003#32 = .instr .rebuild ∧ decode 0x00000004#32 = .instr .decode ∧ decode 0x00000005#32 = .instr .clear

/-- Decoding of every 32-bit word (30_encoding.md R94): the words 0 to 5, every other word illegal. -/
def Obligations.DecodeOfEveryWord : Prop :=
  ∀ w : Word, decode w =
    if w.toNat / 256 ≠ 0 then .illegal w
    else if w.toNat % 256 = 0 then .instr .nop
    else if w.toNat % 256 = 1 then .instr .build
    else if w.toNat % 256 = 2 then .instr .encode
    else if w.toNat % 256 = 3 then .instr .rebuild
    else if w.toNat % 256 = 4 then .instr .decode
    else if w.toNat % 256 = 5 then .instr .clear
    else .illegal w

/-- Decoding gives back every encoded command, and a word that decodes to a command is the encoding of that command: each
command has exactly one word (30_encoding.md R92, mask 0xFFFFFFFF). -/
def Obligations.DecodeAndEncodeAgree : Prop :=
  (∀ i : Instr, i.wellFormed = true → decode (encode i) = .instr i ∧ decodeTableWord 32 (encode i).toNat = some i) ∧
    ∀ (w : Word) (i : Instr), decode w = .instr i → w = encode i

/-- When the next thing the host does is a CMD write of a word that decodes to `i`, the step is `exec i` on the state without
that transaction, and the CMD write gets OKAY (10_state.md R31; 60_exceptions.md R213). -/
def Obligations.StepRunsTheDecodedCommand : Prop :=
  ∀ (s : State) (w : Word) (i : Instr) (rest : List HostEvent), s.inputs = .write cmdAddr w :: rest → decode w = .instr i →
    (∀ t, exec i { s with inputs := rest } = .next t → step s = .next { t with resp := some (.write .okay) }) ∧
    (∀ r, exec i { s with inputs := rest } = .fault r → step s = .fault r) ∧
    (∀ r, exec i { s with inputs := rest } = .refused r → step s = .refused r)

/-- A word placed by `withFetchWord` is the next command the step runs (log 1). -/
def Obligations.PlacedWordRunsNext : Prop :=
  ∀ (s t : State) (i : Instr), exec i s = .next t →
    step (s.withFetchWord 32 (encode i).toNat) = .next { t with resp := some (.write .okay) }

/-- A CMD write of any word but the six ends at once with IllegalCommandError and changes nothing else
(30_encoding.md R93; 60_exceptions.md R223). -/
def Obligations.IllegalWordOnlyReportsTheError : Prop :=
  ∀ (s : State) (w : Word) (rest : List HostEvent), s.inputs = .write cmdAddr w :: rest →
    (w.toNat / 256 ≠ 0 ∨ 0x06 ≤ w.toNat % 256) →
    step s = .next { s with inputs := rest, err := 8, errInfo := w, resp := some (.write .okay) }

/-- Every step completes: with no event waiting nothing changes (the model's idle step, log 1), and every transaction is taken
off the queue and gets a response of its kind (00_scope.md R7; 20_memory.md R60). -/
def Obligations.EveryTransactionGetsAResponse : Prop :=
  ∀ s : State, (s.inputs = [] → step s = .next s) ∧
    ∀ (e : HostEvent) (rest : List HostEvent), s.inputs = e :: rest → ∃ t, step s = .next t ∧ t.inputs = rest ∧
      (∀ addr, e = .read addr → ∃ r d, t.resp = some (.read r d)) ∧
      (∀ addr w, e = .write addr w → ∃ r, t.resp = some (.write r))

/-- Running the machine once per waiting event performs the events in the order they were issued, whatever comes after them
(20_memory.md R60, R73). -/
def Obligations.EventsTakeEffectInOrder : Prop :=
  ∀ (es rest : List HostEvent) (s : State),
    core.run es.length ({ s with inputs := es ++ rest } : State) = State.performAll { s with inputs := rest } es

/-! ### Reset -/

/-- The values reset leaves, where the spec gives one (10_state.md R48; 70_reset_and_hazards.md R240). -/
def Obligations.ResetLeavesTheSpecifiedValues : Prop :=
  State.reset.err = 0 ∧ State.reset.treeValid = false ∧ State.reset.errInfo = 0 ∧ State.reset.ilen = 0 ∧
    State.reset.olen = 0 ∧ State.reset.pad = 0 ∧ (∀ sym, State.reset.freqAt sym = 0) ∧ (∀ sym, State.reset.ctLenAt sym = 0) ∧
    State.reset.readWord 0x000000#22 = some 0x48554631#32

/-- A reset between two transactions brings any state to the specified values, and what the host does afterwards is still to
come (70_reset_and_hazards.md R241; the queue is the model's, log 1). -/
def Obligations.ResetEventRestoresTheSpecifiedValues : Prop :=
  ∀ (s : State) (rest : List HostEvent), s.inputs = .reset :: rest → ∃ t, step s = .next t ∧ t.inputs = rest ∧
    t.err = 0 ∧ t.treeValid = false ∧ t.errInfo = 0 ∧ t.ilen = 0 ∧ t.olen = 0 ∧ t.pad = 0 ∧
    (∀ sym, t.freqAt sym = 0) ∧ (∀ sym, t.ctLenAt sym = 0)

/-! ### The host port -/

/-- An aligned read inside a region returns OKAY and the region's word and changes no state (20_memory.md R61). -/
def Obligations.AlignedMappedReadChangesNothing : Prop :=
  ∀ (s : State) (addr : HostAddr) (rest : List HostEvent), s.inputs = .read addr :: rest → addr.toNat % 4 = 0 →
    Mapped addr.toNat → ∃ w, s.readWord addr = some w ∧
      step s = .next { s with inputs := rest, resp := some (.read .okay w) }

/-- Misaligned, unmapped and read-only transactions get ERROR and change nothing, and a read of CMD is no error
(20_memory.md R64). The counter `free.bus` is the model's own: it selects the unspecified data (log 5). -/
def Obligations.ErrorTransactionsChangeNothing : Prop :=
  ∀ (s : State) (addr : HostAddr) (w : Word) (rest : List HostEvent),
    (s.inputs = .read addr :: rest → (addr.toNat % 4 ≠ 0 ∨ ¬ Mapped addr.toNat) →
      ∃ d, step s = .next { s with
        inputs := rest
        resp := some (.read .error d)
        free := { s.free with bus := s.free.bus + 1 } }) ∧
    (s.inputs = .write addr w :: rest → (addr.toNat % 4 ≠ 0 ∨ ¬ Writable addr.toNat) →
      step s = .next { s with inputs := rest, resp := some (.write .error) }) ∧
    (s.inputs = .read cmdAddr :: rest → step s = .next { s with inputs := rest, resp := some (.read .okay 0) })

/-- What each region reads as (20_memory.md R66, R68; 10_state.md R30 to R41), and that nothing else can be read. -/
def Obligations.ReadsReturnTheMappedWords : Prop :=
  ∀ s : State,
    s.readWord 0x000000#22 = some 0x48554631#32 ∧
    s.readWord 0x000004#22 = some 0 ∧
    (∃ w, s.readWord 0x000008#22 = some w ∧ w.toNat = s.err.toNat + 16 * s.treeValid.toNat) ∧
    s.readWord 0x00000C#22 = some s.errInfo ∧
    s.readWord 0x000010#22 = some s.ilen ∧
    s.readWord 0x000014#22 = some s.olen ∧
    s.readWord 0x000018#22 = some s.pad ∧
    (∀ sym, s.readWord (hostAddr (0x000400 + 4 * sym.toNat)) = some (s.freqAt sym)) ∧
    (∀ sym, ∃ w, s.readWord (hostAddr (0x000800 + 4 * sym.toNat)) = some w ∧ w.toNat = (s.ctLenAt sym).toNat) ∧
    (∀ sym w, w < 8 → s.readWord (hostAddr (0x002000 + 32 * sym.toNat + 4 * w)) = some (s.ctValWordAt sym w)) ∧
    (∀ k, k < 16384 → s.readWord (hostAddr (0x010000 + 4 * k)) =
      some (s.ibufAt (4 * k + 3) ++ s.ibufAt (4 * k + 2) ++ s.ibufAt (4 * k + 1) ++ s.ibufAt (4 * k))) ∧
    (∀ k, k < 524288 → s.readWord (hostAddr (0x200000 + 4 * k)) =
      some (s.obufAt (4 * k + 3) ++ s.obufAt (4 * k + 2) ++ s.obufAt (4 * k + 1) ++ s.obufAt (4 * k))) ∧
    ∀ addr : HostAddr, s.readWord addr = none ↔ (addr.toNat % 4 ≠ 0 ∨ ¬ Mapped addr.toNat)

/-- A write to a writable word other than CMD gets OKAY; the word then reads as written (of a CT_LEN word bits 7:0), every
other readable word but STATUS reads as before, ERR keeps its value, and TREE_VALID is cleared exactly when the word is in a
CT window (20_memory.md R62, R73; 10_state.md R37, R39).
That `RN`, `RL` and `RROOT` stay after a write in a CT window, and `BN` and `WL` after any, is the model's choice (log 15). -/
def Obligations.WriteStoresOneWordAndNothingElse : Prop :=
  ∀ (s : State) (addr : HostAddr) (w : Word) (rest : List HostEvent), s.inputs = .write addr w :: rest →
    addr.toNat % 4 = 0 → Writable addr.toNat → addr ≠ cmdAddr →
    ∃ t, step s = .next t ∧ t.inputs = rest ∧ t.resp = some (.write .okay) ∧
      t.readWord addr = some (if 0x000800 ≤ addr.toNat ∧ addr.toNat < 0x000C00 then w &&& 0xFF#32 else w) ∧
      (∀ other : HostAddr, other ≠ addr → other ≠ 0x000008#22 → t.readWord other = s.readWord other) ∧
      t.err = s.err ∧ t.tree = s.tree ∧ t.build = s.build ∧
      (InCtWindow addr.toNat → t.treeValid = false) ∧ (¬ InCtWindow addr.toNat → t.treeValid = s.treeValid)

/-- Every OKAY write to a CT word drops the tree whatever is written, and a read of CT changes nothing but the response
(10_state.md R39). -/
def Obligations.CtWriteDropsTheTree : Prop :=
  ∀ (s : State) (addr : HostAddr) (w : Word) (rest : List HostEvent), addr.toNat % 4 = 0 → InCtWindow addr.toNat →
    (s.inputs = .write addr w :: rest → ∃ t, step s = .next t ∧ t.resp = some (.write .okay) ∧ t.treeValid = false) ∧
    (s.inputs = .read addr :: rest → ∃ d, step s = .next { s with inputs := rest, resp := some (.read .okay d) })

/-- Byte lanes are little-endian: a word written to IBUF word `k` gives byte `4k+j` its bits `8j+7 : 8j`
(20_memory.md R68, R69). The spec marks R69 as derived. -/
def Obligations.IbufWordLanesAreLittleEndian : Prop :=
  ∀ (s : State) (k : Nat) (w : Word) (rest : List HostEvent), k < 16384 →
    s.inputs = .write (hostAddr (0x010000 + 4 * k)) w :: rest →
    ∃ t, step s = .next t ∧ (∀ j, j < 4 → (t.ibufAt (4 * k + j)).toNat = w.toNat / 256 ^ j % 256) ∧
      ∀ i, i / 4 ≠ k → t.ibufAt i = s.ibufAt i

/-- The nine writes of `SETCODE` give the symbol exactly that code, leave every other code alone and drop the tree
(30_encoding.md R98; 10_state.md R38, R39). -/
def Obligations.SetCodeLoadsTheCode : Prop :=
  ∀ (s : State) (sym : Byte) (bits : Bits), (ScriptLine.setCode sym bits).wellFormed = true →
    ∃ t, s.performAll ((ScriptLine.setCode sym bits).expand s) = .next t ∧ t.code sym = bits ∧ t.treeValid = false ∧
      (∀ other, other ≠ sym → t.code other = s.code other) ∧ t.freq = s.freq ∧ t.ilen = s.ilen ∧ t.olen = s.olen ∧
      t.pad = s.pad ∧ t.err = s.err ∧ ∀ i, t.ibufAt i = s.ibufAt i

/-- `LDIBUF` puts the bytes at the start of IBUF and their number into ILEN (30_encoding.md R98). -/
def Obligations.LoadIbufLoadsTheBytes : Prop :=
  ∀ (s : State) (bytes : List Byte), (ScriptLine.ldIbuf bytes).wellFormed = true →
    ∃ t, s.performAll ((ScriptLine.ldIbuf bytes).expand s) = .next t ∧ t.ilen.toNat = bytes.length ∧
      (∀ i b, bytes[i]? = some b → t.ibufAt i = b) ∧ SameTable s t ∧ SameTree s t ∧ t.pad = s.pad ∧ t.olen = s.olen

/-- `MOVOI` moves the last output to the input buffer when it fits: ILEN gets OLEN, the bytes below it are copied, PAD, the
table and the tree stay (30_encoding.md R98; 70_reset_and_hazards.md R251). -/
def Obligations.MoveOutputToInput : Prop :=
  ∀ s : State, ScriptLine.movoi.legalAt s = true →
    ∃ t, s.performAll (ScriptLine.movoi.expand s) = .next t ∧ OutputMoved s t

/-! ### NOP and CLEAR -/

/-- NOP clears the error field and ERRINFO and changes nothing else (44_system.md R200). -/
def Obligations.NopClearsTheErrorOnly : Prop :=
  ∀ s : State, exec .nop s = .next { s with err := 0, errInfo := 0 }

/-- CLEAR: every register, count and length 0, tree dropped, CT_VAL and IBUF as they were (44_system.md R202). The queue
keeps its events. That `BN`, `WL`, `RN`, `RL` and `RROOT` stay, where 10_state.md R48 leaves them unspecified, is the model's
choice (log 15). -/
def Obligations.ClearRestoresTheResetValues : Prop :=
  ∀ s : State, ∃ t, exec .clear s = .next t ∧ t.err = 0 ∧ t.errInfo = 0 ∧ t.treeValid = false ∧ t.ilen = 0 ∧ t.olen = 0 ∧
    t.pad = 0 ∧ (∀ sym, t.freqAt sym = 0) ∧ (∀ sym, t.ctLenAt sym = 0) ∧ t.ctVal = s.ctVal ∧ t.ibuf = s.ibuf ∧
    (∀ i, t.ibufAt i = s.ibufAt i) ∧ (∀ a, 0x002000 ≤ a ∧ a < 0x200000 → t.byteAt a = s.byteAt a) ∧
    t.build = s.build ∧ t.tree = s.tree ∧ t.inputs = s.inputs ∧ t.resp = s.resp ∧
    t.readWord 0x000000#22 = some 0x48554631#32

/-! ### BUILD -/

/-- BUILD cannot fail; it writes the code table and the build scratch, clears ERR, ERRINFO and TREE_VALID, and leaves the rest
(40_build.md R110). That `RL` stays is the model's choice (log 15). -/
def Obligations.BuildSucceedsAndLeavesTheRest : Prop :=
  ∀ s : State, ∃ t, exec .build s = .next t ∧ t.err = 0 ∧ t.errInfo = 0 ∧ t.treeValid = false ∧ SameOutside s t ∧
    SameOutput s t ∧ t.pad = s.pad ∧ t.tree = s.tree

/-- Empty map: no entry, every value zero, no error (40_build.md R112).
That `BN` and `WL` stay is the model's choice (log 15). -/
def Obligations.BuildOfTheEmptyMap : Prop :=
  ∀ s : State, (∀ sym, s.freqAt sym = 0) →
    ∃ t, exec .build s = .next t ∧ t.err = 0 ∧ t.build = s.build ∧
      ∀ sym, t.ctLenAt sym = 0 ∧ ∀ w, w < 8 → t.ctValWordAt sym w = 0

/-- Single symbol: the code "0", every other entry absent, whatever the count (40_build.md R113).
That `BN` and `WL` stay is the model's choice (log 15). -/
def Obligations.BuildOfASingleSymbol : Prop :=
  ∀ (s : State) (v : Byte), s.freqAt v ≠ 0 → (∀ sym, sym ≠ v → s.freqAt sym = 0) →
    ∃ t, exec .build s = .next t ∧ t.err = 0 ∧ t.build = s.build ∧ t.code v = [false] ∧
      (∀ sym, sym ≠ v → t.ctLenAt sym = 0) ∧ ∀ sym w, w < 8 → t.ctValWordAt sym w = 0

/-- Two symbols: the larger count gets "0", on equal counts the smaller symbol (40_build.md R127 c).
The spec marks R127 as derived. -/
def Obligations.BuildOfTwoSymbols : Prop :=
  ∀ (s : State) (a b : Byte), a.toNat < b.toNat → s.freqAt a ≠ 0 → s.freqAt b ≠ 0 →
    (∀ sym, sym ≠ a → sym ≠ b → s.freqAt sym = 0) →
    ∃ t, exec .build s = .next t ∧
      ((s.freqAt b).toNat ≤ (s.freqAt a).toNat → t.code a = [false] ∧ t.code b = [true]) ∧
      ((s.freqAt a).toNat < (s.freqAt b).toNat → t.code b = [false] ∧ t.code a = [true]) ∧
      ∀ sym, sym ≠ a → sym ≠ b → t.ctLenAt sym = 0

/-- The initial working list holds each index once, heavier before lighter, equal weights by ascending index
(40_build.md R116). -/
def Obligations.InitialOrderIsDescendingAndStable : Prop :=
  ∀ (bn : List BuildNode) (n : Nat), (initialOrder bn n).Perm (List.range n) ∧
    (initialOrder bn n).Pairwise fun i j =>
      (weightAt bn j).toNat < (weightAt bn i).toNat ∨ ((weightAt bn i).toNat = (weightAt bn j).toNat ∧ i < j)

/-- One merge step on a descending list: the last two elements are taken, the last becomes the right child, the new node has the
sum of their weights and stands after every node at least as heavy and before every lighter one, so that the list stays
descending (40_build.md R117, R118, R119). -/
def Obligations.MergeStepKeepsTheListDescending : Prop :=
  ∀ (b : BuildStore) (pre : List Nat) (l r : Nat), b.wl = pre ++ [l, r] → (∀ i ∈ b.wl, i < b.bn.length) →
    (b.wl.Pairwise fun i j => weightAt b.bn j ≤ weightAt b.bn i) →
    (mergeStep b).bn = b.bn ++ [.internal l r (weightAt b.bn l + weightAt b.bn r)] ∧
    ((mergeStep b).wl.Pairwise fun i j => weightAt (mergeStep b).bn j ≤ weightAt (mergeStep b).bn i) ∧
    ∃ x y, pre = x ++ y ∧ (mergeStep b).wl = x ++ b.bn.length :: y ∧
      (∀ i ∈ x, weightAt b.bn l + weightAt b.bn r ≤ weightAt b.bn i) ∧
      ∀ i ∈ y, weightAt b.bn i < weightAt b.bn l + weightAt b.bn r

/-- With `n >= 2` present symbols the arena ends with `2n-1` nodes, at most 511, the root is the last one, every internal node
points at earlier nodes and weighs the sum of its children without overflow, and the root weighs the sum of all counts
(40_build.md R118, R119, R120; 00_scope.md R16). The spec marks R120 as derived. -/
def Obligations.BuildArenaHasAllMerges : Prop :=
  ∀ s : State, 2 ≤ (presentSymbols s.freq).length → ∃ t, exec .build s = .next t ∧
    t.build.bn.length = 2 * (presentSymbols s.freq).length - 1 ∧ t.build.bn.length ≤ 511 ∧
    t.build.wl = [2 * (presentSymbols s.freq).length - 2] ∧
    (∀ i l r w, t.build.bn[i]? = some (.internal l r w) →
      l < i ∧ r < i ∧ w.toNat = (weightAt t.build.bn l).toNat + (weightAt t.build.bn r).toNat) ∧
    (weightAt t.build.bn (2 * (presentSymbols s.freq).length - 2)).toNat =
      ((presentSymbols s.freq).map fun sym => (s.freqAt sym).toNat).sum

/-- After BUILD a symbol has an entry exactly when its count is not 0 (10_state.md R46 (1); 40_build.md R126 (a)).
The spec marks R126 as derived. -/
def Obligations.BuildCoversExactlyThePresentSymbols : Prop :=
  ∀ s : State, ∃ t, exec .build s = .next t ∧ ∀ sym, t.ctLenAt sym ≠ 0 ↔ s.freqAt sym ≠ 0

/-- With `n >= 2` present symbols the table is prefix-free and every code has 1 to `n-1` bits (40_build.md R126 (b), (d)).
The spec marks R126 as derived. -/
def Obligations.BuildTableIsPrefixFree : Prop :=
  ∀ s : State, 2 ≤ (presentSymbols s.freq).length → ∃ t, exec .build s = .next t ∧ PrefixFree t.codeTable ∧
    ∀ e ∈ t.codeTable, 1 ≤ e.2.length ∧ e.2.length ≤ (presentSymbols s.freq).length - 1

/-- With `n >= 2` present symbols the table is complete (40_build.md R126 (c), in the sense of 00_scope.md R18).
The spec marks R126 as derived. -/
def Obligations.BuildTableIsComplete : Prop :=
  ∀ s : State, 2 ≤ (presentSymbols s.freq).length → ∃ t, exec .build s = .next t ∧ CompleteTable t.codeTable

/-- After BUILD every bit of CT_VAL above a code is 0 (40_build.md R124; 10_state.md R38). -/
def Obligations.BuildZeroesTheBitsAboveTheCode : Prop :=
  ∀ s : State, ∃ t, exec .build s = .next t ∧ ∀ sym i, (t.ctLenAt sym).toNat ≤ i → t.ctValBit sym i = false

/-- The table BUILD makes depends on FREQ alone (40_build.md R121). -/
def Obligations.BuildTableDependsOnFreqOnly : Prop :=
  ∀ s s' : State, s.freq = s'.freq → ∃ t t', exec .build s = .next t ∧ exec .build s' = .next t' ∧
    t.ctLen = t'.ctLen ∧ t.ctVal = t'.ctVal

/-- REBUILD succeeds on every table BUILD makes, and with two or more symbols its tree is the tree BUILD made: the two
constructions agree on every leaf's code (40_build.md R126 (e); 42_rebuild.md R172). The spec marks R126 and R172 as derived. -/
def Obligations.RebuildAfterBuildGivesTheSameTree : Prop :=
  ∀ s : State, ∃ t u, exec .build s = .next t ∧ exec .rebuild t = .next u ∧ u.err = 0 ∧ u.treeValid = true ∧
    (2 ≤ (presentSymbols s.freq).length →
      ∃ tr, u.tree.codeTree = some tr ∧
        treeOfBn t.build.bn t.build.bn.length (2 * (presentSymbols s.freq).length - 2) = some tr)

/-! ### ENCODE -/

/-- The two tests before any data byte: a length beyond IBUF first, then a non-empty payload against an empty table; each leaves
OLEN = PAD = 0 and nothing else changed (41_encode.md R142, R147). -/
def Obligations.EncodeChecksLengthThenEmptyTable : Prop :=
  ∀ s : State,
    (65536 < s.ilen.toNat → ∃ t, exec .encode s = .next t ∧ FailedEncode s t 9 0) ∧
    (s.ilen.toNat ≤ 65536 → (∀ sym, s.ctLenAt sym = 0) → s.ilen ≠ 0 →
      ∃ t, exec .encode s = .next t ∧ FailedEncode s t 1 0) ∧
    (s.ilen = 0 → ∃ t, exec .encode s = .next t ∧ t.err = 0 ∧ t.olen = 0 ∧ t.pad = 0)

/-- The first byte without an entry, at the smallest such index, ends ENCODE with UnknownSymbolError and is reported with its
position (60_exceptions.md R216; 10_state.md R33; 41_encode.md R147). -/
def Obligations.EncodeReportsTheFirstUnknownSymbol : Prop :=
  ∀ (s : State) (i : Nat), s.ilen.toNat ≤ 65536 → i < s.ilen.toNat → (∃ sym, s.ctLenAt sym ≠ 0) →
    s.ctLenAt (s.ibufAt i) = 0 → (∀ j, j < i → s.ctLenAt (s.ibufAt j) ≠ 0) →
    ∃ t, exec .encode s = .next t ∧ FailedEncode s t 2 (BitVec.ofNat 32 (256 * i + (s.ibufAt i).toNat))

/-- The result of ENCODE when every data byte has an entry: OLEN and PAD from the length of the stream, stream bit `k` at bit
`7 - (k mod 8)` of OBUF[k div 8], padding bits 0 (41_encode.md R143 to R146; 20_memory.md R67).
The spec marks R146 as derived. -/
def Obligations.EncodePacksTheCodes : Prop :=
  ∀ s : State, EncodeAllowed s → ∃ t, exec .encode s = .next t ∧ t.err = 0 ∧ t.errInfo = 0 ∧
    t.olen.toNat = (s.stream.length + 7) / 8 ∧ t.pad.toNat ≤ 7 ∧ 8 * t.olen.toNat = s.stream.length + t.pad.toNat ∧
    ∀ k, k < 8 * t.olen.toNat → (t.obufAt (k / 8)).getLsbD (7 - k % 8) = s.stream.getD k false

/-- The bit-length identity: eight times the packed length less the padding is the sum of the code lengths
(41_encode.md R146). The spec marks R146 as derived. -/
def Obligations.EncodeBitLengthIdentity : Prop :=
  ∀ s : State, EncodeAllowed s → ∃ t, exec .encode s = .next t ∧
    8 * t.olen.toNat - t.pad.toNat = ((List.range s.ilen.toNat).map fun i => (s.ctLenAt (s.ibufAt i)).toNat).sum

/-- Whatever its outcome, ENCODE leaves the inputs, the table, the tree and every byte outside OBUF and its registers
(41_encode.md R140, R147). That `BN` and `WL` stay is the model's choice (log 15). -/
def Obligations.EncodeLeavesTheRest : Prop :=
  ∀ s : State, ∃ t, exec .encode s = .next t ∧ SameOutside s t ∧ SameTable s t ∧ SameTree s t ∧ t.build = s.build

/-- ENCODE reads nothing but ILEN, the codes (not the bits above them) and IBUF below ILEN: two states that agree on these give
the same result (41_encode.md R140, R149 (i), (j)). The spec marks R149 as derived. -/
def Obligations.EncodeDependsOnItsOperandsOnly : Prop :=
  ∀ s s' : State, s.ilen = s'.ilen → (∀ sym, s.code sym = s'.code sym) →
    (∀ i, i < s.ilen.toNat → s.ibufAt i = s'.ibufAt i) →
    ∃ t t', exec .encode s = .next t ∧ exec .encode s' = .next t' ∧ t.err = t'.err ∧ t.errInfo = t'.errInfo ∧
      t.olen = t'.olen ∧ t.pad = t'.pad ∧ ∀ k, k < t.olen.toNat → t.obufAt k = t'.obufAt k

/-- Neither ENCODE nor DECODE can overrun OBUF: at most 2088960 and 524288 output bytes (00_scope.md R17 (b), (c)).
The spec marks R17 as derived. -/
def Obligations.OutputsFitTheBuffer : Prop :=
  ∀ s : State, ∃ t u, exec .encode s = .next t ∧ exec .decode s = .next u ∧ t.olen.toNat ≤ 2088960 ∧ u.olen.toNat ≤ 524288

/-! ### REBUILD -/

/-- The empty table: RROOT becomes NIL, no node is written, success (42_rebuild.md R162).
That `RN` and `RL` stay as they were is read from "writes no node" (log 8). -/
def Obligations.RebuildOfTheEmptyTable : Prop :=
  ∀ s : State, (∀ sym, s.ctLenAt sym = 0) →
    exec .rebuild s = .next { s with tree := { s.tree with rroot := none }, treeValid := true, err := 0, errInfo := 0 }

/-- A lone code: one bit gives the two-leaf tree with the placeholder on the other side, any other length
MalformedCodeTableError (42_rebuild.md R165). -/
def Obligations.RebuildOfALoneCode : Prop :=
  ∀ (s : State) (v : Byte), s.ctLenAt v ≠ 0 → (∀ sym, sym ≠ v → s.ctLenAt sym = 0) → ∃ t, exec .rebuild s = .next t ∧
    (s.code v = [false] → t.err = 0 ∧ t.treeValid = true ∧ t.tree.codeTree = some (.node (.leaf v) .phold)) ∧
    (s.code v = [true] → t.err = 0 ∧ t.treeValid = true ∧ t.tree.codeTree = some (.node .phold (.leaf v))) ∧
    ((s.code v).length ≠ 1 → t.err = 3 ∧ t.treeValid = false)

/-- REBUILD succeeds exactly when the table is empty, one entry of length 1, or complete; on every other table it ends with
MalformedCodeTableError (42_rebuild.md R172). The spec marks R172 as derived. -/
def Obligations.RebuildSucceedsExactlyOnCompleteTables : Prop :=
  ∀ s : State, ∃ t, exec .rebuild s = .next t ∧
    (Rebuildable s.codeTable → t.err = 0 ∧ t.treeValid = true) ∧
    (¬ Rebuildable s.codeTable → t.err = 3 ∧ t.treeValid = false)

/-- When REBUILD succeeds on two or more entries, its tree has no placeholder and its leaves are exactly the entries of the
table (42_rebuild.md R172). The spec marks R172 as derived. -/
def Obligations.RebuiltTreeHasExactlyTheTableCodes : Prop :=
  ∀ s : State, 2 ≤ s.codeTable.length → CompleteTable s.codeTable → ∃ t tr, exec .rebuild s = .next t ∧ t.err = 0 ∧
    t.tree.codeTree = some tr ∧ tr.hasPhold = false ∧ ∀ e, e ∈ tr.leaves ↔ e ∈ s.codeTable

/-- The number of nodes after a successful REBUILD: 3 in the degenerate case, `2m - 1` for `m >= 2` entries, at most 511, and
RROOT the last one (42_rebuild.md R173, R164). The spec marks R173 as derived. -/
def Obligations.RebuiltArenaSize : Prop :=
  ∀ s : State, Rebuildable s.codeTable → s.codeTable ≠ [] → ∃ t, exec .rebuild s = .next t ∧
    t.tree.rn.length = (if s.codeTable.length = 1 then 3 else 2 * s.codeTable.length - 1) ∧ t.tree.rn.length ≤ 511 ∧
    t.tree.rroot = some (t.tree.rn.length - 1)

/-- REBUILD ends with success and a valid tree or with code 3 and none; ERRINFO is 0; the table, the buffers and the registers
stay (42_rebuild.md R160, R174). That `BN` and `WL` stay is the model's choice (log 15). -/
def Obligations.RebuildLeavesTheRest : Prop :=
  ∀ s : State, ∃ t, exec .rebuild s = .next t ∧
    ((t.err = 0 ∧ t.treeValid = true) ∨ (t.err = 3 ∧ t.treeValid = false)) ∧ t.errInfo = 0 ∧ SameOutside s t ∧
    SameTable s t ∧ SameOutput s t ∧ t.pad = s.pad ∧ t.build = s.build

/-- REBUILD reads nothing but the codes: two states with the same codes give the same status and the same tree
(42_rebuild.md R176 (k), (l)). The spec marks R176 as derived. -/
def Obligations.RebuildDependsOnTheCodesOnly : Prop :=
  ∀ s s' : State, (∀ sym, s.code sym = s'.code sym) → ∃ t t', exec .rebuild s = .next t ∧ exec .rebuild s' = .next t' ∧
    t.err = t'.err ∧ t.treeValid = t'.treeValid ∧ (t.treeValid = true → t.tree.codeTree = t'.tree.codeTree)

/-! ### DECODE -/

/-- The tests before the walk, in their order: length, valid tree, padding range, non-empty payload against the empty tree; and
the empty tree with no payload succeeds (43_decode.md R182, R183, R184).
That `BN` and `WL` stay is the model's choice (log 15). -/
def Obligations.DecodeChecksBeforeTheWalk : Prop :=
  ∀ s : State,
    (65536 < s.ilen.toNat → ∃ t, exec .decode s = .next t ∧ FailedDecode s t 9) ∧
    (s.ilen.toNat ≤ 65536 → s.treeValid = false → ∃ t, exec .decode s = .next t ∧ FailedDecode s t 7) ∧
    (s.ilen.toNat ≤ 65536 → s.treeValid = true → (7 < s.pad.toNat ∨ 8 * s.ilen.toNat < s.pad.toNat) →
      ∃ t, exec .decode s = .next t ∧ FailedDecode s t 4) ∧
    (DecodeAllowed s → s.tree.rroot = none → s.ilen ≠ 0 → ∃ t, exec .decode s = .next t ∧ FailedDecode s t 1) ∧
    (DecodeAllowed s → s.tree.rroot = none → s.ilen = 0 →
      ∃ t, exec .decode s = .next t ∧ t.err = 0 ∧ t.errInfo = 0 ∧ t.olen = 0)

/-- When the content bits are the codes of a sequence of leaves, DECODE succeeds and emits their symbols in order
(43_decode.md R186, R189). The spec marks R189 as derived. -/
def Obligations.DecodeEmitsTheSymbolsOfTheCodes : Prop :=
  ∀ (s : State) (l r : CodeTree) (es : List (Byte × Bits)), DecodeAllowed s → s.tree.codeTree = some (.node l r) →
    (∀ e ∈ es, e ∈ (CodeTree.node l r).leaves) → s.contentBits = streamOf es →
    ∃ t, exec .decode s = .next t ∧ t.err = 0 ∧ t.errInfo = 0 ∧ t.olen.toNat = es.length ∧
      ∀ j e, es[j]? = some e → t.obufAt j = e.1

/-- When the content bits end inside a code, DECODE ends with TruncatedStreamError (43_decode.md R188, R190;
60_exceptions.md R220). That `BN` and `WL` stay is the model's choice (log 15). -/
def Obligations.DecodeReportsATruncatedStream : Prop :=
  ∀ (s : State) (l r : CodeTree) (es : List (Byte × Bits)) (sym : Byte) (p q : Bits), DecodeAllowed s →
    s.tree.codeTree = some (.node l r) → (∀ e ∈ es, e ∈ (CodeTree.node l r).leaves) →
    (sym, p ++ q) ∈ (CodeTree.node l r).leaves → p ≠ [] → q ≠ [] → s.contentBits = streamOf es ++ p →
    ∃ t, exec .decode s = .next t ∧ FailedDecode s t 5

/-- When the walk steps onto the placeholder, DECODE ends at once with InvalidCodewordError, whatever bits follow
(43_decode.md R187, R190; 60_exceptions.md R221). That `BN` and `WL` stay is the model's choice (log 15). -/
def Obligations.DecodeReportsThePlaceholder : Prop :=
  ∀ (s : State) (l r : CodeTree) (es : List (Byte × Bits)) (p rest : Bits), DecodeAllowed s →
    s.tree.codeTree = some (.node l r) → (∀ e ∈ es, e ∈ (CodeTree.node l r).leaves) →
    p ∈ (CodeTree.node l r).pholdPaths → s.contentBits = streamOf es ++ p ++ rest →
    ∃ t, exec .decode s = .next t ∧ FailedDecode s t 6

/-- Whatever its outcome, DECODE leaves PAD, the inputs, the table and the tree, and ERRINFO is 0 (43_decode.md R180, R190).
That `BN` and `WL` stay is the model's choice (log 15). -/
def Obligations.DecodeLeavesTheRest : Prop :=
  ∀ s : State, ∃ t, exec .decode s = .next t ∧ t.errInfo = 0 ∧ SameOutside s t ∧ SameTable s t ∧ SameTree s t ∧
    t.pad = s.pad ∧ t.build = s.build

/-- DECODE does not read the padding bits, the table or the counts: two states that agree on ILEN, PAD, the tree and the content
bits give the same result (43_decode.md R180, R191, R193 (k)). The spec marks R193 as derived. -/
def Obligations.DecodeDependsOnContentBitsOnly : Prop :=
  ∀ s s' : State, s.ilen = s'.ilen → s.pad = s'.pad → s.treeValid = s'.treeValid → s.tree = s'.tree →
    (∀ k, k < s.contentLength → s.contentBit k = s'.contentBit k) →
    ∃ t t', exec .decode s = .next t ∧ exec .decode s' = .next t' ∧ t.err = t'.err ∧ t.olen = t'.olen ∧
      ∀ k, k < t.olen.toNat → t.obufAt k = t'.obufAt k

/-! ### The round trip and the invariant -/

/-- The round-trip law, with REBUILD before or after ENCODE (43_decode.md R192). The spec marks R192 as derived. -/
def Obligations.EncodeThenDecodeGivesTheData : Prop :=
  ∀ s r : State, exec .rebuild s = .next r → r.err = 0 → EncodeAllowed s →
    (∃ e, exec .encode r = .next e ∧ e.err = 0 ∧ (e.olen.toNat ≤ 65536 → ∀ m, OutputMoved e m →
      ∃ d, exec .decode m = .next d ∧ d.err = 0 ∧ d.olen = s.ilen ∧ ∀ i, i < s.ilen.toNat → d.obufAt i = s.ibufAt i)) ∧
    (∃ e, exec .encode s = .next e ∧ e.err = 0 ∧ (e.olen.toNat ≤ 65536 → ∀ m, OutputMoved e m →
      ∃ q d, exec .rebuild m = .next q ∧ q.err = 0 ∧ exec .decode q = .next d ∧ d.err = 0 ∧ d.olen = s.ilen ∧
        ∀ i, i < s.ilen.toNat → d.obufAt i = s.ibufAt i))

/-- A whole session on one core: BUILD, ENCODE, REBUILD, `MOVOI`, DECODE give back the data, for at most 2056 bytes whose counts
are not 0 (43_decode.md R192; 70_reset_and_hazards.md R246, R254, R257). The spec marks R192 and R246 as derived. -/
def Obligations.WholeSessionGivesBackTheData : Prop :=
  ∀ s : State, s.ilen.toNat ≤ 2056 → (∀ i, i < s.ilen.toNat → s.freqAt (s.ibufAt i) ≠ 0) →
    ∃ b e r m d, exec .build s = .next b ∧ exec .encode b = .next e ∧ exec .rebuild e = .next r ∧
      r.performAll (ScriptLine.movoi.expand r) = .next m ∧ exec .decode m = .next d ∧ d.err = 0 ∧ d.olen = s.ilen ∧
      ∀ i, i < s.ilen.toNat → d.obufAt i = s.ibufAt i

/-- TREE_VALID goes from 0 to 1 in one way only: a CMD write of REBUILD that succeeds (10_state.md R26). -/
def Obligations.OnlyRebuildMakesTheTreeValid : Prop :=
  ∀ s t : State, step s = .next t → s.treeValid = false → t.treeValid = true →
    t.err = 0 ∧ ∃ rest, s.inputs = .write cmdAddr (encode .rebuild) :: rest

/-- The invariant holds after reset. -/
def Obligations.ResetMeetsTheInvariant : Prop :=
  State.reset.Inv

/-- Every step keeps the invariant: error codes up to 9, canonical buffers, OBUF known exactly below OLEN, arenas
within the bits of the hardware, and a valid tree is the one REBUILD makes from the table CT holds now (10_state.md R22, R32, R41,
R42, R43; 42_rebuild.md R163; 60_exceptions.md R211). -/
def Obligations.EveryStepKeepsTheInvariant : Prop :=
  ∀ s t : State, s.Inv → step s = .next t → t.Inv
end

