-- ==== Sys2Proof/Laws/State.lean ====
section
/-! SUPPORT. What each update of the state does to each field, by definition, so that no proof unfolds an update. -/

namespace Sys2Proof.Machine

/-! ### `State.succeed` -/

@[simp] theorem State.succeed_err (s : State) : s.succeed.err = 0 := rfl
@[simp] theorem State.succeed_treeValid (s : State) : s.succeed.treeValid = s.treeValid := rfl
@[simp] theorem State.succeed_errInfo (s : State) : s.succeed.errInfo = 0 := rfl
@[simp] theorem State.succeed_ilen (s : State) : s.succeed.ilen = s.ilen := rfl
@[simp] theorem State.succeed_olen (s : State) : s.succeed.olen = s.olen := rfl
@[simp] theorem State.succeed_pad (s : State) : s.succeed.pad = s.pad := rfl
@[simp] theorem State.succeed_freq (s : State) : s.succeed.freq = s.freq := rfl
@[simp] theorem State.succeed_ctLen (s : State) : s.succeed.ctLen = s.ctLen := rfl
@[simp] theorem State.succeed_ctVal (s : State) : s.succeed.ctVal = s.ctVal := rfl
@[simp] theorem State.succeed_ibuf (s : State) : s.succeed.ibuf = s.ibuf := rfl
@[simp] theorem State.succeed_obuf (s : State) : s.succeed.obuf = s.obuf := rfl
@[simp] theorem State.succeed_build (s : State) : s.succeed.build = s.build := rfl
@[simp] theorem State.succeed_tree (s : State) : s.succeed.tree = s.tree := rfl
@[simp] theorem State.succeed_inputs (s : State) : s.succeed.inputs = s.inputs := rfl
@[simp] theorem State.succeed_resp (s : State) : s.succeed.resp = s.resp := rfl
@[simp] theorem State.succeed_free (s : State) : s.succeed.free = s.free := rfl

/-! ### `State.raise` -/

@[simp] theorem State.raise_err (s : State) (e : CmdError) (info : Word) : (s.raise e info).err = e.code := rfl
@[simp] theorem State.raise_treeValid (s : State) (e : CmdError) (info : Word) : (s.raise e info).treeValid = s.treeValid := rfl
@[simp] theorem State.raise_errInfo (s : State) (e : CmdError) (info : Word) : (s.raise e info).errInfo = info := rfl
@[simp] theorem State.raise_ilen (s : State) (e : CmdError) (info : Word) : (s.raise e info).ilen = s.ilen := rfl
@[simp] theorem State.raise_olen (s : State) (e : CmdError) (info : Word) : (s.raise e info).olen = s.olen := rfl
@[simp] theorem State.raise_pad (s : State) (e : CmdError) (info : Word) : (s.raise e info).pad = s.pad := rfl
@[simp] theorem State.raise_freq (s : State) (e : CmdError) (info : Word) : (s.raise e info).freq = s.freq := rfl
@[simp] theorem State.raise_ctLen (s : State) (e : CmdError) (info : Word) : (s.raise e info).ctLen = s.ctLen := rfl
@[simp] theorem State.raise_ctVal (s : State) (e : CmdError) (info : Word) : (s.raise e info).ctVal = s.ctVal := rfl
@[simp] theorem State.raise_ibuf (s : State) (e : CmdError) (info : Word) : (s.raise e info).ibuf = s.ibuf := rfl
@[simp] theorem State.raise_obuf (s : State) (e : CmdError) (info : Word) : (s.raise e info).obuf = s.obuf := rfl
@[simp] theorem State.raise_build (s : State) (e : CmdError) (info : Word) : (s.raise e info).build = s.build := rfl
@[simp] theorem State.raise_tree (s : State) (e : CmdError) (info : Word) : (s.raise e info).tree = s.tree := rfl
@[simp] theorem State.raise_inputs (s : State) (e : CmdError) (info : Word) : (s.raise e info).inputs = s.inputs := rfl
@[simp] theorem State.raise_resp (s : State) (e : CmdError) (info : Word) : (s.raise e info).resp = s.resp := rfl
@[simp] theorem State.raise_free (s : State) (e : CmdError) (info : Word) : (s.raise e info).free = s.free := rfl

/-! ### `State.output` -/

@[simp] theorem State.output_err (s : State) (bs : List Byte) : (s.output bs).err = s.err := rfl
@[simp] theorem State.output_treeValid (s : State) (bs : List Byte) : (s.output bs).treeValid = s.treeValid := rfl
@[simp] theorem State.output_errInfo (s : State) (bs : List Byte) : (s.output bs).errInfo = s.errInfo := rfl
@[simp] theorem State.output_ilen (s : State) (bs : List Byte) : (s.output bs).ilen = s.ilen := rfl
@[simp] theorem State.output_olen (s : State) (bs : List Byte) : (s.output bs).olen = BitVec.ofNat 32 bs.length := rfl
@[simp] theorem State.output_pad (s : State) (bs : List Byte) : (s.output bs).pad = s.pad := rfl
@[simp] theorem State.output_freq (s : State) (bs : List Byte) : (s.output bs).freq = s.freq := rfl
@[simp] theorem State.output_ctLen (s : State) (bs : List Byte) : (s.output bs).ctLen = s.ctLen := rfl
@[simp] theorem State.output_ctVal (s : State) (bs : List Byte) : (s.output bs).ctVal = s.ctVal := rfl
@[simp] theorem State.output_ibuf (s : State) (bs : List Byte) : (s.output bs).ibuf = s.ibuf := rfl
@[simp] theorem State.output_obuf (s : State) (bs : List Byte) : (s.output bs).obuf = Memory.ofBytes obufBase bs := rfl
@[simp] theorem State.output_build (s : State) (bs : List Byte) : (s.output bs).build = s.build := rfl
@[simp] theorem State.output_tree (s : State) (bs : List Byte) : (s.output bs).tree = s.tree := rfl
@[simp] theorem State.output_inputs (s : State) (bs : List Byte) : (s.output bs).inputs = s.inputs := rfl
@[simp] theorem State.output_resp (s : State) (bs : List Byte) : (s.output bs).resp = s.resp := rfl
@[simp] theorem State.output_free (s : State) (bs : List Byte) : (s.output bs).free = { s.free with obuf := s.free.obuf + 1 } := rfl

/-! ### `State.dropTree` -/

@[simp] theorem State.dropTree_err (s : State) : s.dropTree.err = s.err := rfl
@[simp] theorem State.dropTree_treeValid (s : State) : s.dropTree.treeValid = false := rfl
@[simp] theorem State.dropTree_errInfo (s : State) : s.dropTree.errInfo = s.errInfo := rfl
@[simp] theorem State.dropTree_ilen (s : State) : s.dropTree.ilen = s.ilen := rfl
@[simp] theorem State.dropTree_olen (s : State) : s.dropTree.olen = s.olen := rfl
@[simp] theorem State.dropTree_pad (s : State) : s.dropTree.pad = s.pad := rfl
@[simp] theorem State.dropTree_freq (s : State) : s.dropTree.freq = s.freq := rfl
@[simp] theorem State.dropTree_ctLen (s : State) : s.dropTree.ctLen = s.ctLen := rfl
@[simp] theorem State.dropTree_ctVal (s : State) : s.dropTree.ctVal = s.ctVal := rfl
@[simp] theorem State.dropTree_ibuf (s : State) : s.dropTree.ibuf = s.ibuf := rfl
@[simp] theorem State.dropTree_obuf (s : State) : s.dropTree.obuf = s.obuf := rfl
@[simp] theorem State.dropTree_build (s : State) : s.dropTree.build = s.build := rfl
@[simp] theorem State.dropTree_tree (s : State) : s.dropTree.tree = s.tree := rfl
@[simp] theorem State.dropTree_inputs (s : State) : s.dropTree.inputs = s.inputs := rfl
@[simp] theorem State.dropTree_resp (s : State) : s.dropTree.resp = s.resp := rfl
@[simp] theorem State.dropTree_free (s : State) : s.dropTree.free = s.free := rfl

/-! ### `State.keepTree` -/

@[simp] theorem State.keepTree_err (s : State) : s.keepTree.err = s.err := rfl
@[simp] theorem State.keepTree_treeValid (s : State) : s.keepTree.treeValid = true := rfl
@[simp] theorem State.keepTree_errInfo (s : State) : s.keepTree.errInfo = s.errInfo := rfl
@[simp] theorem State.keepTree_ilen (s : State) : s.keepTree.ilen = s.ilen := rfl
@[simp] theorem State.keepTree_olen (s : State) : s.keepTree.olen = s.olen := rfl
@[simp] theorem State.keepTree_pad (s : State) : s.keepTree.pad = s.pad := rfl
@[simp] theorem State.keepTree_freq (s : State) : s.keepTree.freq = s.freq := rfl
@[simp] theorem State.keepTree_ctLen (s : State) : s.keepTree.ctLen = s.ctLen := rfl
@[simp] theorem State.keepTree_ctVal (s : State) : s.keepTree.ctVal = s.ctVal := rfl
@[simp] theorem State.keepTree_ibuf (s : State) : s.keepTree.ibuf = s.ibuf := rfl
@[simp] theorem State.keepTree_obuf (s : State) : s.keepTree.obuf = s.obuf := rfl
@[simp] theorem State.keepTree_build (s : State) : s.keepTree.build = s.build := rfl
@[simp] theorem State.keepTree_tree (s : State) : s.keepTree.tree = s.tree := rfl
@[simp] theorem State.keepTree_inputs (s : State) : s.keepTree.inputs = s.inputs := rfl
@[simp] theorem State.keepTree_resp (s : State) : s.keepTree.resp = s.resp := rfl
@[simp] theorem State.keepTree_free (s : State) : s.keepTree.free = s.free := rfl

/-! ### `State.writeCodeTable` -/

@[simp] theorem State.writeCodeTable_err (s : State) (codes : List (Byte × Bits)) : (s.writeCodeTable codes).err = s.err := by
  simp only [State.writeCodeTable]
@[simp] theorem State.writeCodeTable_treeValid (s : State) (codes : List (Byte × Bits)) : (s.writeCodeTable codes).treeValid = s.treeValid := by
  simp only [State.writeCodeTable]
@[simp] theorem State.writeCodeTable_errInfo (s : State) (codes : List (Byte × Bits)) : (s.writeCodeTable codes).errInfo = s.errInfo := by
  simp only [State.writeCodeTable]
@[simp] theorem State.writeCodeTable_ilen (s : State) (codes : List (Byte × Bits)) : (s.writeCodeTable codes).ilen = s.ilen := by
  simp only [State.writeCodeTable]
@[simp] theorem State.writeCodeTable_olen (s : State) (codes : List (Byte × Bits)) : (s.writeCodeTable codes).olen = s.olen := by
  simp only [State.writeCodeTable]
@[simp] theorem State.writeCodeTable_pad (s : State) (codes : List (Byte × Bits)) : (s.writeCodeTable codes).pad = s.pad := by
  simp only [State.writeCodeTable]
@[simp] theorem State.writeCodeTable_freq (s : State) (codes : List (Byte × Bits)) : (s.writeCodeTable codes).freq = s.freq := by
  simp only [State.writeCodeTable]
@[simp] theorem State.writeCodeTable_ctLen (s : State) (codes : List (Byte × Bits)) : (s.writeCodeTable codes).ctLen = symTable fun sym => BitVec.ofNat 8 (codeIn codes sym).length := by
  simp only [State.writeCodeTable]
@[simp] theorem State.writeCodeTable_ctVal (s : State) (codes : List (Byte × Bits)) : (s.writeCodeTable codes).ctVal = symTable fun sym => valueWords (codeIn codes sym) := by
  simp only [State.writeCodeTable]
@[simp] theorem State.writeCodeTable_ibuf (s : State) (codes : List (Byte × Bits)) : (s.writeCodeTable codes).ibuf = s.ibuf := by
  simp only [State.writeCodeTable]
@[simp] theorem State.writeCodeTable_obuf (s : State) (codes : List (Byte × Bits)) : (s.writeCodeTable codes).obuf = s.obuf := by
  simp only [State.writeCodeTable]
@[simp] theorem State.writeCodeTable_build (s : State) (codes : List (Byte × Bits)) : (s.writeCodeTable codes).build = s.build := by
  simp only [State.writeCodeTable]
@[simp] theorem State.writeCodeTable_tree (s : State) (codes : List (Byte × Bits)) : (s.writeCodeTable codes).tree = s.tree := by
  simp only [State.writeCodeTable]
@[simp] theorem State.writeCodeTable_inputs (s : State) (codes : List (Byte × Bits)) : (s.writeCodeTable codes).inputs = s.inputs := by
  simp only [State.writeCodeTable]
@[simp] theorem State.writeCodeTable_resp (s : State) (codes : List (Byte × Bits)) : (s.writeCodeTable codes).resp = s.resp := by
  simp only [State.writeCodeTable]
@[simp] theorem State.writeCodeTable_free (s : State) (codes : List (Byte × Bits)) : (s.writeCodeTable codes).free = s.free := by
  simp only [State.writeCodeTable]

/-! ### `State.failEncode` -/

@[simp] theorem State.failEncode_err (s : State) (e : CmdError) (info : Word) : (s.failEncode e info).err = e.code := rfl
@[simp] theorem State.failEncode_treeValid (s : State) (e : CmdError) (info : Word) : (s.failEncode e info).treeValid = s.treeValid := rfl
@[simp] theorem State.failEncode_errInfo (s : State) (e : CmdError) (info : Word) : (s.failEncode e info).errInfo = info := rfl
@[simp] theorem State.failEncode_ilen (s : State) (e : CmdError) (info : Word) : (s.failEncode e info).ilen = s.ilen := rfl
@[simp] theorem State.failEncode_olen (s : State) (e : CmdError) (info : Word) : (s.failEncode e info).olen = 0 := rfl
@[simp] theorem State.failEncode_pad (s : State) (e : CmdError) (info : Word) : (s.failEncode e info).pad = 0 := rfl
@[simp] theorem State.failEncode_freq (s : State) (e : CmdError) (info : Word) : (s.failEncode e info).freq = s.freq := rfl
@[simp] theorem State.failEncode_ctLen (s : State) (e : CmdError) (info : Word) : (s.failEncode e info).ctLen = s.ctLen := rfl
@[simp] theorem State.failEncode_ctVal (s : State) (e : CmdError) (info : Word) : (s.failEncode e info).ctVal = s.ctVal := rfl
@[simp] theorem State.failEncode_ibuf (s : State) (e : CmdError) (info : Word) : (s.failEncode e info).ibuf = s.ibuf := rfl
@[simp] theorem State.failEncode_obuf (s : State) (e : CmdError) (info : Word) : (s.failEncode e info).obuf = [] := rfl
@[simp] theorem State.failEncode_build (s : State) (e : CmdError) (info : Word) : (s.failEncode e info).build = s.build := rfl
@[simp] theorem State.failEncode_tree (s : State) (e : CmdError) (info : Word) : (s.failEncode e info).tree = s.tree := rfl
@[simp] theorem State.failEncode_inputs (s : State) (e : CmdError) (info : Word) : (s.failEncode e info).inputs = s.inputs := rfl
@[simp] theorem State.failEncode_resp (s : State) (e : CmdError) (info : Word) : (s.failEncode e info).resp = s.resp := rfl
@[simp] theorem State.failEncode_free (s : State) (e : CmdError) (info : Word) : (s.failEncode e info).free = { s.free with obuf := s.free.obuf + 1 } := rfl

/-! ### `State.failDecode` -/

@[simp] theorem State.failDecode_err (s : State) (e : CmdError) : (s.failDecode e).err = e.code := rfl
@[simp] theorem State.failDecode_treeValid (s : State) (e : CmdError) : (s.failDecode e).treeValid = s.treeValid := rfl
@[simp] theorem State.failDecode_errInfo (s : State) (e : CmdError) : (s.failDecode e).errInfo = 0 := rfl
@[simp] theorem State.failDecode_ilen (s : State) (e : CmdError) : (s.failDecode e).ilen = s.ilen := rfl
@[simp] theorem State.failDecode_olen (s : State) (e : CmdError) : (s.failDecode e).olen = 0 := rfl
@[simp] theorem State.failDecode_pad (s : State) (e : CmdError) : (s.failDecode e).pad = s.pad := rfl
@[simp] theorem State.failDecode_freq (s : State) (e : CmdError) : (s.failDecode e).freq = s.freq := rfl
@[simp] theorem State.failDecode_ctLen (s : State) (e : CmdError) : (s.failDecode e).ctLen = s.ctLen := rfl
@[simp] theorem State.failDecode_ctVal (s : State) (e : CmdError) : (s.failDecode e).ctVal = s.ctVal := rfl
@[simp] theorem State.failDecode_ibuf (s : State) (e : CmdError) : (s.failDecode e).ibuf = s.ibuf := rfl
@[simp] theorem State.failDecode_obuf (s : State) (e : CmdError) : (s.failDecode e).obuf = [] := rfl
@[simp] theorem State.failDecode_build (s : State) (e : CmdError) : (s.failDecode e).build = s.build := rfl
@[simp] theorem State.failDecode_tree (s : State) (e : CmdError) : (s.failDecode e).tree = s.tree := rfl
@[simp] theorem State.failDecode_inputs (s : State) (e : CmdError) : (s.failDecode e).inputs = s.inputs := rfl
@[simp] theorem State.failDecode_resp (s : State) (e : CmdError) : (s.failDecode e).resp = s.resp := rfl
@[simp] theorem State.failDecode_free (s : State) (e : CmdError) : (s.failDecode e).free = { s.free with obuf := s.free.obuf + 1 } := rfl

/-! ### `State.failRebuild` -/

@[simp] theorem State.failRebuild_err (s : State) : s.failRebuild.err = 3#4 := rfl
@[simp] theorem State.failRebuild_treeValid (s : State) : s.failRebuild.treeValid = false := rfl
@[simp] theorem State.failRebuild_errInfo (s : State) : s.failRebuild.errInfo = 0 := rfl
@[simp] theorem State.failRebuild_ilen (s : State) : s.failRebuild.ilen = s.ilen := rfl
@[simp] theorem State.failRebuild_olen (s : State) : s.failRebuild.olen = s.olen := rfl
@[simp] theorem State.failRebuild_pad (s : State) : s.failRebuild.pad = s.pad := rfl
@[simp] theorem State.failRebuild_freq (s : State) : s.failRebuild.freq = s.freq := rfl
@[simp] theorem State.failRebuild_ctLen (s : State) : s.failRebuild.ctLen = s.ctLen := rfl
@[simp] theorem State.failRebuild_ctVal (s : State) : s.failRebuild.ctVal = s.ctVal := rfl
@[simp] theorem State.failRebuild_ibuf (s : State) : s.failRebuild.ibuf = s.ibuf := rfl
@[simp] theorem State.failRebuild_obuf (s : State) : s.failRebuild.obuf = s.obuf := rfl
@[simp] theorem State.failRebuild_build (s : State) : s.failRebuild.build = s.build := rfl
@[simp] theorem State.failRebuild_tree (s : State) : s.failRebuild.tree = (Config.freeRebuildStore (s.free.tree + 1)).clip := rfl
@[simp] theorem State.failRebuild_inputs (s : State) : s.failRebuild.inputs = s.inputs := rfl
@[simp] theorem State.failRebuild_resp (s : State) : s.failRebuild.resp = s.resp := rfl
@[simp] theorem State.failRebuild_free (s : State) : s.failRebuild.free = { s.free with tree := s.free.tree + 1 } := rfl

/-! ### `State.illegalCommand` -/

@[simp] theorem State.illegalCommand_err (s : State) (w : Word) : (s.illegalCommand w).err = 8#4 := rfl
@[simp] theorem State.illegalCommand_treeValid (s : State) (w : Word) : (s.illegalCommand w).treeValid = s.treeValid := rfl
@[simp] theorem State.illegalCommand_errInfo (s : State) (w : Word) : (s.illegalCommand w).errInfo = w := rfl
@[simp] theorem State.illegalCommand_ilen (s : State) (w : Word) : (s.illegalCommand w).ilen = s.ilen := rfl
@[simp] theorem State.illegalCommand_olen (s : State) (w : Word) : (s.illegalCommand w).olen = s.olen := rfl
@[simp] theorem State.illegalCommand_pad (s : State) (w : Word) : (s.illegalCommand w).pad = s.pad := rfl
@[simp] theorem State.illegalCommand_freq (s : State) (w : Word) : (s.illegalCommand w).freq = s.freq := rfl
@[simp] theorem State.illegalCommand_ctLen (s : State) (w : Word) : (s.illegalCommand w).ctLen = s.ctLen := rfl
@[simp] theorem State.illegalCommand_ctVal (s : State) (w : Word) : (s.illegalCommand w).ctVal = s.ctVal := rfl
@[simp] theorem State.illegalCommand_ibuf (s : State) (w : Word) : (s.illegalCommand w).ibuf = s.ibuf := rfl
@[simp] theorem State.illegalCommand_obuf (s : State) (w : Word) : (s.illegalCommand w).obuf = s.obuf := rfl
@[simp] theorem State.illegalCommand_build (s : State) (w : Word) : (s.illegalCommand w).build = s.build := rfl
@[simp] theorem State.illegalCommand_tree (s : State) (w : Word) : (s.illegalCommand w).tree = s.tree := rfl
@[simp] theorem State.illegalCommand_inputs (s : State) (w : Word) : (s.illegalCommand w).inputs = s.inputs := rfl
@[simp] theorem State.illegalCommand_resp (s : State) (w : Word) : (s.illegalCommand w).resp = s.resp := rfl
@[simp] theorem State.illegalCommand_free (s : State) (w : Word) : (s.illegalCommand w).free = s.free := rfl

/-! ### `State.writeOkay` -/

@[simp] theorem State.writeOkay_err (s : State) : s.writeOkay.err = s.err := rfl
@[simp] theorem State.writeOkay_treeValid (s : State) : s.writeOkay.treeValid = s.treeValid := rfl
@[simp] theorem State.writeOkay_errInfo (s : State) : s.writeOkay.errInfo = s.errInfo := rfl
@[simp] theorem State.writeOkay_ilen (s : State) : s.writeOkay.ilen = s.ilen := rfl
@[simp] theorem State.writeOkay_olen (s : State) : s.writeOkay.olen = s.olen := rfl
@[simp] theorem State.writeOkay_pad (s : State) : s.writeOkay.pad = s.pad := rfl
@[simp] theorem State.writeOkay_freq (s : State) : s.writeOkay.freq = s.freq := rfl
@[simp] theorem State.writeOkay_ctLen (s : State) : s.writeOkay.ctLen = s.ctLen := rfl
@[simp] theorem State.writeOkay_ctVal (s : State) : s.writeOkay.ctVal = s.ctVal := rfl
@[simp] theorem State.writeOkay_ibuf (s : State) : s.writeOkay.ibuf = s.ibuf := rfl
@[simp] theorem State.writeOkay_obuf (s : State) : s.writeOkay.obuf = s.obuf := rfl
@[simp] theorem State.writeOkay_build (s : State) : s.writeOkay.build = s.build := rfl
@[simp] theorem State.writeOkay_tree (s : State) : s.writeOkay.tree = s.tree := rfl
@[simp] theorem State.writeOkay_inputs (s : State) : s.writeOkay.inputs = s.inputs := rfl
@[simp] theorem State.writeOkay_resp (s : State) : s.writeOkay.resp = some (.write .okay) := rfl
@[simp] theorem State.writeOkay_free (s : State) : s.writeOkay.free = s.free := rfl

/-! ### `State.writeError` -/

@[simp] theorem State.writeError_err (s : State) : s.writeError.err = s.err := rfl
@[simp] theorem State.writeError_treeValid (s : State) : s.writeError.treeValid = s.treeValid := rfl
@[simp] theorem State.writeError_errInfo (s : State) : s.writeError.errInfo = s.errInfo := rfl
@[simp] theorem State.writeError_ilen (s : State) : s.writeError.ilen = s.ilen := rfl
@[simp] theorem State.writeError_olen (s : State) : s.writeError.olen = s.olen := rfl
@[simp] theorem State.writeError_pad (s : State) : s.writeError.pad = s.pad := rfl
@[simp] theorem State.writeError_freq (s : State) : s.writeError.freq = s.freq := rfl
@[simp] theorem State.writeError_ctLen (s : State) : s.writeError.ctLen = s.ctLen := rfl
@[simp] theorem State.writeError_ctVal (s : State) : s.writeError.ctVal = s.ctVal := rfl
@[simp] theorem State.writeError_ibuf (s : State) : s.writeError.ibuf = s.ibuf := rfl
@[simp] theorem State.writeError_obuf (s : State) : s.writeError.obuf = s.obuf := rfl
@[simp] theorem State.writeError_build (s : State) : s.writeError.build = s.build := rfl
@[simp] theorem State.writeError_tree (s : State) : s.writeError.tree = s.tree := rfl
@[simp] theorem State.writeError_inputs (s : State) : s.writeError.inputs = s.inputs := rfl
@[simp] theorem State.writeError_resp (s : State) : s.writeError.resp = some (.write .error) := rfl
@[simp] theorem State.writeError_free (s : State) : s.writeError.free = s.free := rfl

end Sys2Proof.Machine
end

