-- ==== Sys2Proof/Laws/Table.lean ====
section
/-! SUPPORT. The per-symbol tables and the list of all symbols. -/

namespace Sys2Proof.Machine

@[simp] theorem symAt_symTable {α : Type} (f : Byte → α) (sym : Byte) : symAt (symTable f) sym = f sym := by
  unfold symTable
  simp [symAt, allSymbols]

@[simp] theorem symAt_replicate {α : Type} (x : α) (sym : Byte) : symAt (Vector.replicate 256 x) sym = x := by
  simp only [symAt, Vector.getElem_replicate]

theorem symAt_symSet {α : Type} (v : Vector α 256) (sym other : Byte) (x : α) :
    symAt (symSet v sym x) other = if other = sym then x else symAt v other := by
  simp only [symAt, symSet, Vector.getElem_set, BitVec.toNat_inj, eq_comm]

@[simp] theorem symAt_symSet_self {α : Type} (v : Vector α 256) (sym : Byte) (x : α) :
    symAt (symSet v sym x) sym = x := by
  simp only [symAt_symSet, if_true]

theorem symAt_symSet_of_ne {α : Type} (v : Vector α 256) {sym other : Byte} (x : α) (h : other ≠ sym) :
    symAt (symSet v sym x) other = symAt v other := by
  simp only [symAt_symSet, if_neg h]

@[simp] theorem mem_allSymbols (sym : Byte) : sym ∈ allSymbols :=
  List.mem_map.2 ⟨sym.toNat, List.mem_range.2 sym.isLt, by simp⟩

theorem allSymbols_ascending : allSymbols.Pairwise fun a b => a.toNat < b.toNat := by
  unfold allSymbols
  rw [List.pairwise_map]
  refine (List.pairwise_lt_range).imp_of_mem fun ha hb hab => ?_
  simp only [List.mem_range, Config.nsym] at ha hb
  simpa only [BitVec.toNat_ofNat, Nat.mod_eq_of_lt ha, Nat.mod_eq_of_lt hb] using hab

theorem allSymbols_nodup : allSymbols.Nodup :=
  allSymbols_ascending.imp fun h => by rintro rfl; exact Nat.lt_irrefl _ h

@[simp] theorem allSymbols_length : allSymbols.length = 256 := by
  simp only [allSymbols, List.length_map, List.length_range, Config.nsym]

/-- A symbol is in the CodeTable exactly when its length is not 0, and then with its code (00_scope.md R14). -/
theorem State.mem_codeTable (s : State) (e : Byte × Bits) :
    e ∈ s.codeTable ↔ s.ctLenAt e.1 ≠ 0 ∧ e.2 = s.code e.1 := by
  obtain ⟨sym, c⟩ := e
  simp only [State.codeTable, List.mem_map, List.mem_filter, mem_allSymbols, true_and, State.hasEntry, bne_iff_ne,
    Prod.mk.injEq]
  exact ⟨fun ⟨a, h, ha, hc⟩ => ha ▸ ⟨h, hc.symm⟩, fun ⟨h, hc⟩ => ⟨sym, h, rfl, hc.symm⟩⟩

@[simp] theorem State.code_length (s : State) (sym : Byte) : (s.code sym).length = (s.ctLenAt sym).toNat := by
  simp only [State.code, List.length_map, List.length_range]

theorem State.codeTable_eq_nil (s : State) : s.codeTable = [] ↔ ∀ sym, s.ctLenAt sym = 0 := by
  simp only [List.eq_nil_iff_forall_not_mem, State.mem_codeTable, not_and]
  exact ⟨fun h sym => by_contra fun hs => h (sym, s.code sym) hs rfl, fun h e he => absurd (h e.1) he⟩

theorem State.codeTable_length_le (s : State) : s.codeTable.length ≤ 256 := by
  simpa only [State.codeTable, List.length_map, allSymbols_length] using List.length_filter_le s.hasEntry allSymbols

theorem mem_presentSymbols (freq : Vector Word 256) (sym : Byte) :
    sym ∈ presentSymbols freq ↔ symAt freq sym ≠ 0 := by
  simp only [presentSymbols, List.mem_filter, mem_allSymbols, true_and, bne_iff_ne]

end Sys2Proof.Machine
end

