-- ==== Sys2Proof/Laws/Bits.lean ====
section
/-! SUPPORT. Bit-strings and their values (00_scope.md R12), the words of a value (10_state.md R38), packing. -/

namespace Sys2Proof.Machine

@[simp] theorem Bits.val_nil : Bits.val [] = 0 := rfl

theorem Bits.val_cons (b : Bool) (c : Bits) : Bits.val (b :: c) = b.toNat * 2 ^ c.length + Bits.val c := rfl

theorem Bits.val_lt (c : Bits) : Bits.val c < 2 ^ c.length := by
  induction c with
  | nil => decide
  | cons b c ih => cases b <;> simp [Bits.val_cons, pow_succ] <;> omega

theorem Bits.val_append (c d : Bits) : Bits.val (c ++ d) = Bits.val c * 2 ^ d.length + Bits.val d := by
  induction c with
  | nil => simp
  | cons b c ih => simp [Bits.val_cons, ih, pow_add]; ring

/-- Appending one bit (00_scope.md R12). -/
theorem Bits.val_concat (c : Bits) (b : Bool) : Bits.val (c ++ [b]) = 2 * Bits.val c + b.toNat := by
  simp [Bits.val_append, Bits.val_cons, mul_comm]

/-- Bit `i` of the value is the bit that stands `i` places before the end. -/
theorem Bits.testBit_val (c : Bits) (i : Nat) : (Bits.val c).testBit i = (c.reverse).getD i false := by
  induction c using List.reverseRecOn generalizing i with
  | nil => simp
  | append_singleton c b ih =>
    rw [Bits.val_concat, List.reverse_concat]
    cases i with
    | zero => cases b <;> simp [Nat.testBit_zero]
    | succ i =>
      rw [Nat.testBit_succ, show (2 * Bits.val c + b.toNat) / 2 = Bits.val c by cases b <;> simp; omega, ih]
      simp

@[simp] theorem Bits.str_length (n v : Nat) : (Bits.str n v).length = n := by
  simp only [Bits.str, List.length_map, List.length_range]

/-- `str` undoes `val` on its length (00_scope.md R12). -/
theorem Bits.str_val (c : Bits) : Bits.str c.length (Bits.val c) = c := by
  refine List.ext_getElem (Bits.str_length _ _) fun i h _ => ?_
  rw [Bits.str_length] at h
  simp only [Bits.str, List.getElem_map, List.getElem_range, Bits.testBit_val]
  rw [List.getD_eq_getElem _ _ (by simp; omega), List.getElem_reverse]
  congr 1
  omega

/-- Two bit-strings of one length with one value are the same. -/
theorem Bits.val_injective {c d : Bits} (hl : c.length = d.length) (hv : Bits.val c = Bits.val d) : c = d := by
  rw [← Bits.str_val c, ← Bits.str_val d, hl, hv]

/-- `val` undoes `str` up to the length. -/
theorem Bits.val_str (n v : Nat) : Bits.val (Bits.str n v) = v % 2 ^ n := by
  refine Nat.eq_of_testBit_eq fun i => ?_
  rw [Bits.testBit_val, Nat.testBit_mod_two_pow]
  by_cases h : i < n
  · rw [List.getD_eq_getElem _ _ (by simpa using h), List.getElem_reverse]
    simp only [Bits.str, List.getElem_map, List.getElem_range, List.length_map, List.length_range, h, decide_true,
      Bool.true_and]
    congr 1
    omega
  · rw [List.getD_eq_default _ _ (by simpa using h)]
    simp [h]

/-- The words of a value hold its bits (10_state.md R38). -/
theorem wordsBit_valueWords (c : Bits) {i : Nat} (h : i < 256) : wordsBit (valueWords c) i = (Bits.val c).testBit i := by
  have hw : i / 32 < 8 := by omega
  simp only [wordsBit, valueWords, Vector.getElem?_ofFn, hw, dif_pos, Option.getD_some, BitVec.getLsbD_ofNat,
    Nat.testBit_shiftRight]
  rw [show 32 * (i / 32) + i % 32 = i by omega, decide_eq_true (by omega), Bool.true_and]

theorem wordsBit_of_ge (v : Vector Word 8) {i : Nat} (h : 256 ≤ i) : wordsBit v i = false := by
  have hw : ¬ i / 32 < 8 := by omega
  simp [wordsBit, hw]

/-- Bit `i` of a code is bit `CT_LEN - 1 - i` of CT_VAL (10_state.md R38). -/
theorem State.code_getElem (s : State) (sym : Byte) {i : Nat} (h : i < (s.code sym).length) :
    (s.code sym)[i] = s.ctValBit sym ((s.ctLenAt sym).toNat - 1 - i) := by
  simp only [State.code, List.getElem_map, List.getElem_range]

@[simp] theorem State.writeCodeTable_ctLenAt (s : State) (codes : List (Byte × Bits)) (sym : Byte) :
    (s.writeCodeTable codes).ctLenAt sym = BitVec.ofNat 8 (codeIn codes sym).length := by
  rw [State.ctLenAt, State.writeCodeTable_ctLen, symAt_symTable]

@[simp] theorem State.writeCodeTable_ctValBit (s : State) (codes : List (Byte × Bits)) (sym : Byte) (i : Nat) :
    (s.writeCodeTable codes).ctValBit sym i = wordsBit (valueWords (codeIn codes sym)) i := by
  rw [State.ctValBit, State.writeCodeTable_ctVal, symAt_symTable]

/-- After the code table is written a symbol has the recorded code, when that code is not too long (40_build.md R123). -/
theorem State.writeCodeTable_code (s : State) (codes : List (Byte × Bits)) (sym : Byte)
    (h : (codeIn codes sym).length ≤ 255) : (s.writeCodeTable codes).code sym = codeIn codes sym := by
  have hl : ((s.writeCodeTable codes).ctLenAt sym).toNat = (codeIn codes sym).length := by
    rw [State.writeCodeTable_ctLenAt, BitVec.toNat_ofNat]
    omega
  refine List.ext_getElem (by rw [State.code_length, hl]) fun i h1 h2 => ?_
  rw [State.code_getElem, hl, State.writeCodeTable_ctValBit, wordsBit_valueWords _ (by omega), Bits.testBit_val,
    List.getD_eq_getElem _ _ (by simp; omega), List.getElem_reverse]
  congr 1
  omega

@[simp] theorem packBytes_length (n : Nat) (c : Bits) : (packBytes n c).length = n := by
  induction n generalizing c with
  | zero => rfl
  | succ n ih => simp only [packBytes, List.length_cons, ih]

/-- Bit `7 - j` of a packed group is bit `j` of the group (41_encode.md R144). -/
theorem byteOfBits_getLsbD (c : Bits) (hc : c.length = 8) {j : Nat} (hj : j < 8) :
    (byteOfBits c).getLsbD (7 - j) = c.getD j false := by
  rw [byteOfBits, BitVec.getLsbD_ofNat, decide_eq_true (by omega), Bool.true_and, Bits.testBit_val,
    List.getD_eq_getElem _ _ (by simp; omega), List.getElem_reverse, List.getD_eq_getElem _ _ (by omega)]
  congr 1
  omega

end Sys2Proof.Machine
end

