-- ==== Sys2Proof/Laws/Memory.lean ====
section
/-! SUPPORT. The byte memories: read after write, the canonical form, lanes of a word. -/

namespace Sys2Proof.Machine

@[simp] theorem Memory.lookup_nil (a : Nat) : Memory.lookup [] a = none := rfl

/-- Read after write: the byte written at its address, the old byte elsewhere. -/
theorem Memory.lookup_write (m : Memory) (a : Nat) (v : Byte) (x : Nat) :
    Memory.lookup (Memory.write m a v) x = if x = a then some v else Memory.lookup m x := by
  induction m with
  | nil => simp only [Memory.write, Memory.lookup, eq_comm]
  | cons c m ih =>
    simp only [Memory.write]
    split
    · by_cases h : x = a
      · simp [Memory.lookup, h]
      · simp [Memory.lookup, h, Ne.symm h]
    · split
      · by_cases h : x = a
        · simp [Memory.lookup, h]
        · have : c.1 ≠ x := by omega
          simp [Memory.lookup, h, Ne.symm h, this]
      · by_cases hc : c.1 = x
        · have : x ≠ a := by omega
          simp [Memory.lookup, hc, this]
        · simp [Memory.lookup, hc, ih]

theorem Memory.lookup_write_of_ne (m : Memory) {a x : Nat} (v : Byte) (h : x ≠ a) :
    Memory.lookup (Memory.write m a v) x = Memory.lookup m x := by
  rw [Memory.lookup_write, if_neg h]

/-- A write lists nothing but its own address and what was listed. -/
theorem Memory.mem_write {m : Memory} {a : Nat} {v : Byte} {c : Host.Cell} (h : c ∈ Memory.write m a v) :
    c = (a, v) ∨ c ∈ m := by
  induction m with
  | nil => simpa [Memory.write] using h
  | cons d m ih =>
    simp only [Memory.write] at h
    split at h
    · simpa using h
    · split at h
      · simp only [List.mem_cons] at h ⊢; tauto
      · simp only [List.mem_cons] at h ⊢
        rcases h with h | h
        · exact .inr (.inl h)
        · exact (ih h).imp id .inr

/-- A write keeps the canonical form. -/
theorem Memory.write_wf {m : Memory} (hm : Memory.wf m) (a : Nat) (v : Byte) : Memory.wf (Memory.write m a v) := by
  induction m with
  | nil => simp [Memory.write]
  | cons c m ih =>
    obtain ⟨hc, hm'⟩ := List.pairwise_cons.1 hm
    simp only [Memory.write]
    split
    · rename_i hlt
      refine List.pairwise_cons.2 ⟨fun d hd => ?_, hm⟩
      rcases List.mem_cons.1 hd with rfl | hd
      · exact hlt
      · exact lt_trans hlt (hc d hd)
    · split
      · rename_i h
        exact List.pairwise_cons.2 ⟨fun d hd => h ▸ hc d hd, hm'⟩
      · refine List.pairwise_cons.2 ⟨fun d hd => ?_, ih hm'⟩
        rcases Memory.mem_write hd with rfl | hd
        · show c.1 < a
          omega
        · exact hc d hd

theorem Memory.writeWord_wf {m : Memory} (hm : Memory.wf m) (a : Nat) (w : Word) : Memory.wf (Memory.writeWord m a w) :=
  Memory.write_wf (Memory.write_wf (Memory.write_wf (Memory.write_wf hm _ _) _ _) _ _) _ _

/-- Read after a word write: the lanes of the word at its four addresses, the old bytes elsewhere (20_memory.md R68). -/
theorem Memory.lookup_writeWord (m : Memory) (a : Nat) (w : Word) (x : Nat) :
    Memory.lookup (Memory.writeWord m a w) x = if a ≤ x ∧ x < a + 4 then some (lane w (x - a)) else Memory.lookup m x := by
  simp only [Memory.writeWord, Memory.lookup_write]
  by_cases h : a ≤ x ∧ x < a + 4
  · rw [if_pos h]
    obtain rfl | rfl | rfl | rfl : x = a ∨ x = a + 1 ∨ x = a + 2 ∨ x = a + 3 := by omega
    all_goals simp
  · rw [if_neg h, if_neg (by omega), if_neg (by omega), if_neg (by omega), if_neg (by omega)]

/-- The four lanes of a word make the word (20_memory.md R68). -/
theorem wordOfLanes_lane (w : Word) : wordOfLanes (lane w 0) (lane w 1) (lane w 2) (lane w 3) = w := by
  refine BitVec.eq_of_getLsbD_eq fun i hi => ?_
  simp only [wordOfLanes, lane, BitVec.getLsbD_append, BitVec.getLsbD_extractLsb']
  have key : ∀ k j, i = 8 * k + j → j < 8 → (decide (j < 8) && w.getLsbD (8 * k + j)) = w.getLsbD i := by
    rintro k j rfl hj
    simp [hj]
  split
  · exact key 0 i (by omega) (by omega)
  · split
    · exact key 1 _ (by omega) (by omega)
    · split
      · exact key 2 _ (by omega) (by omega)
      · exact key 3 _ (by omega) (by omega)

theorem lane_toNat (w : Word) (k : Nat) : (lane w k).toNat = w.toNat / 256 ^ k % 256 := by
  simp only [lane, BitVec.extractLsb'_toNat, Nat.shiftRight_eq_div_pow, Nat.reducePow, pow_mul]

/-- What a memory made of bytes holds: exactly these, from its base on. -/
theorem Memory.lookup_ofBytes (base : Nat) (bs : List Byte) (x : Nat) :
    Memory.lookup (Memory.ofBytes base bs) x = if base ≤ x then bs[x - base]? else none := by
  induction bs generalizing base with
  | nil => simp [Memory.ofBytes]
  | cons b bs ih =>
    simp only [Memory.ofBytes, Memory.lookup, ih]
    by_cases h : base = x
    · simp [h]
    · by_cases h' : base ≤ x
      · obtain ⟨k, rfl⟩ : ∃ k, x = base + 1 + k := ⟨x - base - 1, by omega⟩
        simp [show base + 1 + k - base = k + 1 by omega, show base ≤ base + 1 + k by omega,
          show base ≠ base + 1 + k by omega]
      · simp [h, h', show ¬ base + 1 ≤ x by omega]

theorem Memory.mem_ofBytes {base : Nat} {bs : List Byte} {c : Host.Cell} (h : c ∈ Memory.ofBytes base bs) :
    base ≤ c.1 ∧ c.1 < base + bs.length := by
  induction bs generalizing base with
  | nil => simp [Memory.ofBytes] at h
  | cons b bs ih =>
    simp only [Memory.ofBytes, List.mem_cons] at h
    rcases h with rfl | h
    · simp
    · have := ih h
      simp only [List.length_cons]
      omega

theorem Memory.ofBytes_wf (base : Nat) (bs : List Byte) : Memory.wf (Memory.ofBytes base bs) := by
  induction bs generalizing base with
  | nil => exact .nil
  | cons b bs ih =>
    exact List.pairwise_cons.2 ⟨fun c hc => Nat.lt_of_lt_of_le (Nat.lt_succ_self _) (Memory.mem_ofBytes hc).1, ih _⟩

/-- After an output, byte `i` of OBUF is byte `i` of it. -/
theorem State.output_obufAt (s : State) (bs : List Byte) {i : Nat} (h : i < bs.length) :
    (s.output bs).obufAt i = bs[i] := by
  simp [State.obufAt, State.output, Memory.lookup_ofBytes, h]

end Sys2Proof.Machine
end

