-- ==== Sys2Proof/Laws/Commands.lean ====
section
/-! SUPPORT. What each command and each shared loop can do, said once. -/

namespace Sys2Proof.Machine

/-! ### ENCODE -/

/-- The substitution succeeds exactly when every byte has an entry, with the concatenated codes (41_encode.md R143). -/
theorem State.substitute_eq_ok (s : State) (i : Nat) (bs : List Byte) (bits : Bits) :
    s.substitute i bs = .ok bits ↔ (∀ b ∈ bs, s.hasEntry b = true) ∧ bits = bs.flatMap s.code := by
  induction bs generalizing i bits with
  | nil =>
    simp only [State.substitute, Except.ok.injEq, List.not_mem_nil, false_implies, implies_true, List.flatMap_nil, true_and]
    exact eq_comm
  | cons b bs ih =>
    simp only [State.substitute, List.mem_cons, forall_eq_or_imp, List.flatMap_cons]
    split
    · rename_i hb
      cases hr : s.substitute (i + 1) bs with
      | ok rest =>
        obtain ⟨hall, rfl⟩ := (ih (i + 1) rest).1 hr
        simp only [Except.ok.injEq, hb, true_and]
        exact ⟨fun h => ⟨hall, h.symm⟩, fun h => h.2.symm⟩
      | error e =>
        have : ¬ ∀ b ∈ bs, s.hasEntry b = true := fun h => by
          rw [(ih (i + 1) _).2 ⟨h, rfl⟩] at hr
          cases hr
        simp only [this, and_false, false_and, reduceCtorEq]
    · rename_i hb
      simp only [hb, false_and, reduceCtorEq]

/-- The substitution fails exactly at the first byte without an entry (41_encode.md R143). -/
theorem State.substitute_eq_error (s : State) (i : Nat) (bs : List Byte) (pos : Nat) (sym : Byte) :
    s.substitute i bs = .error (pos, sym) ↔
      ∃ pre post, bs = pre ++ sym :: post ∧ (∀ b ∈ pre, s.hasEntry b = true) ∧ s.hasEntry sym = false ∧
        pos = i + pre.length := by
  induction bs generalizing i with
  | nil => simp [State.substitute]
  | cons b bs ih =>
    simp only [State.substitute]
    split
    · rename_i hb
      have hrec : ∀ r : Except (Nat × Byte) Bits, (match r with
          | .ok rest => (.ok (s.code b ++ rest) : Except (Nat × Byte) Bits)
          | .error e => .error e) = .error (pos, sym) ↔ r = .error (pos, sym) := by
        intro r; cases r <;> simp
      refine (hrec _).trans ((ih _).trans ?_)
      constructor
      · rintro ⟨pre, post, rfl, hp, hs, rfl⟩
        exact ⟨b :: pre, post, rfl, by simpa [hb] using hp, hs, by simp; omega⟩
      · rintro ⟨pre, post, he, hp, hs, rfl⟩
        cases pre with
        | nil => simp only [List.nil_append, List.cons.injEq] at he; rw [he.1, hs] at hb; cases hb
        | cons c pre =>
          simp only [List.cons_append, List.cons.injEq] at he
          exact ⟨pre, post, he.2, fun b hb => hp b (List.mem_cons_of_mem _ hb), hs, by simp; omega⟩
    · rename_i hb
      constructor
      · intro h
        injection h with h
        injection h with h1 h2
        subst h1 h2
        exact ⟨[], bs, rfl, by simp, by simpa using hb, rfl⟩
      · rintro ⟨pre, post, he, hp, hs, rfl⟩
        cases pre with
        | nil => simp only [List.nil_append, List.cons.injEq] at he; simp [he.1]
        | cons c pre =>
          simp only [List.cons_append, List.cons.injEq] at he
          exact absurd (hp c (List.mem_cons_self ..)) (he.1 ▸ hb)

/-- The four ways ENCODE ends, each with its guard (41_encode.md R141). -/
theorem execEncode_cases (s : State) :
    (Config.ibufCap < s.ilen.toNat ∧ execEncode s = .next (s.failEncode .operandRange 0)) ∨
    (s.ilen.toNat ≤ Config.ibufCap ∧ s.codeTable = [] ∧ s.ilen ≠ 0 ∧
      execEncode s = .next (s.failEncode .emptyAlphabetMismatch 0)) ∨
    (s.ilen.toNat ≤ Config.ibufCap ∧ ¬ (s.codeTable = [] ∧ s.ilen ≠ 0) ∧ ∃ pos sym,
      s.substitute 0 s.inputBytes = .error (pos, sym) ∧
      execEncode s = .next (s.failEncode .unknownSymbol (unknownSymbolInfo pos sym))) ∨
    (s.ilen.toNat ≤ Config.ibufCap ∧ ¬ (s.codeTable = [] ∧ s.ilen ≠ 0) ∧
      (∀ b ∈ s.inputBytes, s.hasEntry b = true) ∧
      execEncode s = .next ({ s with pad := BitVec.ofNat 32 (padFor (s.inputBytes.flatMap s.code).length) }.output
        (pack (s.inputBytes.flatMap s.code))).succeed) := by
  unfold execEncode
  split
  · exact .inl ⟨‹_›, rfl⟩
  · have hl : s.ilen.toNat ≤ Config.ibufCap := by omega
    split
    · rename_i h
      exact .inr (.inl ⟨hl, h.1, h.2, rfl⟩)
    · rename_i h
      cases hs : s.substitute 0 s.inputBytes with
      | error e => exact .inr (.inr (.inl ⟨hl, h, e.1, e.2, rfl, rfl⟩))
      | ok bits =>
        obtain ⟨hb, rfl⟩ := (s.substitute_eq_ok _ _ _).1 hs
        exact .inr (.inr (.inr ⟨hl, h, hb, rfl⟩))

/-! ### REBUILD -/

/-- The two ways REBUILD ends (42_rebuild.md R173, R174). -/
theorem execRebuild_cases (s : State) :
    (∃ t, rebuildTable s.codeTable s.tree = some t ∧ execRebuild s = .next ({ s with tree := t }).keepTree.succeed) ∨
    (rebuildTable s.codeTable s.tree = none ∧ execRebuild s = .next s.failRebuild) := by
  unfold execRebuild
  cases rebuildTable s.codeTable s.tree with
  | some t => exact .inl ⟨t, rfl, rfl⟩
  | none => exact .inr ⟨rfl, rfl⟩

/-- An insertion adds one element and keeps the others. -/
theorem insertByKey_perm (rl : List RlEntry) (k : RlEntry) : (insertByKey rl k).Perm (k :: rl) := by
  simp only [insertByKey]
  exact List.perm_middle.trans (by rw [List.take_append_drop])

theorem sortByKey_perm (rl : List RlEntry) : (sortByKey rl).Perm rl := by
  suffices h : ∀ acc, (rl.foldl insertByKey acc).Perm (acc ++ rl) from h []
  induction rl with
  | nil => simp
  | cons k rl ih =>
    intro acc
    exact (ih _).trans (((insertByKey_perm acc k).append_right rl).trans List.perm_middle.symm)

/-! ### BUILD -/

theorem execBuild_eq (s : State) : execBuild s =
    .next ({ (s.writeCodeTable (buildCodes s.freq s.build).1) with build := (buildCodes s.freq s.build).2 }).dropTree.succeed :=
  rfl

/-- An insertion adds one element and keeps the others. -/
theorem insertByWeight_perm (bn : List BuildNode) (wl : List Nat) (i : Nat) : (insertByWeight bn wl i).Perm (i :: wl) := by
  simp only [insertByWeight]
  exact List.perm_middle.trans (by rw [List.take_append_drop])

@[simp] theorem insertByWeight_length (bn : List BuildNode) (wl : List Nat) (i : Nat) :
    (insertByWeight bn wl i).length = wl.length + 1 := by
  rw [(insertByWeight_perm bn wl i).length_eq, List.length_cons]

/-- What a merge step does when two elements are there (40_build.md R118). -/
theorem mergeStep_eq (bn : List BuildNode) (pre : List Nat) (l r : Nat) :
    mergeStep { bn := bn, wl := pre ++ [l, r] } =
      { bn := bn ++ [.internal l r (weightAt bn l + weightAt bn r)]
        wl := insertByWeight (bn ++ [.internal l r (weightAt bn l + weightAt bn r)]) pre bn.length } := by
  simp [mergeStep]

/-! ### DECODE -/

/-- The ways DECODE ends, each with its guard (43_decode.md R181). -/
theorem execDecode_cases (s : State) :
    (Config.ibufCap < s.ilen.toNat ∧ execDecode s = .next (s.failDecode .operandRange)) ∨
    (s.ilen.toNat ≤ Config.ibufCap ∧ s.treeValid = false ∧ execDecode s = .next (s.failDecode .noTree)) ∨
    (s.ilen.toNat ≤ Config.ibufCap ∧ s.treeValid = true ∧ (Config.padMax < s.pad.toNat ∨ (s.ilen = 0 ∧ s.pad ≠ 0)) ∧
      execDecode s = .next (s.failDecode .paddingRange)) ∨
    (s.ilen.toNat ≤ Config.ibufCap ∧ s.treeValid = true ∧ ¬ (Config.padMax < s.pad.toNat ∨ (s.ilen = 0 ∧ s.pad ≠ 0)) ∧
      ((s.tree.rroot = none ∧ s.ilen ≠ 0 ∧ execDecode s = .next (s.failDecode .emptyAlphabetMismatch)) ∨
       (s.tree.rroot = none ∧ s.ilen = 0 ∧ execDecode s = .next (s.output []).succeed) ∨
       (∃ root out, s.tree.rroot = some root ∧ walk s.tree.rn root root s.contentBits = .ok out ∧
          execDecode s = .next (s.output out).succeed) ∨
       (∃ root e, s.tree.rroot = some root ∧ walk s.tree.rn root root s.contentBits = .error e ∧
          execDecode s = .next (s.failDecode e)))) := by
  unfold execDecode
  split
  · exact .inl ⟨‹_›, rfl⟩
  · have hl : s.ilen.toNat ≤ Config.ibufCap := by omega
    split
    · exact .inr (.inl ⟨hl, ‹_›, rfl⟩)
    · rename_i hv
      have hv : s.treeValid = true := by simpa using hv
      split
      · exact .inr (.inr (.inl ⟨hl, hv, ‹_›, rfl⟩))
      · rename_i hp
        refine .inr (.inr (.inr ⟨hl, hv, hp, ?_⟩))
        cases hr : s.tree.rroot with
        | none =>
          by_cases hi : s.ilen = 0
          · exact .inr (.inl ⟨rfl, hi, if_neg (not_not.2 hi)⟩)
          · exact .inl ⟨rfl, hi, if_pos hi⟩
        | some root =>
          dsimp only
          cases hw : walk s.tree.rn root root s.contentBits with
          | ok out => exact .inr (.inr (.inl ⟨root, out, rfl, hw, rfl⟩))
          | error e => exact .inr (.inr (.inr ⟨root, e, rfl, hw, rfl⟩))

/-- Every emitted symbol consumes at least one content bit (00_scope.md R17 (c)). -/
theorem walk_length_le (rn : List RebuildNode) (root pos : Nat) (bits : Bits) (out : List Byte)
    (h : walk rn root pos bits = .ok out) : out.length ≤ bits.length := by
  induction bits generalizing pos out with
  | nil =>
    simp only [walk] at h
    split at h
    · cases h; simp
    · cases h
  | cons b bs ih =>
    simp only [walk] at h
    split at h
    · cases hw : walk rn root root bs with
      | ok o =>
        rw [hw] at h
        cases h
        simpa using ih root o hw
      | error e => rw [hw] at h; cases h
    · cases h
    · exact Nat.le_succ_of_le (ih _ _ h)
    · exact Nat.le_succ_of_le (ih _ _ h)

@[simp] theorem State.contentBits_length (s : State) : s.contentBits.length = s.contentLength := by
  simp only [State.contentBits, List.length_map, List.length_range]

/-! ### All commands -/

/-- No command stops: there is a next state (00_scope.md R7). -/
theorem exec_next (i : Instr) (s : State) : ∃ t, exec i s = .next t := by
  have h : ∀ o : Host.Outcome State Fault Refusal, (∀ r, o ≠ .refused r) → ∃ t, o = .next t := by
    rintro (t | r | r) h
    · exact ⟨t, rfl⟩
    · cases r
    · exact absurd rfl (h r)
  refine h _ fun m => ?_
  cases i with
  | nop => exact nofun
  | build => exact nofun
  | encode =>
    simp only [exec, execEncode]
    repeat' split
    all_goals exact nofun
  | rebuild =>
    simp only [exec, execRebuild]
    split <;> exact nofun
  | decode =>
    simp only [exec, execDecode]
    repeat' split
    all_goals exact nofun
  | clear => exact nofun

end Sys2Proof.Machine
end

