-- ==== Sys2Proof/Laws/Arena.lean ====
section
/-! SUPPORT. The arena stores fit the hardware (10_state.md R42, R43; 42_rebuild.md R163): what is cut to it, what BUILD makes
and what REBUILD makes. -/

namespace Sys2Proof.Machine

/-! ### Stores cut to the hardware -/

theorem BuildNode.clip_fits (n : BuildNode) : n.clip.fits := by
  cases n with
  | free => trivial
  | leaf sym w => trivial
  | internal l r w => exact ⟨Nat.mod_lt _ (by decide), Nat.mod_lt _ (by decide)⟩

theorem BuildStore.clip_fits (b : BuildStore) : b.clip.Fits where
  records := by simp only [BuildStore.clip, List.length_map, List.length_take]; omega
  elements := by simp only [BuildStore.clip, List.length_map, List.length_take]; omega
  fields n hn := by
    obtain ⟨m, -, rfl⟩ := List.mem_map.1 hn
    exact m.clip_fits
  indices i hi := by
    obtain ⟨j, -, rfl⟩ := List.mem_map.1 hi
    exact Nat.mod_lt _ (by decide)

theorem RebuildNode.clip_fits (n : RebuildNode) : n.clip.fits := by
  cases n with
  | free => trivial
  | leaf sym => trivial
  | internal l r => exact ⟨Nat.mod_lt _ (by decide), Nat.mod_lt _ (by decide)⟩
  | phold => trivial

theorem RlEntry.clip_fits (e : RlEntry) : e.clip.Fits :=
  ⟨Nat.mod_lt _ (by decide), Nat.mod_lt _ (Nat.two_pow_pos 255), Nat.mod_lt _ (by decide)⟩

theorem RebuildStore.clip_fits (t : RebuildStore) : t.clip.Fits where
  records := by simp only [RebuildStore.clip, List.length_map, List.length_take]; omega
  elements := by simp only [RebuildStore.clip, List.length_map, List.length_take]; omega
  fields n hn := by
    obtain ⟨m, -, rfl⟩ := List.mem_map.1 hn
    exact m.clip_fits
  triples e he := by
    obtain ⟨d, -, rfl⟩ := List.mem_map.1 he
    exact d.clip_fits
  root i hi := by simpa using (Option.mem_filter_iff.1 hi).2

/-! ### BUILD -/

/-- A running build: records and list elements share 512 places, and every index in use has a record. -/
structure BuildStore.Running (b : BuildStore) : Prop where
  room : b.bn.length + b.wl.length ≤ 512
  elements : b.wl.length ≤ 256
  inUse : ∀ i ∈ b.wl, i < b.bn.length
  fields : ∀ n ∈ b.bn, n.fits

theorem BuildStore.Running.mergeStep {b : BuildStore} (h : b.Running) (h2 : 1 < b.wl.length) :
    (mergeStep b).Running ∧ (mergeStep b).wl ≠ [] := by
  obtain ⟨pre, l, r, hwl⟩ : ∃ pre l r, b.wl = pre ++ [l, r] := by
    rcases hb : b.wl.reverse with _ | ⟨r, _ | ⟨l, rest⟩⟩
    · simp [List.reverse_eq_nil_iff.1 hb] at h2
    · simp [List.reverse_eq_iff.1 hb] at h2
    · exact ⟨rest.reverse, l, r, by simpa using List.reverse_eq_iff.1 hb⟩
  obtain ⟨bn, wl⟩ := b
  obtain rfl : wl = pre ++ [l, r] := hwl
  have hroom := h.room
  have helem := h.elements
  have huse := h.inUse
  simp only [List.length_append, List.length_cons, List.length_nil] at hroom helem
  have hl : l < bn.length := huse l (by simp)
  have hr : r < bn.length := huse r (by simp)
  rw [mergeStep_eq]
  have hmem := fun bn' => insertByWeight_perm bn' pre bn.length
  refine ⟨⟨?_, ?_, ?_, ?_⟩, ?_⟩
  · simp only [List.length_append, List.length_cons, List.length_nil, insertByWeight_length]
    omega
  · simp only [insertByWeight_length]
    omega
  · intro i hi
    simp only [List.length_append, List.length_cons, List.length_nil]
    rcases List.mem_cons.1 ((hmem _).mem_iff.1 hi) with rfl | hi
    · omega
    · have := huse i (List.mem_append_left _ hi)
      simp only at this
      omega
  · intro n hn
    rcases List.mem_append.1 hn with hn | hn
    · exact h.fields n hn
    · obtain rfl := List.mem_singleton.1 hn
      exact ⟨by omega, by omega⟩
  · exact fun hnil => by simpa using congrArg List.length hnil

theorem BuildStore.Running.mergeLoop {b : BuildStore} (fuel : Nat) (h : b.Running) (hne : b.wl ≠ []) :
    (mergeLoop fuel b).Running ∧ (mergeLoop fuel b).wl ≠ [] := by
  induction fuel generalizing b with
  | zero => exact ⟨h, hne⟩
  | succ fuel ih =>
    unfold Machine.mergeLoop
    split
    · exact ih (h.mergeStep ‹_›).1 (h.mergeStep ‹_›).2
    · exact ⟨h, hne⟩

theorem BuildStore.Running.toFits {b : BuildStore} (h : b.Running) (hne : b.wl ≠ []) : b.Fits := by
  have := List.length_pos_iff.2 hne
  have hroom := h.room
  exact ⟨by omega, h.elements, h.fields, fun i hi => by have := h.inUse i hi; omega⟩

/-- Inserting indices one after the other adds exactly these. -/
theorem foldl_insertByWeight_perm (bn : List BuildNode) (l acc : List Nat) :
    (l.foldl (insertByWeight bn) acc).Perm (acc ++ l) := by
  induction l generalizing acc with
  | nil => simp
  | cons i l ih => exact (ih _).trans (((insertByWeight_perm bn acc i).append_right l).trans List.perm_middle.symm)

theorem presentSymbols_length_le (freq : Vector Word 256) : (presentSymbols freq).length ≤ 256 := by
  simpa only [presentSymbols, allSymbols_length] using
    List.length_filter_le (fun sym => symAt freq sym != 0) allSymbols

@[simp] theorem makeLeaves_length (freq : Vector Word 256) (p : List Byte) : (makeLeaves freq p).length = p.length :=
  List.length_map _

/-- The tree builder stays within the build store (40_build.md R120). -/
theorem buildTree_fits (freq : Vector Word 256) (p : List Byte) (hp : p ≠ []) (hlen : p.length ≤ 256) :
    (buildTree freq p).Fits := by
  have hperm : (initialOrder (makeLeaves freq p) p.length).Perm (List.range p.length) := foldl_insertByWeight_perm _ _ []
  have hl : (initialOrder (makeLeaves freq p) p.length).length = p.length := by
    rw [hperm.length_eq, List.length_range]
  have hrun : BuildStore.Running { bn := makeLeaves freq p, wl := initialOrder (makeLeaves freq p) p.length } := by
    refine ⟨?_, ?_, ?_, ?_⟩
    · simp only [hl, makeLeaves_length]
      omega
    · simpa only [hl] using hlen
    · intro i hi
      simpa only [makeLeaves_length, List.mem_range] using hperm.mem_iff.1 hi
    · intro n hn
      obtain ⟨sym, -, rfl⟩ := List.mem_map.1 hn
      trivial
  have hne : initialOrder (makeLeaves freq p) p.length ≠ [] :=
    List.ne_nil_of_length_pos (by rw [hl]; exact List.length_pos_iff.2 hp)
  obtain ⟨hend, hend'⟩ := hrun.mergeLoop p.length hne
  exact hend.toFits hend'

/-- What BUILD leaves in the build store fits the hardware (10_state.md R42; 40_build.md R120). -/
theorem buildCodes_fits (freq : Vector Word 256) {old : BuildStore} (h : old.Fits) : (buildCodes freq old).2.Fits := by
  have hlen := presentSymbols_length_le freq
  unfold buildCodes
  split
  · exact h
  · exact h
  · rename_i p hne _
    exact buildTree_fits freq _ (fun hnil => hne hnil) hlen

/-! ### REBUILD -/

/-- A running reconstruction: records and list elements share 512 places, every triple fits, every node in use has a record. -/
structure RebuildRunning (rn : List RebuildNode) (rl : List RlEntry) : Prop where
  room : rn.length + rl.length ≤ 512
  fields : ∀ n ∈ rn, n.fits
  triples : ∀ e ∈ rl, e.len < 2 ^ 8 ∧ e.val < 2 ^ 255 ∧ e.node < rn.length

theorem rebuildStep_running {rn rn' : List RebuildNode} {rl rl' : List RlEntry} (h : RebuildRunning rn rl)
    (hs : rebuildStep rn rl = some (rn', rl')) : RebuildRunning rn' rl' := by
  unfold rebuildStep at hs
  split at hs
  · rename_i b a rest hrev
    split at hs
    · obtain ⟨rfl, rfl⟩ := Prod.mk.inj (Option.some.inj hs)
      obtain rfl : rl = rest.reverse ++ [a, b] := by simpa using List.reverse_eq_iff.1 hrev
      have hroom := h.room
      simp only [List.length_append, List.length_cons, List.length_nil] at hroom
      have ha := h.triples a (by simp)
      have hb := h.triples b (by simp)
      have hperm := insertByKey_perm rest.reverse { len := b.len - 1, val := b.val >>> 1, node := rn.length }
      refine ⟨?_, ?_, ?_⟩
      · have hl := hperm.length_eq
        simp only [List.length_cons] at hl
        simp only [List.length_append, List.length_cons, List.length_nil, hl]
        omega
      · intro n hn
        rcases List.mem_append.1 hn with hn | hn
        · exact h.fields n hn
        · obtain rfl := List.mem_singleton.1 hn
          exact ⟨by omega, by omega⟩
      · intro e he
        simp only [List.length_append, List.length_cons, List.length_nil]
        rcases List.mem_cons.1 (hperm.mem_iff.1 he) with rfl | he
        · have hv : b.val >>> 1 ≤ b.val := Nat.shiftRight_le _ _
          exact ⟨by dsimp only; omega, Nat.lt_of_le_of_lt hv hb.2.1, by dsimp only; omega⟩
        · obtain ⟨h1, h2, h3⟩ := h.triples e (List.mem_append_left _ he)
          exact ⟨h1, h2, by omega⟩
    · cases hs
  · cases hs

theorem rebuildLoop_running (fuel : Nat) {rn rn' : List RebuildNode} {rl rl' : List RlEntry} (h : RebuildRunning rn rl)
    (hs : rebuildLoop fuel rn rl = some (rn', rl')) : RebuildRunning rn' rl' := by
  induction fuel generalizing rn rl with
  | zero =>
    obtain ⟨rfl, rfl⟩ := Prod.mk.inj (Option.some.inj hs)
    exact h
  | succ fuel ih =>
    unfold rebuildLoop at hs
    split at hs
    · split at hs
      · exact ih (rebuildStep_running h ‹_›) hs
      · cases hs
    · obtain ⟨rfl, rfl⟩ := Prod.mk.inj (Option.some.inj hs)
      exact h

theorem rebuildFrom_fits {rn : List RebuildNode} {rl : List RlEntry} {t : RebuildStore} (h : RebuildRunning rn rl)
    (hs : rebuildFrom rn rl = some t) : t.Fits := by
  unfold rebuildFrom at hs
  have hsort : RebuildRunning rn (sortByKey rl) :=
    ⟨(sortByKey_perm rl).length_eq ▸ h.room, h.fields, fun e he => h.triples e ((sortByKey_perm rl).mem_iff.1 he)⟩
  split at hs
  · rename_i rn' e hloop
    split at hs
    · obtain rfl := Option.some.inj hs
      have h' := rebuildLoop_running _ hsort hloop
      have hroom := h'.room
      obtain ⟨h1, h2, h3⟩ := h'.triples e (List.mem_singleton.2 rfl)
      simp only [List.length_cons, List.length_nil] at hroom
      refine ⟨by dsimp only; omega, by simp, h'.fields, fun d hd => ?_, fun i hi => ?_⟩
      · obtain rfl := List.mem_singleton.1 hd
        exact ⟨h1, h2, by omega⟩
      · obtain rfl := Option.mem_some_iff.1 hi
        omega
    · cases hs
  · cases hs
  · cases hs

/-- What a successful REBUILD leaves in the rebuild store fits the hardware (10_state.md R43; 42_rebuild.md R163, R173). -/
theorem rebuildTable_fits {table : List (Byte × Bits)} {old t : RebuildStore} (hlen : table.length ≤ 256)
    (hcode : ∀ e ∈ table, e.2.length < 2 ^ 8) (h : old.Fits) (hs : rebuildTable table old = some t) : t.Fits := by
  have hval : ∀ e ∈ table, Bits.val e.2 < 2 ^ 255 := fun e he =>
    Nat.lt_of_lt_of_le (Bits.val_lt e.2) (Nat.pow_le_pow_right (by decide) (Nat.le_of_lt_succ (hcode e he)))
  unfold rebuildTable at hs
  split at hs
  · obtain rfl := Option.some.inj hs
    exact ⟨h.records, h.elements, h.fields, h.triples, nofun⟩
  · rename_i sym c
    split at hs
    · refine rebuildFrom_fits ⟨by simp, by simp [RebuildNode.fits], ?_⟩ hs
      have hc := hval (sym, c) (List.mem_singleton.2 rfl)
      have h1 : 1 - Bits.val c < 2 ^ 255 := Nat.lt_of_le_of_lt (Nat.sub_le _ _) (by decide)
      simpa using ⟨hc, h1⟩
    · cases hs
  · refine rebuildFrom_fits ⟨?_, ?_, ?_⟩ hs
    · simp only [rebuildLeaves, initialEntries, List.length_map, List.length_mapIdx]
      omega
    · intro n hn
      obtain ⟨e, -, rfl⟩ := List.mem_map.1 hn
      trivial
    · intro d hd
      obtain ⟨i, hi, rfl⟩ := List.mem_mapIdx.1 hd
      have he := List.getElem_mem hi
      exact ⟨hcode _ he, hval _ he, by simpa only [rebuildLeaves, List.length_map] using hi⟩

/-- The table of a state meets the premises of `rebuildTable_fits` (10_state.md R37). -/
theorem State.codeTable_code_length (s : State) : ∀ e ∈ s.codeTable, e.2.length < 2 ^ 8 := by
  intro e he
  rw [((s.mem_codeTable e).1 he).2, State.code_length]
  exact (s.ctLenAt e.1).isLt

end Sys2Proof.Machine
end

