-- ==== Sys2Proof/Laws/PerInstr.lean ====
section
/-! SUPPORT. A statement about each instruction as syntax: the fields of its command word are legal and survive packing into
the word (30_encoding.md R90, R92). -/

namespace Sys2Proof.Laws.Encoding

/-- The command word of `i` is legal and has the fields of `i`. -/
def Statement (i : Instr) : Prop :=
  i.fields.wellFormed = true ∧ CommandWord.ofWord (encode i) = i.fields

theorem nop : Statement .nop := ⟨by decide, by decide⟩
theorem build : Statement .build := ⟨by decide, by decide⟩
theorem encode : Statement .encode := ⟨by decide, by decide⟩
theorem rebuild : Statement .rebuild := ⟨by decide, by decide⟩
theorem decode : Statement .decode := ⟨by decide, by decide⟩
theorem clear : Statement .clear := ⟨by decide, by decide⟩

end Sys2Proof.Laws.Encoding
end

