-- ==== Sys2Proof/Laws/Port.lean ====
section
/-! SUPPORT. The address map (20_memory.md R66): its rows do not overlap, and an address finds its row. -/

namespace Sys2Proof.Machine

/-- The rows stand in ascending order and do not overlap (20_memory.md R66). -/
theorem addressMap_ascending : addressMap.Pairwise fun r q => r.base + r.size ≤ q.base := by
  decide

/-- An address inside a row finds that row. -/
theorem mapRowOf_of_mem {r : MapRow} (hr : r ∈ addressMap) {a : Nat} (h : r.base ≤ a) (h' : a < r.base + r.size) :
    mapRowOf a = some r := by
  suffices key : ∀ l : List MapRow, l.Pairwise (fun r q => r.base + r.size ≤ q.base) → r ∈ l →
      l.find? (fun r => decide (r.base ≤ a ∧ a < r.base + r.size)) = some r from key _ addressMap_ascending hr
  intro l hl hm
  induction l with
  | nil => cases hm
  | cons q l ih =>
    obtain ⟨hq, hl⟩ := List.pairwise_cons.1 hl
    rcases List.mem_cons.1 hm with rfl | hm
    · exact List.find?_cons_of_pos (by simpa using ⟨h, h'⟩)
    · have := hq r hm
      rw [List.find?_cons_of_neg (by simp; omega), ih hl hm]

/-- Every listed address lies in the row it finds. -/
theorem mapRowOf_eq_some {a : Nat} {r : MapRow} (h : mapRowOf a = some r) :
    r ∈ addressMap ∧ r.base ≤ a ∧ a < r.base + r.size := by
  have := List.find?_some h
  exact ⟨List.mem_of_find?_eq_some h, by simpa using this⟩

/-- An address outside every row finds none. -/
theorem mapRowOf_eq_none {a : Nat} : mapRowOf a = none ↔ ∀ r ∈ addressMap, ¬ (r.base ≤ a ∧ a < r.base + r.size) := by
  simp only [mapRowOf, List.find?_eq_none, decide_eq_true_eq]

/-- A read changes nothing but the response and the counter of ERROR reads. -/
theorem State.hostRead_cases (s : State) (addr : HostAddr) :
    (∃ w, s.readWord addr = some w ∧ s.hostRead addr = { s with resp := some (.read .okay w) }) ∨
    (s.readWord addr = none ∧ s.hostRead addr =
      { s with
        resp := some (.read .error (Config.freeBusWord s.free.bus))
        free := { s.free with bus := s.free.bus + 1 } }) := by
  unfold State.hostRead
  cases s.readWord addr with
  | some w => exact .inl ⟨w, rfl, rfl⟩
  | none => exact .inr ⟨rfl, rfl⟩

theorem step_nil {s : State} (h : s.inputs = []) : step s = .next s := by
  rw [step, State.nextEvent, h]

theorem step_cons {s : State} {e : HostEvent} {rest : List HostEvent} (h : s.inputs = e :: rest) :
    step s = State.perform { s with inputs := rest } e := by
  rw [step, State.nextEvent, h]

/-- The CMD row is found at CMD. -/
theorem mapRowOf_cmd : mapRowOf cmdAddr.toNat = some ⟨.cmd, 0x000004, 4, true⟩ := by
  decide

/-- A CMD write runs the command. -/
theorem State.hostWrite_cmd (s : State) (w : Word) : s.hostWrite cmdAddr w = s.command w := by
  simp only [State.hostWrite, mapRowOf_cmd, show cmdAddr.toNat % 4 = 0 from rfl, if_true]

/-! ### Bytes of the address space -/

/-- Two states give the same byte at an address in a row of the map when they give the same word there. -/
theorem State.byteAt_congr {s t : State} {r : MapRow} (hr : r ∈ addressMap) (hb : r.base % 4 = 0) (hs : r.size % 4 = 0)
    {a : Nat} (h : r.base ≤ a) (h' : a < r.base + r.size) (hw : ∀ x, t.regionWord r.region x = s.regionWord r.region x) :
    t.byteAt a = s.byteAt a := by
  unfold State.byteAt
  split
  · have ha : (BitVec.ofNat 22 (a / 4 * 4)).toNat = a / 4 * 4 := by
      rw [BitVec.toNat_ofNat, Nat.mod_eq_of_lt (by omega)]
    have hrow : mapRowOf (a / 4 * 4) = some r := mapRowOf_of_mem hr (by omega) (by omega)
    simp only [State.readWord, ha, hrow, Option.map_some, hw]
  · rfl

/-- The bytes of the CT windows come from the code table alone (20_memory.md R66). -/
theorem State.byteAt_ct {s t : State} (hl : t.ctLen = s.ctLen) (hv : t.ctVal = s.ctVal) {a : Nat} (h : InCtWindow a) :
    t.byteAt a = s.byteAt a := by
  rcases h with ⟨h, h'⟩ | ⟨h, h'⟩
  · exact State.byteAt_congr (r := ⟨.ctLen, ctLenBase, 1024, true⟩) (by decide) (by decide) (by decide) h h' fun x => by
      simp only [State.regionWord, State.ctLenAt, hl]
  · exact State.byteAt_congr (r := ⟨.ctVal, ctValBase, 8192, true⟩) (by decide) (by decide) (by decide) h h' fun x => by
      simp only [State.regionWord, State.ctValWordAt, hv]

/-- The bytes of the FREQ window come from the counts alone (20_memory.md R66). -/
theorem State.byteAt_freq {s t : State} (hf : t.freq = s.freq) {a : Nat} (h : freqBase ≤ a) (h' : a < freqBase + 1024) :
    t.byteAt a = s.byteAt a :=
  State.byteAt_congr (r := ⟨.freq, freqBase, 1024, true⟩) (by decide) (by decide) (by decide) h h' fun x => by
    simp only [State.regionWord, State.freqAt, hf]

/-- The bytes of the IBUF window come from IBUF and the free bytes of the last reset (20_memory.md R66). -/
theorem State.byteAt_ibuf {s t : State} (hi : t.ibuf = s.ibuf) (hr : t.free.reset = s.free.reset) {a : Nat}
    (h : ibufBase ≤ a) (h' : a < ibufBase + 65536) : t.byteAt a = s.byteAt a :=
  State.byteAt_congr (r := ⟨.ibuf, ibufBase, 65536, true⟩) (by decide) (by decide) (by decide) h h' fun x => by
    simp only [State.regionWord, State.ibufAt, hi, hr]

/-- The bytes of the OBUF window come from OBUF and its free bytes (20_memory.md R66). -/
theorem State.byteAt_obuf {s t : State} (ho : t.obuf = s.obuf) (hr : t.free.obuf = s.free.obuf) {a : Nat}
    (h : obufBase ≤ a) (h' : a < obufBase + 2097152) : t.byteAt a = s.byteAt a :=
  State.byteAt_congr (r := ⟨.obuf, obufBase, 2097152, false⟩) (by decide) (by decide) (by decide) h h' fun x => by
    simp only [State.regionWord, State.obufAt, ho, hr]

end Sys2Proof.Machine
end

