-- ==== Sys2Proof/Tests/Slice0.lean ====
section
/-! SUPPORT. Tests on small states, their expected results from the spec's examples and vectors, and for each statement with
hypotheses a state and operands that meet them. -/

-- One theorem after the other: each thread reserves a large stack.
set_option Elab.async false

namespace Sys2Proof.Tests

open Sys2Proof.Machine

/-! ### Helpers -/

/-- The state a command leaves (the start state if it stopped, which no command does). -/
def after (i : Instr) (s : State) : State :=
  match exec i s with
  | .next t => t
  | .fault _ => s
  | .refused _ => s

theorem exec_after (i : Instr) (s : State) : exec i s = .next (after i s) := by
  obtain ⟨t, h⟩ := exec_next i s
  rw [after, h]

/-- The state after one step. -/
def stepped (s : State) : State :=
  match step s with
  | .next t => t
  | .fault _ => s
  | .refused _ => s

/-- Reset with some counts in FREQ. -/
def withCounts (counts : List (Byte × Word)) : State :=
  { State.reset with freq := counts.foldl (fun v e => symSet v e.1 e.2) State.reset.freq }

/-- Reset with a code table. -/
def withTable (codes : List (Byte × Bits)) : State :=
  State.reset.writeCodeTable codes

/-- A state with bytes in IBUF, ILEN and PAD. -/
def withData (s : State) (bytes : List Byte) (pad : Word) : State :=
  { s with ibuf := Memory.ofBytes ibufBase bytes, ilen := BitVec.ofNat 32 bytes.length, pad := pad }

/-- A state whose host does one thing next. -/
def withEvent (s : State) (e : HostEvent) : State :=
  { s with inputs := [e] }

/-- The table of the "OVO" example: 0x4F "0", 0x56 "1" (95_test_vectors.md S-3). -/
def ovoTable : State :=
  withTable [(0x4F, [false]), (0x56, [true])]

/-- The tree REBUILD makes of that table. -/
def ovoTree : State :=
  { ovoTable with
    treeValid := true
    tree := { rn := [.leaf 0x4F, .leaf 0x56, .internal 0 1], rl := [⟨0, 0, 2⟩], rroot := some 2 } }

/-- The degenerate table: 0x41 "0" (95_test_vectors.md S-2). -/
def loneTable : State :=
  withTable [(0x41, [false])]

/-- The tree REBUILD makes of it. -/
def loneTree : State :=
  { loneTable with
    treeValid := true
    tree := { rn := [.leaf 0x41, .phold, .internal 0 1], rl := [⟨0, 0, 2⟩], rroot := some 2 } }

/-- The valid tree of the empty table. -/
def emptyTree : State :=
  { State.reset with treeValid := true, tree := { rn := [], rl := [], rroot := none } }

/-- A complete table of three codes: 0x41 "0", 0x42 "10", 0x43 "11" (95_test_vectors.md V-R11). -/
def threeTable : State :=
  withTable [(0x41, [false]), (0x42, [true, false]), (0x43, [true, true])]

/-- The tree REBUILD makes of it (95_test_vectors.md V-R11). -/
def threeTree : State :=
  { threeTable with
    treeValid := true
    tree :=
      { rn := [.leaf 0x41, .leaf 0x42, .leaf 0x43, .internal 1 2, .internal 0 3], rl := [⟨0, 0, 4⟩], rroot := some 4 } }

/-- Counts of "abracadabra" (40_build.md R128). -/
def abraCounts : State :=
  withCounts [(0x61, 5), (0x62, 2), (0x63, 1), (0x64, 1), (0x72, 2)]

/-! ### Checks of WellFormed: each refuses an ill-formed word -/

/-- RSV not 0 (95_test_vectors.md V-X2: 0x00000100). -/
theorem test_wellFormed_refuses_reserved :
    (CommandWord.reservedIsZero ⟨1, 0⟩) = false ∧ (CommandWord.wellFormed ⟨1, 0⟩) = false := by decide

/-- OP not assigned (95_test_vectors.md V-X1: 0x00000006). -/
theorem test_wellFormed_refuses_opcode :
    (CommandWord.opcodeIsAssigned ⟨0, 6⟩) = false ∧ (CommandWord.wellFormed ⟨0, 6⟩) = false := by decide

/-- The last legal word. -/
theorem test_wellFormed_accepts : (CommandWord.wellFormed ⟨0, 5⟩) = true := by decide

/-- A code of no bits and one of 256 bits are refused by `SETCODE` (00_scope.md R14, R17). -/
theorem test_setCode_refuses : (ScriptLine.setCode 0 []).wellFormed = false ∧
    (ScriptLine.setCode 0 (List.replicate 256 true)).wellFormed = false := by decide +kernel

/-- More bytes than IBUF holds are refused by `LDIBUF`. -/
theorem test_ldIbuf_refuses : (ScriptLine.ldIbuf (List.replicate 65537 0)).wellFormed = false := by
  simp only [ScriptLine.wellFormed, List.length_replicate, Config.ibufCap]
  decide

/-- More bytes than OBUF holds are refused by `EXPECTOBUF`. -/
theorem test_expectObuf_refuses : (ScriptLine.expectObuf (List.replicate 2097153 0)).wellFormed = false := by
  simp only [ScriptLine.wellFormed, List.length_replicate, Config.obufCap]
  decide

/-- The free contents of RL are cut to the bits of 42_rebuild.md R163. -/
theorem test_clip_triple : RlEntry.clip ⟨2 ^ 8 + 1, 2 ^ 255 + 2, 2 ^ 9 + 3⟩ = ⟨1, 2, 3⟩ := by decide

/-! ### Decoding: words written out bit by bit from 30_encoding.md R92 -/

theorem test_decode_nop : decode 0b00000000000000000000000000000000#32 = .instr .nop := by decide
theorem test_decode_build : decode 0b00000000000000000000000000000001#32 = .instr .build := by decide
theorem test_decode_encode : decode 0b00000000000000000000000000000010#32 = .instr .encode := by decide
theorem test_decode_rebuild : decode 0b00000000000000000000000000000011#32 = .instr .rebuild := by decide
theorem test_decode_decode : decode 0b00000000000000000000000000000100#32 = .instr .decode := by decide
theorem test_decode_clear : decode 0b00000000000000000000000000000101#32 = .instr .clear := by decide

/-- 95_test_vectors.md V-X1 to V-X4. -/
theorem test_decode_illegal : decode 0x00000006#32 = .illegal 0x6#32 ∧ decode 0x00000100#32 = .illegal 0x100#32 ∧
    decode 0x80000001#32 = .illegal 0x80000001#32 ∧ decode 0xFFFFFFFF#32 = .illegal 0xFFFFFFFF#32 := by decide

/-! ### One step or one command each -/

/-- 95_test_vectors.md V-S2: STATUS 0x16, NOP, STATUS 0x10. -/
theorem test_nop_clears_error : (after .nop { ovoTree with err := 6 }).statusWord = 0x10#32 := by decide +kernel

/-- 95_test_vectors.md V-S4: after CLEAR the status and the lengths are 0, CT_VAL stays. -/
theorem test_clear : let t := after .clear (withData ovoTree [0x40] 5)
    t.statusWord = 0 ∧ t.ilen = 0 ∧ t.pad = 0 ∧ t.ctLenAt 0x56 = 0 ∧ t.ctValWordAt 0x56 0 = 1 ∧ t.ibufAt 0 = 0x40 := by
  decide +kernel

/-- 95_test_vectors.md V-B13 (40_build.md R128). -/
theorem test_build_abracadabra : (after .build abraCounts).codeTable =
    [(0x61, [true]), (0x62, [false, true]), (0x63, [false, false, true, false]), (0x64, [false, false, true, true]),
      (0x72, [false, false, false])] := by decide +kernel

/-- 95_test_vectors.md V-B9c: a merged node goes after a leaf of the same weight. -/
theorem test_build_tie : (after .build (withCounts [(0x41, 1), (0x42, 1), (0x43, 2)])).codeTable =
    [(0x41, [true, false]), (0x42, [true, true]), (0x43, [false])] := by decide +kernel

/-- 95_test_vectors.md V-E2: 4F 56 4F gives 40, OLEN 1, PAD 5. -/
theorem test_encode_ovo : let t := after .encode (withData ovoTable [0x4F, 0x56, 0x4F] 0)
    t.err = 0 ∧ t.obufAt 0 = 0x40 ∧ t.olen = 1 ∧ t.pad = 5 := by decide +kernel

/-- 95_test_vectors.md V-E18: 4F 58 56 is UnknownSymbolError at position 1. -/
theorem test_encode_unknown : let t := after .encode (withData ovoTable [0x4F, 0x58, 0x56] 6)
    t.err = 2 ∧ t.errInfo = 0x158 ∧ t.olen = 0 ∧ t.pad = 0 := by decide +kernel

/-- 95_test_vectors.md V-R11: the arena of three codes. -/
theorem test_rebuild_three : (after .rebuild threeTable).tree.rn = threeTree.tree.rn ∧
    (after .rebuild threeTable).tree.rroot = some 4 ∧ (after .rebuild threeTable).statusWord = 0x10 := by decide +kernel

/-- 95_test_vectors.md V-R6: "00" and "01" leave the key "0". -/
theorem test_rebuild_malformed :
    (after .rebuild (withTable [(0x41, [false, false]), (0x42, [false, true])])).statusWord = 0x03 := by decide +kernel

/-- 95_test_vectors.md V-D11: 5A D0 with PAD 3. -/
theorem test_decode_three : let t := after .decode (withData threeTree [0x5A, 0xD0] 3)
    t.err = 0 ∧ t.olen = 8 ∧ t.obufAt 1 = 0x42 ∧ t.obufAt 7 = 0x42 := by decide +kernel

/-- 95_test_vectors.md V-D8: the fourth content bit reaches the placeholder. -/
theorem test_decode_placeholder : let t := after .decode (withData loneTree [0x10] 3)
    t.statusWord = 0x16 ∧ t.olen = 0 ∧ t.pad = 3 := by decide +kernel

/-- 95_test_vectors.md V-H7: bits 31:8 of a CT_LEN word are ignored. -/
theorem test_write_ctLen :
    (stepped (withEvent State.reset (.write 0x000814#22 0x000001FF#32))).readWord 0x000814#22 = some 0xFF := by
  decide +kernel

/-- 95_test_vectors.md V-H10: lanes of an IBUF word. -/
theorem test_write_ibuf : let t := stepped (withEvent State.reset (.write 0x010000#22 0x44434241#32))
    t.ibufAt 0 = 0x41 ∧ t.ibufAt 3 = 0x44 := by decide +kernel

/-- 95_test_vectors.md V-H11: a CT write of the same value drops the tree. -/
theorem test_ct_write_drops_tree :
    (stepped (withEvent loneTree (.write 0x000904#22 1#32))).statusWord = 0 := by decide +kernel

/-- 95_test_vectors.md V-H2, V-H4, V-H5: ERROR responses. -/
theorem test_bus_errors : (stepped (withEvent State.reset (.write 0x000000#22 0#32))).resp = some (.write .error) ∧
    State.reset.readWord 0x00001C#22 = none ∧ State.reset.readWord 0x1FFFFC#22 = none ∧
    State.reset.readWord 0x010001#22 = none := by decide +kernel

/-- 95_test_vectors.md V-X1: an illegal word. -/
theorem test_illegal_word : let t := stepped (withEvent ovoTree (.write cmdAddr 0x00000106#32))
    t.statusWord = 0x18 ∧ t.errInfo = 0x106 ∧ t.resp = some (.write .okay) := by decide +kernel

/-- 30_encoding.md R98: `SETCODE` is nine writes. -/
theorem test_setCode_expands : ((ScriptLine.setCode 0x56 [true]).expand State.reset).length = 9 ∧
    ((ScriptLine.setCode 0x56 [true]).expand State.reset).head? = some (.write 0x002AC0#22 1#32) ∧
    ((ScriptLine.setCode 0x56 [true]).expand State.reset).getLast? = some (.write 0x000958#22 1#32) := by decide +kernel

theorem ctLenAt_withTable (codes : List (Byte × Bits)) (sym : Byte) :
    (withTable codes).ctLenAt sym = BitVec.ofNat 8 (codeIn codes sym).length :=
  symAt_symTable _ sym

/-! ### A state and operands for the hypotheses of each statement -/

/-- `StepRunsTheDecodedCommand`. -/
theorem witness_step : (withEvent State.reset (.write cmdAddr 1#32)).inputs = [.write cmdAddr 1#32] ∧
    decode 1#32 = .instr .build := by decide

/-- `DecodeAndEncodeAgree`, both parts. -/
theorem witness_decode_encode : Instr.wellFormed .clear = true ∧ decode 5#32 = .instr .clear := by decide

/-- `PlacedWordRunsNext`. -/
theorem witness_placed : exec .nop State.reset = .next State.reset.succeed := rfl

/-- `IllegalWordOnlyReportsTheError`: the least word of each kind. -/
theorem witness_illegal : (withEvent State.reset (.write cmdAddr 0x06#32)).inputs = [.write cmdAddr 0x06#32] ∧
    0x06 ≤ (0x06#32).toNat % 256 ∧ (withEvent State.reset (.write cmdAddr 0x100#32)).inputs = [.write cmdAddr 0x100#32] ∧
    (0x100#32).toNat / 256 ≠ 0 := by decide

/-- `EveryTransactionGetsAResponse` and `ResetEventRestoresTheSpecifiedValues`. -/
theorem witness_events : State.reset.inputs = [] ∧ (withEvent State.reset .reset).inputs = [.reset] ∧
    (withEvent State.reset (.read 0#22)).inputs = [.read 0#22] ∧
    (withEvent State.reset (.write 0#22 0#32)).inputs = [.write 0#22 0#32] := by decide

/-- `AlignedMappedReadChangesNothing`: the last word of each mapped range. -/
theorem witness_mapped : (withEvent State.reset (.read 0x18#22)).inputs = [.read 0x18#22] ∧
    Mapped 0x18 ∧ Mapped 0xBFC ∧ Mapped 0x3FFC ∧ Mapped 0x1FFFC ∧ Mapped 0x3FFFFC := by
  refine ⟨rfl, ?_, ?_, ?_, ?_, ?_⟩ <;> unfold Mapped <;> omega

/-- `ErrorTransactionsChangeNothing`: misaligned, the first and the last word of an unmapped range, read-only. -/
theorem witness_bus_error : (withEvent State.reset (.read 0x2#22)).inputs = [.read 0x2#22] ∧ (0x2#22).toNat % 4 ≠ 0 ∧
    (withEvent State.reset (.write 0x8#22 0#32)).inputs = [.write 0x8#22 0#32] ∧ ¬ Mapped 0x1C ∧ ¬ Mapped 0x1FFFFC ∧
    ¬ Writable 0x8 ∧ ¬ Writable 0x200000 := by
  refine ⟨rfl, by decide, rfl, ?_, ?_, ?_, ?_⟩ <;> (first | unfold Mapped | unfold Writable) <;> omega

/-- `WriteStoresOneWordAndNothingElse` and `CtWriteDropsTheTree`: a word in a CT window, and one that is not. -/
theorem witness_write : (withEvent State.reset (.write 0x3FFC#22 7#32)).inputs = [.write 0x3FFC#22 7#32] ∧
    (0x3FFC#22).toNat % 4 = 0 ∧ Writable 0x3FFC ∧ (0x3FFC#22 : HostAddr) ≠ cmdAddr ∧ InCtWindow 0x3FFC ∧
    InCtWindow 0x800 ∧ Writable 0x7FC ∧ ¬ InCtWindow 0x7FC ∧ Writable 0x18 ∧ ¬ InCtWindow 0x18 := by
  refine ⟨rfl, by decide, ?_, by decide, ?_, ?_, ?_, ?_, ?_, ?_⟩ <;> (first | unfold InCtWindow | unfold Writable) <;> omega

/-- `IbufWordLanesAreLittleEndian`: the last word. -/
theorem witness_ibuf_word : 16383 < 16384 ∧
    (withEvent State.reset (.write (hostAddr (0x010000 + 4 * 16383)) 1#32)).inputs =
      [.write (hostAddr (0x010000 + 4 * 16383)) 1#32] := by decide

/-- `SetCodeLoadsTheCode`, `LoadIbufLoadsTheBytes`, `MoveOutputToInput`: the shortest and the longest code, bytes, an output. -/
theorem witness_script : (ScriptLine.setCode 0 [true]).wellFormed = true ∧
    (ScriptLine.setCode 255 (List.replicate 255 true)).wellFormed = true ∧ (ScriptLine.ldIbuf [1, 2, 3]).wellFormed = true ∧
    ScriptLine.movoi.legalAt (State.reset.output [1, 2, 3]) = true := by decide +kernel

/-- `BuildOfTheEmptyMap`, `RebuildOfTheEmptyTable`. -/
theorem witness_empty : (∀ sym, State.reset.freqAt sym = 0) ∧ ∀ sym, State.reset.ctLenAt sym = 0 :=
  ⟨fun sym => symAt_replicate 0 sym, fun sym => symAt_replicate 0 sym⟩

/-- `BuildOfASingleSymbol`. -/
theorem witness_single : (withCounts [(0x41, 0xFFFFFFFF)]).freqAt 0x41 ≠ 0 ∧
    ∀ sym, sym ≠ 0x41 → (withCounts [(0x41, 0xFFFFFFFF)]).freqAt sym = 0 :=
  ⟨by decide +kernel, fun sym h => (symAt_symSet_of_ne _ _ h).trans (symAt_replicate 0 sym)⟩

/-- `BuildOfTwoSymbols`: equal counts, and the second one larger. -/
theorem witness_two : (0x00#8).toNat < (0xFF#8).toNat ∧ (withCounts [(0x00, 1), (0xFF, 1)]).freqAt 0x00 ≠ 0 ∧
    (withCounts [(0x00, 1), (0xFF, 1)]).freqAt 0xFF ≠ 0 ∧
    (∀ sym, sym ≠ 0x00 → sym ≠ 0xFF → (withCounts [(0x00, 1), (0xFF, 1)]).freqAt sym = 0) ∧
    (withCounts [(0x00, 1), (0xFF, 2)]).freqAt 0x00 < (withCounts [(0x00, 1), (0xFF, 2)]).freqAt 0xFF ∧
    ∀ sym, sym ≠ 0x00 → sym ≠ 0xFF → (withCounts [(0x00, 1), (0xFF, 2)]).freqAt sym = 0 := by
  have key : ∀ x y sym, sym ≠ 0x00 → sym ≠ 0xFF → (withCounts [(0x00, x), (0xFF, y)]).freqAt sym = 0 := fun x y sym h h' =>
    (symAt_symSet_of_ne _ _ h').trans ((symAt_symSet_of_ne _ _ h).trans (symAt_replicate 0 sym))
  exact ⟨by decide, by decide +kernel, by decide +kernel, key 1 1, by decide +kernel, key 1 2⟩

/-- `MergeStepKeepsTheListDescending`: the first merge of 40_build.md R128. -/
theorem witness_merge : let b : BuildStore :=
      { bn := [.leaf 0x61 5, .leaf 0x62 2, .leaf 0x63 1, .leaf 0x64 1, .leaf 0x72 2], wl := [0, 1, 4, 2, 3] }
    b.wl = [0, 1, 4] ++ [2, 3] ∧ (∀ i ∈ b.wl, i < b.bn.length) ∧
      b.wl.Pairwise fun i j => weightAt b.bn j ≤ weightAt b.bn i := by decide

/-- The statements about `n >= 2` present symbols. -/
theorem witness_many : 2 ≤ (presentSymbols abraCounts.freq).length := by decide +kernel

/-- `BuildTableDependsOnFreqOnly`: two different states with one FREQ. -/
theorem witness_same_freq : abraCounts.freq = { abraCounts with ilen := 7 }.freq ∧
    abraCounts ≠ { abraCounts with ilen := 7 } :=
  ⟨rfl, fun h => absurd (congrArg State.ilen h) (by decide +kernel)⟩

/-- `EncodeChecksLengthThenEmptyTable`: the least length too long, an empty table with one byte, no byte. -/
theorem witness_encode_checks : 65536 < ({ State.reset with ilen := 65537 } : State).ilen.toNat ∧
    (∀ sym, (withData State.reset [0x41] 0).ctLenAt sym = 0) ∧ (withData State.reset [0x41] 0).ilen ≠ 0 ∧
    (withData State.reset [0x41] 0).ilen.toNat ≤ 65536 ∧ State.reset.ilen = 0 :=
  ⟨by decide, fun sym => symAt_replicate 0 sym, by decide, by decide, rfl⟩

/-- `EncodeReportsTheFirstUnknownSymbol`: position 1 of 4F 58 56. -/
theorem witness_unknown : let s := withData ovoTable [0x4F, 0x58, 0x56] 0
    s.ilen.toNat ≤ 65536 ∧ 1 < s.ilen.toNat ∧ s.ctLenAt 0x4F ≠ 0 ∧ s.ctLenAt (s.ibufAt 1) = 0 ∧
      ∀ j, j < 1 → s.ctLenAt (s.ibufAt j) ≠ 0 := by decide +kernel

/-- `EncodePacksTheCodes`, `EncodeBitLengthIdentity`. -/
theorem witness_encode_allowed : EncodeAllowed (withData ovoTable [0x4F, 0x56, 0x4F] 0) :=
  ⟨by decide +kernel, by decide +kernel⟩

/-- `EncodeDependsOnItsOperandsOnly`: states that differ in FREQ. -/
theorem witness_encode_same : let s := withData ovoTable [0x4F] 0; let s' := { s with freq := abraCounts.freq }
    s.ilen = s'.ilen ∧ (∀ sym, s.code sym = s'.code sym) ∧ (∀ i, i < s.ilen.toNat → s.ibufAt i = s'.ibufAt i) ∧
      s.freq ≠ s'.freq :=
  ⟨rfl, fun _ => rfl, fun _ _ => rfl, fun h => absurd (congrArg (symAt · 0x61) h) (by decide +kernel)⟩

/-- `RebuildOfALoneCode`: "0", "1", and a longer code. -/
theorem witness_lone : (loneTable.ctLenAt 0x41 ≠ 0 ∧ (∀ sym, sym ≠ 0x41 → loneTable.ctLenAt sym = 0) ∧
      loneTable.code 0x41 = [false]) ∧
    ((withTable [(0x41, [true])]).ctLenAt 0x41 ≠ 0 ∧ (∀ sym, sym ≠ 0x41 → (withTable [(0x41, [true])]).ctLenAt sym = 0) ∧
      (withTable [(0x41, [true])]).code 0x41 = [true]) ∧
    ((withTable [(0x41, [true, true])]).ctLenAt 0x41 ≠ 0 ∧
      (∀ sym, sym ≠ 0x41 → (withTable [(0x41, [true, true])]).ctLenAt sym = 0) ∧
      ((withTable [(0x41, [true, true])]).code 0x41).length ≠ 1) := by
  simp only [loneTable, ctLenAt_withTable]
  decide +kernel

/-- The table of three codes, written out. -/
theorem test_threeTable : threeTable.codeTable = [(0x41, [false]), (0x42, [true, false]), (0x43, [true, true])] := by
  decide +kernel

/-- `RebuiltTreeHasExactlyTheTableCodes`, `RebuiltArenaSize`, `RebuildSucceedsExactlyOnCompleteTables`: a complete table. -/
theorem witness_complete : 2 ≤ threeTable.codeTable.length ∧ CompleteTable threeTable.codeTable ∧
    threeTable.codeTable ≠ [] := by
  rw [test_threeTable]
  refine ⟨by decide, ⟨by decide, .node (.leaf 0x41) (.node (.leaf 0x42) (.leaf 0x43)), rfl, fun c => Iff.rfl⟩, by decide⟩

/-- `RebuiltArenaSize`: the degenerate table. -/
theorem witness_rebuildable_lone : Rebuildable loneTable.codeTable ∧ loneTable.codeTable.length = 1 :=
  ⟨.inr (.inl ⟨0x41, [false], by decide +kernel, rfl⟩), by decide +kernel⟩

/-- `RebuildSucceedsExactlyOnCompleteTables`: a table that is not rebuildable. -/
theorem witness_not_rebuildable : ¬ Rebuildable [((0x41 : Byte), [false, false])] := by
  rintro (h | ⟨sym, c, h, hc⟩ | ⟨-, t, ht, hcodes⟩)
  · cases h
  · cases h; cases hc
  · cases t with
    | leaf a => exact absurd ((hcodes []).2 (by simp [CodeTree.leaves])) (by simp)
    | phold => cases ht
    | node l r =>
      have := (hcodes [false, false]).1 (by simp)
      have hne : ∀ t : CodeTree, t.hasPhold = false → ∃ c, c ∈ t.leaves.map Prod.snd := by
        intro t ht
        induction t with
        | leaf a => exact ⟨[], by simp [CodeTree.leaves]⟩
        | phold => cases ht
        | node l r ihl _ =>
          simp only [CodeTree.hasPhold, Bool.or_eq_false_iff] at ht
          obtain ⟨c, hc⟩ := ihl ht.1
          obtain ⟨e, he, rfl⟩ := List.mem_map.1 hc
          exact ⟨false :: e.2, by simp only [CodeTree.leaves, List.map_append, List.mem_append, List.mem_map]; exact .inl ⟨_, ⟨e, he, rfl⟩, rfl⟩⟩
      simp only [CodeTree.hasPhold, Bool.or_eq_false_iff] at ht
      obtain ⟨c, hc⟩ := hne r ht.2
      obtain ⟨e, he, rfl⟩ := List.mem_map.1 hc
      have := (hcodes (true :: e.2)).2 (by simp only [CodeTree.leaves, List.map_append, List.mem_append, List.mem_map]; exact .inr ⟨_, ⟨e, he, rfl⟩, rfl⟩)
      simp at this

/-- `RebuildDependsOnTheCodesOnly`: states that differ in FREQ. -/
theorem witness_rebuild_same : (∀ sym, threeTable.code sym = { threeTable with freq := abraCounts.freq }.code sym) ∧
    threeTable.freq ≠ abraCounts.freq :=
  ⟨fun _ => rfl, fun h => absurd (congrArg (symAt · 0x61) h) (by decide +kernel)⟩

/-- `DecodeChecksBeforeTheWalk`: each clause at a boundary. -/
theorem witness_decode_checks : 65536 < ({ ovoTree with ilen := 65537 } : State).ilen.toNat ∧
    ({ ovoTable with ilen := 65536 } : State).ilen.toNat ≤ 65536 ∧ ovoTable.treeValid = false ∧
    7 < (withData ovoTree [0x40] 8).pad.toNat ∧
    8 * (withData ovoTree [] 1).ilen.toNat < (withData ovoTree [] 1).pad.toNat ∧
    (withData emptyTree [0x40] 0).tree.rroot = none ∧ (withData emptyTree [0x40] 0).ilen ≠ 0 ∧
    emptyTree.ilen = 0 := by decide +kernel

/-- `DecodeAllowed` with the empty tree, with and without a payload. -/
theorem witness_decode_allowed_empty : DecodeAllowed (withData emptyTree [0x40] 7) ∧ DecodeAllowed emptyTree :=
  ⟨⟨by decide +kernel, rfl, by decide +kernel, by decide +kernel⟩, ⟨by decide +kernel, rfl, by decide +kernel, by decide +kernel⟩⟩

/-- `DecodeEmitsTheSymbolsOfTheCodes`: 40 with PAD 5 is "0", "1", "0". -/
theorem witness_decode_emits : let s := withData ovoTree [0x40] 5
    DecodeAllowed s ∧ s.tree.codeTree = some (.node (.leaf 0x4F) (.leaf 0x56)) ∧
      (∀ e ∈ [((0x4F : Byte), [false]), (0x56, [true]), (0x4F, [false])],
        e ∈ (CodeTree.node (.leaf 0x4F) (.leaf 0x56)).leaves) ∧
      s.contentBits = streamOf [((0x4F : Byte), [false]), (0x56, [true]), (0x4F, [false])] :=
  ⟨⟨by decide +kernel, rfl, by decide +kernel, by decide +kernel⟩, by decide +kernel, by decide +kernel, by decide +kernel⟩

/-- `DecodeReportsATruncatedStream`: the byte 40 with PAD 6 is "0" and the first bit of "10". -/
theorem witness_decode_truncated : let s := withData threeTree [0x40] 6
    DecodeAllowed s ∧ s.tree.codeTree = some (.node (.leaf 0x41) (.node (.leaf 0x42) (.leaf 0x43))) ∧
      (∀ e ∈ [((0x41 : Byte), [false])], e ∈ (CodeTree.node (.leaf 0x41) (.node (.leaf 0x42) (.leaf 0x43))).leaves) ∧
      ((0x42 : Byte), [true] ++ [false]) ∈ (CodeTree.node (.leaf 0x41) (.node (.leaf 0x42) (.leaf 0x43))).leaves ∧
      s.contentBits = streamOf [((0x41 : Byte), [false])] ++ [true] :=
  ⟨⟨by decide +kernel, rfl, by decide +kernel, by decide +kernel⟩, by decide +kernel, by decide +kernel, by decide +kernel,
    by decide +kernel⟩

/-- `DecodeReportsThePlaceholder`: 10 with PAD 3 is "0", "0", "0", then the placeholder's "1", then one more bit. -/
theorem witness_decode_placeholder : let s := withData loneTree [0x10] 3
    DecodeAllowed s ∧ s.tree.codeTree = some (.node (.leaf 0x41) .phold) ∧
      (∀ e ∈ List.replicate 3 ((0x41 : Byte), [false]), e ∈ (CodeTree.node (.leaf 0x41) .phold).leaves) ∧
      [true] ∈ (CodeTree.node (.leaf 0x41) .phold).pholdPaths ∧
      s.contentBits = streamOf (List.replicate 3 ((0x41 : Byte), [false])) ++ [true] ++ [false] :=
  ⟨⟨by decide +kernel, rfl, by decide +kernel, by decide +kernel⟩, by decide +kernel, by decide +kernel, by decide +kernel,
    by decide +kernel⟩

/-- `DecodeDependsOnContentBitsOnly`: 40 and 5F with PAD 5 (95_test_vectors.md V-D6). -/
theorem witness_decode_same : let s := withData ovoTree [0x40] 5; let s' := withData ovoTree [0x5F] 5
    s.ilen = s'.ilen ∧ s.pad = s'.pad ∧ s.treeValid = s'.treeValid ∧ s.tree = s'.tree ∧
      (∀ k, k < s.contentLength → s.contentBit k = s'.contentBit k) ∧ s.ibufAt 0 ≠ s'.ibufAt 0 :=
  ⟨by decide +kernel, rfl, rfl, rfl, by decide +kernel, by decide +kernel⟩

/-- `EncodeThenDecodeGivesTheData`: a table REBUILD accepts and data it covers. -/
theorem witness_roundTrip : let s := withData ovoTable [0x4F, 0x56, 0x4F] 0
    (∃ r, exec .rebuild s = .next r ∧ r.err = 0) ∧ EncodeAllowed s :=
  ⟨⟨_, exec_after _ _, by decide +kernel⟩, witness_encode_allowed⟩

/-- `EncodeThenDecodeGivesTheData`: the output 40 with PAD 5 of the "OVO" example (95_test_vectors.md V-E2), moved. -/
theorem witness_moved : let e := (withData ovoTable [0x4F, 0x56, 0x4F] 5).output [0x40]
    let m := { e with ilen := 1, ibuf := Memory.ofBytes ibufBase [0x40] }
    e.olen = 1 ∧ OutputMoved e m := by
  intro e m
  refine ⟨rfl, rfl, fun i h => ?_, rfl, ⟨rfl, rfl, fun a h => State.byteAt_ct (s := e) (t := m) rfl rfl h⟩, ⟨rfl, rfl⟩⟩
  obtain rfl : i = 0 := Nat.lt_one_iff.1 h
  rfl

/-- `WholeSessionGivesBackTheData`. -/
theorem witness_session : let s := withData abraCounts [0x61, 0x62, 0x72] 0
    s.ilen.toNat ≤ 2056 ∧ ∀ i, i < s.ilen.toNat → s.freqAt (s.ibufAt i) ≠ 0 := by decide +kernel

/-- `OnlyRebuildMakesTheTreeValid`: a REBUILD of the empty table. -/
theorem witness_tree_valid : let s := withEvent State.reset (.write cmdAddr 3#32)
    step s = .next { (after .rebuild State.reset) with resp := some (.write .okay) } ∧ s.treeValid = false ∧
      (after .rebuild State.reset).treeValid = true := by
  refine ⟨?_, rfl, ?_⟩
  swap
  · rw [after, exec, execRebuild, (State.codeTable_eq_nil State.reset).2 fun sym => symAt_replicate (0 : Byte) sym]
    rfl
  rw [step_cons (rest := []) rfl, State.perform, State.hostWrite_cmd, State.command,
    show decode 3#32 = .instr .rebuild by decide, show ({ withEvent State.reset _ with inputs := [] } : State) = State.reset from rfl]
  simp only [exec_after, completeCommand, State.writeOkay]

/-- `EveryStepKeepsTheInvariant`: a state that meets the invariant and steps. -/
theorem witness_inv : emptyTree.Inv ∧ step emptyTree = .next emptyTree := by
  refine ⟨⟨by decide, .nil, nofun, .nil, fun a => ⟨nofun, fun h => absurd h.2 (Nat.not_lt.2 h.1)⟩, by decide, ?_, ?_, ?_⟩,
    step_nil rfl⟩
  · exact BuildStore.clip_fits _
  · exact ⟨by decide, by decide, nofun, nofun, nofun⟩
  · intro _
    refine ⟨⟨[], [], none⟩, ?_⟩
    rw [(State.codeTable_eq_nil emptyTree).2 fun sym => symAt_replicate (0 : Byte) sym]
    rfl

end Sys2Proof.Tests
end

/-! PROOFS. The host port at the words of the CT windows (20_memory.md R61, R62; 10_state.md R39). -/

namespace Sys2Proof.Machine

/-! ### Transactions at a word of a known row -/

/-- An aligned read in a row of the map gets OKAY and the word of that row's region. -/
theorem State.hostRead_of_mapRow (s : State) {addr : HostAddr} {row : MapRow} (ha : addr.toNat % 4 = 0)
    (hrow : mapRowOf addr.toNat = some row) :
    s.hostRead addr = { s with resp := some (.read .okay (s.regionWord row.region addr.toNat)) } := by
  simp only [State.hostRead, State.readWord, ha, if_true, hrow, Option.map_some]

/-- An aligned write in a writable row other than CMD stores into that row's region and gets OKAY. -/
theorem State.hostWrite_of_mapRow (s : State) (w : Word) {addr : HostAddr} {row : MapRow} (ha : addr.toNat % 4 = 0)
    (hrow : mapRowOf addr.toNat = some row) (hw : row.writable = true) (hcmd : row.region ≠ .cmd) :
    s.hostWrite addr w = .next (s.storeRegion row.region addr.toNat w).writeOkay := by
  -- `hcmd` rules out the arm of CMD: `simp` takes it from the context as the condition of the last arm of the match.
  simp only [State.hostWrite, ha, if_true, hrow, hw]

/-! ### The CT windows -/

/-- The byte offsets of the CT windows are those of the two rows of CT, which the host may write. -/
theorem mapRowOf_of_inCtWindow {a : Nat} (h : InCtWindow a) :
    ∃ row, mapRowOf a = some row ∧ row.writable = true ∧ (row.region = .ctLen ∨ row.region = .ctVal) := by
  rcases h with ⟨hlo, hhi⟩ | ⟨hlo, hhi⟩
  · exact ⟨⟨.ctLen, ctLenBase, 1024, true⟩, mapRowOf_of_mem (by decide) hlo hhi, rfl, .inl rfl⟩
  · exact ⟨⟨.ctVal, ctValBase, 8192, true⟩, mapRowOf_of_mem (by decide) hlo hhi, rfl, .inr rfl⟩

/-- A store into either region of CT drops the tree, whatever is stored (10_state.md R39). -/
theorem State.storeRegion_ct_treeValid (s : State) {r : Region} (h : r = .ctLen ∨ r = .ctVal) (a : Nat) (w : Word) :
    (s.storeRegion r a w).treeValid = false := by
  rcases h with rfl | rfl
  · exact State.dropTree_treeValid _
  · exact State.dropTree_treeValid _

/-- Settles O15: a CT window is a writable row other than CMD, so a write is a store into CT and a read is an OKAY read. -/
theorem ctWriteDropsTheTree : Obligations.CtWriteDropsTheTree := by
  intro s addr w rest ha hct
  obtain ⟨row, hrow, hwritable, hregion⟩ := mapRowOf_of_inCtWindow hct
  constructor
  · intro hin
    have hcmd : row.region ≠ .cmd := by
      rcases hregion with h | h <;> simp [h]
    refine ⟨_, (step_cons hin).trans (State.hostWrite_of_mapRow _ w ha hrow hwritable hcmd), rfl, ?_⟩
    exact State.storeRegion_ct_treeValid _ hregion addr.toNat w
  · intro hin
    exact ⟨_, (step_cons hin).trans (congrArg Host.Outcome.next (State.hostRead_of_mapRow _ ha hrow))⟩

end Sys2Proof.Machine

/-! PROOFS. The command words: what each 32-bit word decodes to and what a CMD write of it does (30_encoding.md R92 to R94). -/

namespace Sys2Proof

/-! ### The fields of a word as numbers (30_encoding.md R90) -/

@[simp] theorem CommandWord.ofWord_rsv_toNat (w : Word) : (CommandWord.ofWord w).rsv.toNat = w.toNat / 256 := by
  have hw : w.toNat < 2 ^ 32 := w.isLt
  rw [CommandWord.ofWord, BitVec.extractLsb'_toNat, Nat.shiftRight_eq_div_pow]
  omega

@[simp] theorem CommandWord.ofWord_op_toNat (w : Word) : (CommandWord.ofWord w).op.toNat = w.toNat % 256 := by
  rw [CommandWord.ofWord, BitVec.extractLsb'_toNat, Nat.shiftRight_zero]

theorem CommandWord.reservedIsZero_ofWord (w : Word) :
    (CommandWord.ofWord w).reservedIsZero = true ↔ w.toNat / 256 = 0 := by
  simp [CommandWord.reservedIsZero, ← BitVec.toNat_inj]

/-! ### The opcode map (30_encoding.md R92) -/

@[simp] theorem instrOfOpcode_opcode (i : Instr) : instrOfOpcode i.opcode = some i := by
  cases i <;> rfl

theorem instrOfOpcode_eq_none {op : BitVec 8} (h : 6 ≤ op.toNat) : instrOfOpcode op = none := by
  unfold instrOfOpcode
  split
  case h_7 => rfl
  all_goals omega

/-! ### Decoding -/

theorem decode_eq_instr {w : Word} {i : Instr} (hrsv : w.toNat / 256 = 0) (hop : w.toNat % 256 = i.opcode.toNat) :
    decode w = .instr i := by
  have hopcode : (CommandWord.ofWord w).op = i.opcode :=
    BitVec.eq_of_toNat_eq ((CommandWord.ofWord_op_toNat w).trans hop)
  rw [decode, if_pos ((CommandWord.reservedIsZero_ofWord w).2 hrsv), hopcode, instrOfOpcode_opcode]

/-- The two kinds of illegal word: a reserved bit is set, or the opcode is not assigned (30_encoding.md R93). -/
theorem decode_eq_illegal {w : Word} (h : w.toNat / 256 ≠ 0 ∨ 6 ≤ w.toNat % 256) : decode w = .illegal w := by
  by_cases hrsv : w.toNat / 256 = 0
  · have hop : 6 ≤ (CommandWord.ofWord w).op.toNat :=
      (h.resolve_left (not_not.2 hrsv)).trans_eq (CommandWord.ofWord_op_toNat w).symm
    rw [decode, if_pos ((CommandWord.reservedIsZero_ofWord w).2 hrsv), instrOfOpcode_eq_none hop]
  · rw [decode, if_neg (mt (CommandWord.reservedIsZero_ofWord w).1 hrsv)]

/-- The command word of a command is its opcode: the reserved field is 0. -/
theorem encode_toNat (i : Instr) : (encode i).toNat = i.opcode.toNat := by
  cases i <;> rfl

@[simp] theorem decode_encode (i : Instr) : decode (encode i) = .instr i := by
  have hop : i.opcode.toNat < 256 := i.opcode.isLt
  apply decode_eq_instr
  · rw [encode_toNat, Nat.div_eq_of_lt hop]
  · rw [encode_toNat, Nat.mod_eq_of_lt hop]

/-- Settles O1: the six words are the encodings of the six commands. -/
theorem decodeReadsTheSixCommandWords : Obligations.DecodeReadsTheSixCommandWords :=
  ⟨decode_encode .nop, decode_encode .build, decode_encode .encode, decode_encode .rebuild, decode_encode .decode,
    decode_encode .clear⟩

/-- Settles O2: a word is illegal by its reserved field, names a command by its opcode, or has an opcode above 5. -/
theorem decodeOfEveryWord : Obligations.DecodeOfEveryWord := by
  intro w
  split_ifs with hrsv h0 h1 h2 h3 h4 h5
  · exact decode_eq_illegal (.inl hrsv)
  · exact decode_eq_instr (i := .nop) (not_not.1 hrsv) h0
  · exact decode_eq_instr (i := .build) (not_not.1 hrsv) h1
  · exact decode_eq_instr (i := .encode) (not_not.1 hrsv) h2
  · exact decode_eq_instr (i := .rebuild) (not_not.1 hrsv) h3
  · exact decode_eq_instr (i := .decode) (not_not.1 hrsv) h4
  · exact decode_eq_instr (i := .clear) (not_not.1 hrsv) h5
  · exact decode_eq_illegal (.inr (by omega))

end Sys2Proof

namespace Sys2Proof.Machine

/-! ### A CMD write -/

/-- A waiting CMD write is taken off the queue and runs its word. -/
theorem step_cmdWrite {s : State} {w : Word} {rest : List HostEvent} (h : s.inputs = .write cmdAddr w :: rest) :
    step s = State.command { s with inputs := rest } w :=
  (step_cons h).trans (State.hostWrite_cmd _ w)

theorem State.command_of_illegal (s : State) {w : Word} (h : decode w = .illegal w) :
    s.command w = .next (s.illegalCommand w).writeOkay := by
  rw [State.command, h]

/-- Settles O6: either kind of illegal word decodes to itself, and such a word only raises code 8 with the word. -/
theorem illegalWordOnlyReportsTheError : Obligations.IllegalWordOnlyReportsTheError := by
  intro s w rest hin hw
  exact (step_cmdWrite hin).trans (State.command_of_illegal _ (decode_eq_illegal hw))

end Sys2Proof.Machine

/-! PROOFS. The descending working list of the tree builder (40_build.md R116, R118, R119). -/

namespace Sys2Proof.Machine

/-- Where a test that holds of an element holds of everything before it, the list falls at its count into the elements that
pass and those that do not. -/
theorem take_drop_countP_of_pairwise {α : Type} (q : α → Bool) {l : List α} (h : l.Pairwise fun a b => q b → q a) :
    l.take (l.countP q) = l.filter q ∧ l.drop (l.countP q) = l.filter fun a => !q a := by
  induction l with
  | nil => exact ⟨rfl, rfl⟩
  | cons a l ih =>
    obtain ⟨hfirst, hl⟩ := List.pairwise_cons.1 h
    cases ha : q a with
    | true => simpa [ha] using ih hl
    | false =>
      have hnone : ∀ b ∈ l, q b = false := fun b hb => by simpa [ha] using hfirst b hb
      have hcount : (a :: l).countP q = 0 := List.countP_eq_zero.2 (by simpa [ha] using hnone)
      have hpass : (a :: l).filter q = [] := List.filter_eq_nil_iff.2 (by simpa [ha] using hnone)
      have hfail : (a :: l).filter (fun b => !q b) = a :: l := List.filter_eq_self.2 (by simpa [ha] using hnone)
      exact ⟨by rw [hcount, hpass, List.take_zero], by rw [hcount, hfail, List.drop_zero]⟩

/-- In a descending list the new index stands between the nodes at least as heavy and the lighter ones
(40_build.md R118). -/
theorem insertByWeight_of_descending {bn : List BuildNode} {wl : List Nat} (i : Nat)
    (h : wl.Pairwise fun a b => weightAt bn b ≤ weightAt bn a) :
    insertByWeight bn wl i = wl.filter (fun j => decide (weightAt bn i ≤ weightAt bn j)) ++
      i :: wl.filter fun j => !decide (weightAt bn i ≤ weightAt bn j) := by
  obtain ⟨htake, hdrop⟩ := take_drop_countP_of_pairwise (fun j => decide (weightAt bn i ≤ weightAt bn j))
    (h.imp fun hab hb => decide_eq_true (BitVec.le_trans (of_decide_eq_true hb) hab))
  rw [insertByWeight, htake, hdrop]

/-- `i` stands before `j` in `InitialOrder`: it is heavier, or as heavy with the smaller index (40_build.md R116). -/
def Precedes (bn : List BuildNode) (i j : Nat) : Prop :=
  (weightAt bn j).toNat < (weightAt bn i).toNat ∨ ((weightAt bn i).toNat = (weightAt bn j).toNat ∧ i < j)

theorem Precedes.weight_le {bn : List BuildNode} {i j : Nat} (h : Precedes bn i j) : weightAt bn j ≤ weightAt bn i :=
  BitVec.le_def.2 (h.elim Nat.le_of_lt fun heq => heq.1.ge)

theorem Precedes.of_le_of_lt {bn : List BuildNode} {i j : Nat} (hw : weightAt bn j ≤ weightAt bn i) (hij : i < j) :
    Precedes bn i j :=
  (Nat.lt_or_eq_of_le (BitVec.le_def.1 hw)).imp_right fun heq => ⟨heq.symm, hij⟩

theorem Precedes.of_not_le {bn : List BuildNode} {i j : Nat} (hw : ¬ weightAt bn i ≤ weightAt bn j) : Precedes bn i j :=
  .inl (BitVec.lt_def.1 (BitVec.not_le.1 hw))

/-- An insertion of an index above all others keeps the order: it stands after the equal weights, and everything after it is
lighter (40_build.md R119). -/
theorem insertByWeight_pairwise_precedes {bn : List BuildNode} {wl : List Nat} {i : Nat}
    (h : wl.Pairwise (Precedes bn)) (hnew : ∀ j ∈ wl, j < i) : (insertByWeight bn wl i).Pairwise (Precedes bn) := by
  rw [insertByWeight_of_descending i (h.imp Precedes.weight_le)]
  have hbefore : ∀ j ∈ wl.filter (fun j => decide (weightAt bn i ≤ weightAt bn j)), Precedes bn j i := fun j hj => by
    obtain ⟨hmem, hle⟩ := List.mem_filter.1 hj
    exact .of_le_of_lt (of_decide_eq_true hle) (hnew j hmem)
  have hafter : ∀ j ∈ wl.filter (fun j => !decide (weightAt bn i ≤ weightAt bn j)), Precedes bn i j := fun j hj =>
    .of_not_le (by simpa using (List.mem_filter.1 hj).2)
  refine List.pairwise_append.2 ⟨h.filter _, List.pairwise_cons.2 ⟨hafter, h.filter _⟩, fun a ha b hb => ?_⟩
  rcases List.mem_cons.1 hb with rfl | hb
  · exact hbefore a ha
  · have hle := of_decide_eq_true (List.mem_filter.1 ha).2
    have hlt : ¬ weightAt bn i ≤ weightAt bn b := by simpa using (List.mem_filter.1 hb).2
    exact .of_not_le fun hab => hlt (BitVec.le_trans hle hab)

theorem initialOrder_succ (bn : List BuildNode) (n : Nat) :
    initialOrder bn (n + 1) = insertByWeight bn (initialOrder bn n) n := by
  simp only [initialOrder, List.range_succ, List.foldl_append, List.foldl_cons, List.foldl_nil]

theorem initialOrder_perm (bn : List BuildNode) (n : Nat) : (initialOrder bn n).Perm (List.range n) :=
  foldl_insertByWeight_perm bn (List.range n) []

theorem initialOrder_pairwise_precedes (bn : List BuildNode) (n : Nat) :
    (initialOrder bn n).Pairwise (Precedes bn) := by
  induction n with
  | zero => exact List.Pairwise.nil
  | succ n ih =>
    rw [initialOrder_succ]
    exact insertByWeight_pairwise_precedes ih fun j hj => List.mem_range.1 ((initialOrder_perm bn n).mem_iff.1 hj)

/-- Settles O26: the indices are inserted in ascending order, and each insertion keeps the list descending and stable. -/
theorem initialOrderIsDescendingAndStable : Obligations.InitialOrderIsDescendingAndStable :=
  fun bn n => ⟨initialOrder_perm bn n, initialOrder_pairwise_precedes bn n⟩

end Sys2Proof.Machine

/-! PROOFS. ENCODE before its first data byte: the tests of 41_encode.md R142, and what a failure leaves (R147). -/

namespace Sys2Proof.Machine

/-! ### The frame of a command, from the fields it keeps -/

/-- The bytes of the FREQ and IBUF windows follow from the fields behind them. -/
theorem SameOutside.of_fields {s t : State} (hilen : t.ilen = s.ilen) (hfreq : t.freq = s.freq) (hibuf : t.ibuf = s.ibuf)
    (hinputs : t.inputs = s.inputs) (hresp : t.resp = s.resp) (hresets : t.free.reset = s.free.reset) :
    SameOutside s t where
  ilen := hilen
  freq := hfreq
  ibuf := hibuf
  inputs := hinputs
  resp := hresp
  resets := hresets
  bytes := fun _ ha => ha.elim (fun hrow => State.byteAt_freq hfreq hrow.1 hrow.2)
    (fun hrow => State.byteAt_ibuf hibuf hresets hrow.1 hrow.2)

/-- The bytes of the CT windows follow from the fields behind them. -/
theorem SameTable.of_fields {s t : State} (hlen : t.ctLen = s.ctLen) (hval : t.ctVal = s.ctVal) : SameTable s t :=
  ⟨hlen, hval, fun _ => State.byteAt_ct hlen hval⟩

theorem State.failEncode_failed (s : State) (e : CmdError) (info : Word) :
    FailedEncode s (s.failEncode e info) e.code info where
  err := s.failEncode_err e info
  errInfo := s.failEncode_errInfo e info
  olen := s.failEncode_olen e info
  pad := s.failEncode_pad e info
  outside := .of_fields rfl rfl rfl rfl rfl rfl
  table := .of_fields rfl rfl
  tree := ⟨rfl, rfl⟩
  build := s.failEncode_build e info

/-! ### The tests in their order (60_exceptions.md R225) -/

theorem execEncode_of_ibufCap_lt {s : State} (hlen : Config.ibufCap < s.ilen.toNat) :
    execEncode s = .next (s.failEncode .operandRange 0) :=
  if_pos hlen

theorem execEncode_of_emptyTable {s : State} (hlen : s.ilen.toNat ≤ Config.ibufCap) (htable : s.codeTable = [])
    (hne : s.ilen ≠ 0) : execEncode s = .next (s.failEncode .emptyAlphabetMismatch 0) := by
  rw [execEncode, if_neg (Nat.not_lt.2 hlen), if_pos ⟨htable, hne⟩]

theorem State.inputBytes_of_ilen_eq_zero {s : State} (h : s.ilen = 0) : s.inputBytes = [] := by
  rw [State.inputBytes, h]
  rfl

/-- Without data both tests pass, whatever the table, and the packed stream is empty. -/
theorem execEncode_of_ilen_eq_zero {s : State} (h : s.ilen = 0) :
    execEncode s = .next ({ s with pad := 0 }.output []).succeed := by
  have hlen : ¬ s.ilen.toNat > Config.ibufCap := by rw [h]; decide
  have hpayload : ¬ (s.codeTable = [] ∧ s.ilen ≠ 0) := fun hfail => hfail.2 h
  rw [execEncode, if_neg hlen, if_neg hpayload, State.inputBytes_of_ilen_eq_zero h]
  rfl

/-- Settles O35: each test is one branch of ENCODE, its failures leave only the error and OLEN = PAD = 0, and with no data
byte neither test fails. -/
theorem encodeChecksLengthThenEmptyTable : Obligations.EncodeChecksLengthThenEmptyTable := by
  intro s
  refine ⟨fun hlen => ?_, fun hlen htable hne => ?_, fun hzero => ?_⟩
  · exact ⟨_, execEncode_of_ibufCap_lt hlen, s.failEncode_failed .operandRange 0⟩
  · have hnil : s.codeTable = [] := s.codeTable_eq_nil.2 htable
    exact ⟨_, execEncode_of_emptyTable hlen hnil hne, s.failEncode_failed .emptyAlphabetMismatch 0⟩
  · exact ⟨_, execEncode_of_ilen_eq_zero hzero, rfl, rfl, rfl⟩

end Sys2Proof.Machine

/-! PROOFS. NOP (44_system.md R200). -/

namespace Sys2Proof.Machine

/-- Success is the whole effect of NOP. -/
theorem exec_nop (s : State) : exec .nop s = .next s.succeed := rfl

/-- Success writes the two error registers only. -/
theorem State.succeed_eq (s : State) : s.succeed = { s with err := 0, errInfo := 0 } := rfl

/-- Settles O20: NOP is success alone, and success writes the two error registers only. -/
theorem nopClearsTheErrorOnly : Obligations.NopClearsTheErrorOnly := fun s =>
  (exec_nop s).trans (congrArg Host.Outcome.next s.succeed_eq)

end Sys2Proof.Machine

/-! PROOFS. ENCODE at the first data byte without an entry (60_exceptions.md R216; 41_encode.md R143). -/

namespace Sys2Proof.Machine

theorem State.hasEntry_eq_true {s : State} {sym : Byte} : s.hasEntry sym = true ↔ s.ctLenAt sym ≠ 0 :=
  bne_iff_ne

theorem State.hasEntry_eq_false {s : State} {sym : Byte} : s.hasEntry sym = false ↔ s.ctLenAt sym = 0 :=
  bne_eq_false_iff_eq

/-- The data around index `i`: the bytes before it, byte `i`, and the rest. -/
theorem State.inputBytes_eq_append_cons {s : State} {i : Nat} (hi : i < s.ilen.toNat) :
    s.inputBytes = (List.range i).map s.ibufAt ++ s.ibufAt i :: s.inputBytes.drop (i + 1) := by
  have htake : s.inputBytes.take i = (List.range i).map s.ibufAt := by
    rw [State.inputBytes, ← List.map_take, List.take_range, Nat.min_eq_left hi.le]
  have hlength : i < s.inputBytes.length := by simpa [State.inputBytes] using hi
  have hget : s.inputBytes[i] = s.ibufAt i := by simp [State.inputBytes]
  rw [← htake, ← hget, ← List.drop_eq_getElem_cons hlength, List.take_append_drop]

/-- The substitution stops at the smallest index whose byte has no entry. -/
theorem State.substitute_inputBytes_eq_error {s : State} {i : Nat} (hi : i < s.ilen.toNat)
    (hnone : s.ctLenAt (s.ibufAt i) = 0) (hbefore : ∀ j, j < i → s.ctLenAt (s.ibufAt j) ≠ 0) :
    s.substitute 0 s.inputBytes = .error (i, s.ibufAt i) := by
  have hcovered : ∀ b ∈ (List.range i).map s.ibufAt, s.hasEntry b = true := by
    simpa [State.hasEntry_eq_true] using hbefore
  exact (s.substitute_eq_error 0 _ i _).2 ⟨_, _, State.inputBytes_eq_append_cons hi, hcovered,
    State.hasEntry_eq_false.2 hnone, by simp⟩

theorem execEncode_of_substitute_error {s : State} {pos : Nat} {sym : Byte} (hlen : s.ilen.toNat ≤ Config.ibufCap)
    (htable : s.codeTable ≠ []) (hsub : s.substitute 0 s.inputBytes = .error (pos, sym)) :
    execEncode s = .next (s.failEncode .unknownSymbol (unknownSymbolInfo pos sym)) := by
  rw [execEncode, if_neg (Nat.not_lt.2 hlen), if_neg fun h => htable h.1, hsub]

/-- The position stands above the symbol's eight bits (10_state.md R33). -/
theorem unknownSymbolInfo_eq_ofNat (pos : Nat) (sym : Byte) :
    unknownSymbolInfo pos sym = BitVec.ofNat 32 (256 * pos + sym.toNat) := by
  have hsym : sym.toNat < 2 ^ 8 := sym.isLt
  apply BitVec.eq_of_toNat_eq
  rw [unknownSymbolInfo, BitVec.toNat_append, BitVec.toNat_ofNat, BitVec.toNat_ofNat, ← Nat.shiftLeft_add_eq_or_of_lt hsym,
    Nat.shiftLeft_eq]
  omega

/-- Settles O36: both tests pass, the substitution stops at byte `i`, and the failure reports position and symbol. -/
theorem encodeReportsTheFirstUnknownSymbol : Obligations.EncodeReportsTheFirstUnknownSymbol := by
  rintro s i hlen hi ⟨sym, hsym⟩ hnone hbefore
  have htable : s.codeTable ≠ [] := fun hnil => hsym (s.codeTable_eq_nil.1 hnil sym)
  have hsub := State.substitute_inputBytes_eq_error hi hnone hbefore
  rw [← unknownSymbolInfo_eq_ofNat]
  exact ⟨_, execEncode_of_substitute_error hlen htable hsub, s.failEncode_failed .unknownSymbol _⟩

end Sys2Proof.Machine

/-! PROOFS. The rows of the address map (20_memory.md R66) and what a transaction does in them (R61, R62, R64). -/

namespace Sys2Proof.Machine

/-! ### The row of each region -/

/-- The row of the address map that holds a region (20_memory.md R66). -/
def Region.row : Region → MapRow
  | .id => ⟨.id, 0x000000, 4, false⟩
  | .cmd => ⟨.cmd, 0x000004, 4, true⟩
  | .status => ⟨.status, 0x000008, 4, false⟩
  | .errInfo => ⟨.errInfo, 0x00000C, 4, false⟩
  | .ilen => ⟨.ilen, 0x000010, 4, true⟩
  | .olen => ⟨.olen, 0x000014, 4, false⟩
  | .pad => ⟨.pad, 0x000018, 4, true⟩
  | .freq => ⟨.freq, 0x000400, 1024, true⟩
  | .ctLen => ⟨.ctLen, 0x000800, 1024, true⟩
  | .ctVal => ⟨.ctVal, 0x002000, 8192, true⟩
  | .ibuf => ⟨.ibuf, 0x010000, 65536, true⟩
  | .obuf => ⟨.obuf, 0x200000, 2097152, false⟩

@[simp] theorem Region.row_region (r : Region) : r.row.region = r := by
  cases r <;> rfl

theorem Region.row_mem (r : Region) : r.row ∈ addressMap := by
  cases r <;> decide

theorem eq_row_of_mem_addressMap : ∀ row ∈ addressMap, row = row.region.row := by
  decide

/-- The address lies in the window of the region. -/
def Region.Covers (r : Region) (a : Nat) : Prop :=
  r.row.base ≤ a ∧ a < r.row.base + r.row.size

theorem Region.Covers.mapRowOf {r : Region} {a : Nat} (h : r.Covers a) : mapRowOf a = some r.row :=
  mapRowOf_of_mem r.row_mem h.1 h.2

theorem mapRowOf_eq_some_iff {a : Nat} {row : MapRow} : mapRowOf a = some row ↔ ∃ r : Region, row = r.row ∧ r.Covers a := by
  constructor
  · intro h
    obtain ⟨hmem, hlo, hhi⟩ := mapRowOf_eq_some h
    have hrow := eq_row_of_mem_addressMap row hmem
    exact ⟨row.region, hrow, by rw [← hrow]; exact hlo, by rw [← hrow]; exact hhi⟩
  · rintro ⟨r, rfl, hr⟩
    exact hr.mapRowOf

theorem mapped_iff_covers {a : Nat} : Mapped a ↔ ∃ r : Region, r.Covers a := by
  constructor
  · intro h
    by_contra hnone
    have hout : ∀ r : Region, ¬ (r.row.base ≤ a ∧ a < r.row.base + r.row.size) := fun r hr => hnone ⟨r, hr⟩
    have := hout .id; have := hout .cmd; have := hout .status; have := hout .errInfo; have := hout .ilen
    have := hout .olen; have := hout .pad; have := hout .freq; have := hout .ctLen; have := hout .ctVal
    have := hout .ibuf; have := hout .obuf
    simp only [Region.row, Mapped] at *
    omega
  · rintro ⟨r, hlo, hhi⟩
    cases r <;> simp only [Region.row, Mapped] at * <;> omega

theorem mapRowOf_eq_none_iff {a : Nat} : mapRowOf a = none ↔ ¬ Mapped a := by
  rw [mapped_iff_covers, Option.eq_none_iff_forall_ne_some]
  simp only [ne_eq, mapRowOf_eq_some_iff, not_exists, not_and]
  exact ⟨fun h r hr => h r.row r rfl hr, fun h _ r _ hr => h r hr⟩

theorem writable_iff_of_covers {r : Region} {a : Nat} (h : r.Covers a) : Writable a ↔ r.row.writable = true := by
  obtain ⟨hlo, hhi⟩ := h
  cases r <;> simp only [Region.row, Writable, Bool.false_eq_true, iff_true, iff_false] at * <;> omega

theorem Writable.mapped {a : Nat} (h : Writable a) : Mapped a := by
  unfold Writable at h
  unfold Mapped
  omega

/-! ### Reads -/

theorem State.readWord_of_covers (s : State) {addr : HostAddr} {r : Region} (ha : addr.toNat % 4 = 0)
    (hr : r.Covers addr.toNat) : s.readWord addr = some (s.regionWord r addr.toNat) := by
  simp only [State.readWord, ha, if_true, hr.mapRowOf, Option.map_some, Region.row_region]

theorem State.readWord_eq_none_iff (s : State) (addr : HostAddr) :
    s.readWord addr = none ↔ (addr.toNat % 4 ≠ 0 ∨ ¬ Mapped addr.toNat) := by
  by_cases ha : addr.toNat % 4 = 0
  · simp [State.readWord, ha, mapRowOf_eq_none_iff]
  · simp [State.readWord, ha]

/-! ### Writes -/

/-- The three ways a write ends, each with its guard: an ERROR, a command, a store (20_memory.md R62, R64). -/
theorem State.hostWrite_cases (s : State) (addr : HostAddr) (w : Word) :
    ((addr.toNat % 4 ≠ 0 ∨ ¬ Writable addr.toNat) ∧ s.hostWrite addr w = .next s.writeError) ∨
    (addr = cmdAddr ∧ s.hostWrite addr w = s.command w) ∨
    (addr.toNat % 4 = 0 ∧ addr ≠ cmdAddr ∧ ∃ r : Region, r ≠ .cmd ∧ r.row.writable = true ∧ r.Covers addr.toNat ∧
      s.hostWrite addr w = .next (s.storeRegion r addr.toNat w).writeOkay) := by
  by_cases ha : addr.toNat % 4 = 0
  · by_cases hm : Mapped addr.toNat
    · obtain ⟨r, hr⟩ := mapped_iff_covers.1 hm
      by_cases hw : r.row.writable = true
      · by_cases hcmd : r = .cmd
        · have hbounds := hr
          simp only [hcmd, Region.Covers, Region.row] at hbounds
          have haddr : addr = cmdAddr := BitVec.eq_of_toNat_eq (by simp only [cmdAddr, BitVec.toNat_ofNat]; omega)
          exact .inr (.inl ⟨haddr, by rw [haddr, State.hostWrite_cmd]⟩)
        · have haddr : addr ≠ cmdAddr := by
            rintro rfl
            have hrow : r.row = _ := Option.some.inj (hr.mapRowOf.symm.trans mapRowOf_cmd)
            exact hcmd (r.row_region.symm.trans (congrArg MapRow.region hrow))
          have hstore := State.hostWrite_of_mapRow s w ha hr.mapRowOf hw (by rwa [Region.row_region])
          rw [Region.row_region] at hstore
          exact .inr (.inr ⟨ha, haddr, r, hcmd, hw, hr, hstore⟩)
      · refine .inl ⟨.inr (mt (writable_iff_of_covers hr).1 hw), ?_⟩
        simp only [State.hostWrite, ha, if_true, hr.mapRowOf, if_neg hw]
    · refine .inl ⟨.inr (mt Writable.mapped hm), ?_⟩
      simp only [State.hostWrite, ha, if_true, mapRowOf_eq_none_iff.2 hm]
  · exact .inl ⟨.inl ha, by rw [State.hostWrite, if_neg ha]⟩

/-- Only the word itself is reported as illegal (30_encoding.md R94). -/
theorem decode_eq_illegal_word {w v : Word} (h : decode w = .illegal v) : v = w := by
  unfold decode at h
  split at h
  · split at h
    · cases h
    · exact (Decoded.illegal.inj h).symm
  · exact (Decoded.illegal.inj h).symm

/-- The two ways a CMD write ends (10_state.md R31; 30_encoding.md R93). -/
theorem State.command_cases (s : State) (w : Word) :
    (∃ i t, decode w = .instr i ∧ exec i s = .next t ∧ s.command w = .next t.writeOkay) ∨
    (decode w = .illegal w ∧ s.command w = .next (s.illegalCommand w).writeOkay) := by
  cases hd : decode w with
  | instr i =>
    obtain ⟨t, ht⟩ := exec_next i s
    exact .inl ⟨i, t, rfl, ht, by simp only [State.command, hd, ht, completeCommand]⟩
  | illegal v =>
    obtain rfl := decode_eq_illegal_word hd
    exact .inr ⟨rfl, State.command_of_illegal s hd⟩

/-- Every event has a next state. -/
theorem State.perform_next (s : State) (e : HostEvent) : ∃ t, s.perform e = .next t := by
  cases e with
  | read addr => exact ⟨_, rfl⟩
  | reset => exact ⟨_, rfl⟩
  | write addr w =>
    rcases s.hostWrite_cases addr w with ⟨-, h⟩ | ⟨-, h⟩ | ⟨-, -, r, -, -, -, h⟩
    · exact ⟨_, h⟩
    · rcases s.command_cases w with ⟨i, t, -, -, hc⟩ | ⟨-, hc⟩
      · exact ⟨_, h.trans hc⟩
      · exact ⟨_, h.trans hc⟩
    · exact ⟨_, h⟩

end Sys2Proof.Machine

/-! PROOFS. ENCODE and DECODE in two parts: what the tests and the loop compute from the operands, and how the command ends
with it (41_encode.md R141, R147; 43_decode.md R181, R190). -/

namespace Sys2Proof.Machine

/-! ### ENCODE -/

/-- What ENCODE computes from its operands: the bit-stream, or the error with its information (41_encode.md R141). -/
def encodeResultOf (ilen : Word) (table : List (Byte × Bits)) (stream : Except (Nat × Byte) Bits) :
    Except (CmdError × Word) Bits :=
  if ilen.toNat > Config.ibufCap then .error (.operandRange, 0)
  else if table = [] ∧ ilen ≠ 0 then .error (.emptyAlphabetMismatch, 0)
  else
    match stream with
    | .error (pos, sym) => .error (.unknownSymbol, unknownSymbolInfo pos sym)
    | .ok bits => .ok bits

def State.encodeResult (s : State) : Except (CmdError × Word) Bits :=
  encodeResultOf s.ilen s.codeTable (s.substitute 0 s.inputBytes)

/-- How ENCODE ends with a result (41_encode.md R146, R147). -/
def State.endEncode (s : State) : Except (CmdError × Word) Bits → State
  | .error (e, info) => s.failEncode e info
  | .ok bits => ({ s with pad := BitVec.ofNat 32 (padFor bits.length) }.output (pack bits)).succeed

theorem execEncode_eq (s : State) : execEncode s = .next (s.endEncode s.encodeResult) := by
  unfold execEncode State.encodeResult encodeResultOf
  split_ifs
  · rfl
  · rfl
  · cases s.substitute 0 s.inputBytes with
    | error e => rfl
    | ok bits => rfl

@[simp] theorem State.inputBytes_length (s : State) : s.inputBytes.length = s.ilen.toNat := by
  simp [State.inputBytes]

theorem State.mem_inputBytes {s : State} {b : Byte} : b ∈ s.inputBytes ↔ ∃ i < s.ilen.toNat, s.ibufAt i = b := by
  simp [State.inputBytes]

/-- Every data byte has an entry (41_encode.md R143). -/
theorem State.inputBytes_covered_iff {s : State} :
    (∀ b ∈ s.inputBytes, s.hasEntry b = true) ↔ ∀ i, i < s.ilen.toNat → s.ctLenAt (s.ibufAt i) ≠ 0 := by
  simp only [State.mem_inputBytes, forall_exists_index, and_imp, forall_apply_eq_imp_iff₂, State.hasEntry_eq_true]

/-- ENCODE computes a stream exactly when its tests pass, and then the codes of the data in order (41_encode.md R143). -/
theorem State.encodeResult_eq_ok {s : State} {bits : Bits} :
    s.encodeResult = .ok bits ↔ EncodeAllowed s ∧ bits = s.stream := by
  unfold State.encodeResult encodeResultOf
  constructor
  · intro h
    split_ifs at h with hlen hempty
    cases hsub : s.substitute 0 s.inputBytes with
    | error e => rw [hsub] at h; cases h
    | ok stream =>
      rw [hsub] at h
      obtain rfl := Except.ok.inj h
      obtain ⟨hcovered, hbits⟩ := (s.substitute_eq_ok _ _ _).1 hsub
      exact ⟨⟨Nat.not_lt.1 hlen, State.inputBytes_covered_iff.1 hcovered⟩, hbits⟩
  · rintro ⟨⟨hlen, hcovered⟩, rfl⟩
    have hfits : ¬ s.ilen.toNat > Config.ibufCap := Nat.not_lt.2 hlen
    have hempty : ¬ (s.codeTable = [] ∧ s.ilen ≠ 0) := fun ⟨hnil, hne⟩ => by
      have hpos : 0 < s.ilen.toNat := Nat.pos_of_ne_zero fun h0 => hne (BitVec.eq_of_toNat_eq h0)
      exact hcovered 0 hpos (s.codeTable_eq_nil.1 hnil _)
    have hsub : s.substitute 0 s.inputBytes = .ok s.stream :=
      (s.substitute_eq_ok _ _ _).2 ⟨State.inputBytes_covered_iff.2 hcovered, rfl⟩
    rw [if_neg hfits, if_neg hempty, hsub]

/-! ### DECODE -/

/-- What DECODE computes past its tests: the walk from the root, or the end with the empty tree (43_decode.md R184). -/
def walkResultOf (ilen : Word) (tree : RebuildStore) (bits : Bits) : Except CmdError (List Byte) :=
  match tree.rroot with
  | none => if ilen ≠ 0 then .error .emptyAlphabetMismatch else .ok []
  | some root => walk tree.rn root root bits

/-- What DECODE computes from its operands: the emitted symbols, or the error (43_decode.md R181). -/
def decodeResultOf (ilen pad : Word) (valid : Bool) (tree : RebuildStore) (bits : Bits) : Except CmdError (List Byte) :=
  if ilen.toNat > Config.ibufCap then .error .operandRange
  else if valid = false then .error .noTree
  else if pad.toNat > Config.padMax ∨ (ilen = 0 ∧ pad ≠ 0) then .error .paddingRange
  else walkResultOf ilen tree bits

def State.decodeResult (s : State) : Except CmdError (List Byte) :=
  decodeResultOf s.ilen s.pad s.treeValid s.tree s.contentBits

/-- How DECODE ends with a result (43_decode.md R189, R190). -/
def State.endDecode (s : State) : Except CmdError (List Byte) → State
  | .error e => s.failDecode e
  | .ok out => (s.output out).succeed

theorem execDecode_eq (s : State) : execDecode s = .next (s.endDecode s.decodeResult) := by
  unfold execDecode State.decodeResult decodeResultOf walkResultOf
  cases s.tree.rroot with
  | none =>
    dsimp only
    split_ifs <;> rfl
  | some root =>
    dsimp only
    cases walk s.tree.rn root root s.contentBits with
    | error e => split_ifs <;> rfl
    | ok out => split_ifs <;> rfl

/-! ### Lengths of outputs (00_scope.md R17) -/

theorem padFor_le (l : Nat) : padFor l ≤ 7 := by
  unfold padFor
  omega

/-- Packing fills whole bytes: the padding is what the last byte lacks (41_encode.md R145, R146). -/
theorem eight_mul_pack_length (bits : Bits) : 8 * (pack bits).length = bits.length + padFor bits.length := by
  rw [pack, packBytes_length]
  unfold padFor
  omega

theorem State.code_length_le (s : State) (sym : Byte) : (s.code sym).length ≤ 255 := by
  rw [State.code_length]
  exact Nat.le_of_lt_succ (s.ctLenAt sym).isLt

theorem State.flatMap_code_length_le (s : State) (bs : List Byte) : (bs.flatMap s.code).length ≤ 255 * bs.length := by
  induction bs with
  | nil => simp
  | cons b bs ih =>
    have := s.code_length_le b
    simp only [List.flatMap_cons, List.length_append, List.length_cons]
    omega

/-- At most 65536 codes of at most 255 bits (00_scope.md R17 (b)). -/
theorem State.encodeResult_length_le {s : State} {bits : Bits} (h : s.encodeResult = .ok bits) :
    (pack bits).length ≤ 2088960 := by
  obtain ⟨⟨hlen, -⟩, rfl⟩ := State.encodeResult_eq_ok.1 h
  have hpack := eight_mul_pack_length s.stream
  have hpad := padFor_le s.stream.length
  have hcodes : s.stream.length ≤ _ := s.flatMap_code_length_le s.inputBytes
  rw [State.inputBytes_length] at hcodes
  omega

/-- At most one symbol for each content bit (00_scope.md R17 (c)). -/
theorem State.decodeResult_length_le {s : State} {out : List Byte} (h : s.decodeResult = .ok out) :
    out.length ≤ 524288 := by
  unfold State.decodeResult decodeResultOf walkResultOf at h
  cases hroot : s.tree.rroot with
  | none =>
    rw [hroot] at h
    dsimp only at h
    split_ifs at h
    obtain rfl := Except.ok.inj h
    exact Nat.zero_le _
  | some root =>
    rw [hroot] at h
    dsimp only at h
    split_ifs at h with hlen _ _
    have hle := walk_length_le _ _ _ _ _ h
    rw [State.contentBits_length, State.contentLength] at hle
    simp only [Config.ibufCap] at hlen
    omega

theorem State.output_olen_toNat_le (s : State) (bs : List Byte) : (s.output bs).olen.toNat ≤ bs.length := by
  rw [State.output_olen, BitVec.toNat_ofNat]
  exact Nat.mod_le _ _

/-- Settles O41: an error leaves no output, ENCODE packs at most 65536 codes, and DECODE emits a symbol per bit at most. -/
theorem outputsFitTheBuffer : Obligations.OutputsFitTheBuffer := by
  intro s
  refine ⟨_, _, execEncode_eq s, execDecode_eq s, ?_, ?_⟩
  · cases h : s.encodeResult with
    | error e => exact Nat.zero_le _
    | ok bits => exact le_trans (s.output_olen_toNat_le _) (State.encodeResult_length_le h)
  · cases h : s.decodeResult with
    | error e => exact Nat.zero_le _
    | ok out => exact le_trans (s.output_olen_toNat_le _) (State.decodeResult_length_le h)

end Sys2Proof.Machine

/-! PROOFS. The invariant of the machine: every operation, every command, every event keeps it. -/

namespace Sys2Proof.Machine

/-! ### What the code table is read from (00_scope.md R14) -/

theorem State.code_of_fields {s t : State} (hlen : t.ctLen = s.ctLen) (hval : t.ctVal = s.ctVal) (sym : Byte) :
    t.code sym = s.code sym := by
  simp only [State.code, State.ctLenAt, State.ctValBit, hlen, hval]

theorem State.ctLenAt_of_code {s t : State} {sym : Byte} (h : t.code sym = s.code sym) : t.ctLenAt sym = s.ctLenAt sym :=
  BitVec.eq_of_toNat_eq (by rw [← State.code_length, h, State.code_length])

/-- The code table is the codes of the symbols, nothing else. -/
theorem State.codeTable_of_code {s t : State} (h : ∀ sym, t.code sym = s.code sym) : t.codeTable = s.codeTable := by
  have hentry : t.hasEntry = s.hasEntry := funext fun sym => by
    rw [State.hasEntry, State.hasEntry, State.ctLenAt_of_code (h sym)]
  simp only [State.codeTable, hentry, h]

theorem State.codeTable_of_fields {s t : State} (hlen : t.ctLen = s.ctLen) (hval : t.ctVal = s.ctVal) :
    t.codeTable = s.codeTable :=
  State.codeTable_of_code (State.code_of_fields hlen hval)

/-! ### The shared operations keep the invariant -/

theorem CmdError.code_toNat_le (e : CmdError) : e.code.toNat ≤ 9 := by
  cases e <;> decide

/-- The invariant reads the error code, the buffers, OLEN, the arenas, the table and TREE_VALID only. -/
theorem State.Inv.of_fields {s t : State} (h : s.Inv) (herr : t.err.toNat ≤ 9) (hibuf : t.ibuf = s.ibuf)
    (hobuf : t.obuf = s.obuf) (holen : t.olen = s.olen) (hbuild : t.build = s.build) (htree : t.tree = s.tree)
    (hvalid : t.treeValid = s.treeValid) (hlen : t.ctLen = s.ctLen) (hval : t.ctVal = s.ctVal) : t.Inv where
  errCode := herr
  ibufForm := hibuf ▸ h.ibufForm
  ibufWindow := hibuf ▸ h.ibufWindow
  obufForm := hobuf ▸ h.obufForm
  obufValid := by rw [hobuf, holen]; exact h.obufValid
  olenRange := holen ▸ h.olenRange
  buildFits := hbuild ▸ h.buildFits
  treeFits := htree ▸ h.treeFits
  treeOfTable := by
    rw [hvalid, State.codeTable_of_fields hlen hval, htree]
    exact h.treeOfTable

/-- While no tree is valid, the table and the tree need not agree. -/
theorem State.Inv.of_treeValid_false {s t : State} (h : s.Inv) (herr : t.err.toNat ≤ 9) (hibuf : t.ibuf = s.ibuf)
    (hobuf : t.obuf = s.obuf) (holen : t.olen = s.olen) (hbuild : t.build.Fits) (htree : t.tree.Fits)
    (hvalid : t.treeValid = false) : t.Inv where
  errCode := herr
  ibufForm := hibuf ▸ h.ibufForm
  ibufWindow := hibuf ▸ h.ibufWindow
  obufForm := hobuf ▸ h.obufForm
  obufValid := by rw [hobuf, holen]; exact h.obufValid
  olenRange := holen ▸ h.olenRange
  buildFits := hbuild
  treeFits := htree
  treeOfTable := fun hv => by rw [hvalid] at hv; cases hv

theorem State.Inv.succeed {s : State} (h : s.Inv) : s.succeed.Inv :=
  h.of_fields (Nat.zero_le 9) rfl rfl rfl rfl rfl rfl rfl rfl

theorem State.Inv.raise {s : State} (h : s.Inv) (e : CmdError) (info : Word) : (s.raise e info).Inv :=
  h.of_fields e.code_toNat_le rfl rfl rfl rfl rfl rfl rfl rfl

theorem State.Inv.writeOkay {s : State} (h : s.Inv) : s.writeOkay.Inv :=
  h.of_fields h.errCode rfl rfl rfl rfl rfl rfl rfl rfl

theorem State.Inv.withPad {s : State} (h : s.Inv) (p : Word) : State.Inv { s with pad := p } :=
  h.of_fields h.errCode rfl rfl rfl rfl rfl rfl rfl rfl

/-- An output that fits OBUF is canonical, and exactly its bytes are known (10_state.md R41). -/
theorem State.Inv.output {s : State} (h : s.Inv) {bs : List Byte} (hbs : bs.length ≤ Config.obufCap) :
    (s.output bs).Inv := by
  have holen : (s.output bs).olen.toNat = bs.length := by
    rw [State.output_olen, BitVec.toNat_ofNat]
    simp only [Config.obufCap] at hbs
    omega
  exact
    { errCode := h.errCode
      ibufForm := h.ibufForm
      ibufWindow := h.ibufWindow
      obufForm := Memory.ofBytes_wf obufBase bs
      obufValid := fun a => by
        rw [holen, State.output_obuf, Memory.lookup_ofBytes]
        split
        · simp only [isSome_getElem?]; omega
        · simp only [Option.isSome_none, Bool.false_eq_true, false_iff]; omega
      olenRange := holen.trans_le hbs
      buildFits := h.buildFits
      treeFits := h.treeFits
      treeOfTable := h.treeOfTable }

/-! ### Commands keep the invariant -/

theorem State.Inv.failEncode {s : State} (h : s.Inv) (e : CmdError) (info : Word) : (s.failEncode e info).Inv :=
  ((h.withPad 0).output (Nat.zero_le _)).raise e info

theorem State.Inv.execEncode {s t : State} (h : s.Inv) (ht : execEncode s = .next t) : t.Inv := by
  obtain rfl := Host.Outcome.next.inj ((execEncode_eq s).symm.trans ht)
  cases hres : s.encodeResult with
  | error e => exact h.failEncode e.1 e.2
  | ok bits => exact ((h.withPad _).output ((State.encodeResult_length_le hres).trans (by decide))).succeed

theorem State.Inv.failDecode {s : State} (h : s.Inv) (e : CmdError) : (s.failDecode e).Inv :=
  (h.output (Nat.zero_le _)).raise e 0

theorem State.Inv.execDecode {s t : State} (h : s.Inv) (ht : execDecode s = .next t) : t.Inv := by
  obtain rfl := Host.Outcome.next.inj ((execDecode_eq s).symm.trans ht)
  cases hres : s.decodeResult with
  | error e => exact h.failDecode e
  | ok out => exact (h.output ((State.decodeResult_length_le hres).trans (by decide))).succeed

theorem State.Inv.execBuild {s t : State} (h : s.Inv) (ht : execBuild s = .next t) : t.Inv := by
  obtain rfl := Host.Outcome.next.inj (ht.symm.trans (execBuild_eq s))
  exact h.of_treeValid_false (Nat.zero_le 9) rfl rfl rfl (buildCodes_fits s.freq h.buildFits) h.treeFits rfl

/-- A successful REBUILD leaves the tree of the present table, a failed one no valid tree (42_rebuild.md R160, R174). -/
theorem State.Inv.execRebuild {s t : State} (h : s.Inv) (ht : execRebuild s = .next t) : t.Inv := by
  rcases execRebuild_cases s with ⟨tree, htree, he⟩ | ⟨-, he⟩ <;>
    obtain rfl := Host.Outcome.next.inj (ht.symm.trans he)
  · exact
      { errCode := Nat.zero_le 9
        ibufForm := h.ibufForm
        ibufWindow := h.ibufWindow
        obufForm := h.obufForm
        obufValid := h.obufValid
        olenRange := h.olenRange
        buildFits := h.buildFits
        treeFits := rebuildTable_fits s.codeTable_length_le s.codeTable_code_length h.treeFits htree
        treeOfTable := fun _ => ⟨s.tree, htree⟩ }
  · exact h.of_treeValid_false (CmdError.code_toNat_le .malformedCodeTable) rfl rfl rfl h.buildFits (RebuildStore.clip_fits _) rfl

theorem State.Inv.execClear {s t : State} (h : s.Inv) (ht : execClear s = .next t) : t.Inv := by
  obtain rfl := Host.Outcome.next.inj ht
  have hdropped : State.Inv { s with
      freq := Vector.replicate 256 0
      ctLen := Vector.replicate 256 0
      ilen := 0
      pad := 0
      treeValid := false } :=
    h.of_treeValid_false h.errCode rfl rfl rfl h.buildFits h.treeFits rfl
  exact (hdropped.output (bs := []) (Nat.zero_le _)).succeed

theorem State.Inv.exec {s t : State} (h : s.Inv) (i : Instr) (ht : exec i s = .next t) : t.Inv := by
  cases i with
  | nop =>
    obtain rfl := Host.Outcome.next.inj ht
    exact h.succeed
  | build => exact h.execBuild ht
  | encode => exact h.execEncode ht
  | rebuild => exact h.execRebuild ht
  | decode => exact h.execDecode ht
  | clear => exact h.execClear ht

/-! ### Transactions and reset keep the invariant -/

/-- A word written in the IBUF window keeps the canonical form and the window (20_memory.md R68). -/
theorem State.Inv.storeIbuf {s : State} (h : s.Inv) {a : Nat} (hr : Region.ibuf.Covers a) (ha : a % 4 = 0) (w : Word) :
    State.Inv { s with ibuf := Memory.writeWord s.ibuf a w } where
  errCode := h.errCode
  ibufForm := Memory.writeWord_wf h.ibufForm a w
  ibufWindow := fun x hx => by
    rw [Memory.lookup_writeWord] at hx
    split at hx
    · obtain ⟨hlo, hhi⟩ := hr
      simp only [Region.row, ibufBase, Config.ibufCap] at *
      omega
    · exact h.ibufWindow x hx
  obufForm := h.obufForm
  obufValid := h.obufValid
  olenRange := h.olenRange
  buildFits := h.buildFits
  treeFits := h.treeFits
  treeOfTable := h.treeOfTable

theorem State.Inv.storeRegion {s : State} (h : s.Inv) {r : Region} {a : Nat} (hr : r.Covers a) (ha : a % 4 = 0)
    (w : Word) : (s.storeRegion r a w).Inv := by
  cases r with
  | ilen => exact h.of_fields h.errCode rfl rfl rfl rfl rfl rfl rfl rfl
  | pad => exact h.withPad w
  | freq => exact h.of_fields h.errCode rfl rfl rfl rfl rfl rfl rfl rfl
  | ctLen => exact h.of_treeValid_false h.errCode rfl rfl rfl h.buildFits h.treeFits rfl
  | ctVal => exact h.of_treeValid_false h.errCode rfl rfl rfl h.buildFits h.treeFits rfl
  | ibuf => exact h.storeIbuf hr ha w
  | id => exact h
  | cmd => exact h
  | status => exact h
  | errInfo => exact h
  | olen => exact h
  | obuf => exact h

theorem State.Inv.command {s t : State} (h : s.Inv) (w : Word) (ht : s.command w = .next t) : t.Inv := by
  rcases s.command_cases w with ⟨i, u, -, hu, hc⟩ | ⟨-, hc⟩ <;> obtain rfl := Host.Outcome.next.inj (ht.symm.trans hc)
  · exact (h.exec i hu).writeOkay
  · exact (h.raise .illegalCommand w).writeOkay

/-- Right after a reset the buffers are empty, the arenas are cut to the hardware and no tree is valid. -/
theorem State.afterReset_inv (free : FreeCounters) (q : List HostEvent) :
    State.Inv { State.afterReset free with inputs := q } where
  errCode := Nat.zero_le 9
  ibufForm := List.Pairwise.nil
  ibufWindow := nofun
  obufForm := List.Pairwise.nil
  obufValid := fun _ => ⟨nofun, fun ha => absurd ha.2 (Nat.not_lt.2 ha.1)⟩
  olenRange := Nat.zero_le _
  buildFits := BuildStore.clip_fits _
  treeFits := RebuildStore.clip_fits _
  treeOfTable := nofun

theorem State.Inv.perform {s t : State} (h : s.Inv) (e : HostEvent) (ht : s.perform e = .next t) : t.Inv := by
  cases e with
  | read addr =>
    obtain rfl := Host.Outcome.next.inj ht
    rcases s.hostRead_cases addr with ⟨w, -, hread⟩ | ⟨-, hread⟩ <;> rw [hread]
    · exact h.of_fields h.errCode rfl rfl rfl rfl rfl rfl rfl rfl
    · exact h.of_fields h.errCode rfl rfl rfl rfl rfl rfl rfl rfl
  | reset =>
    obtain rfl := Host.Outcome.next.inj ht
    exact State.afterReset_inv _ _
  | write addr w =>
    rcases s.hostWrite_cases addr w with ⟨-, hw⟩ | ⟨-, hw⟩ | ⟨ha, -, r, -, -, hr, hw⟩
    · obtain rfl := Host.Outcome.next.inj (ht.symm.trans hw)
      exact h.of_fields h.errCode rfl rfl rfl rfl rfl rfl rfl rfl
    · exact h.command w (hw.symm.trans ht)
    · obtain rfl := Host.Outcome.next.inj (ht.symm.trans hw)
      exact (h.storeRegion hr ha w).writeOkay

/-- Settles O59: an idle step changes nothing, and each event the host can issue keeps the invariant. -/
theorem everyStepKeepsTheInvariant : Obligations.EveryStepKeepsTheInvariant := by
  intro s t h ht
  cases hin : s.inputs with
  | nil =>
    obtain rfl := Host.Outcome.next.inj ((step_nil hin).symm.trans ht)
    exact h
  | cons e rest =>
    have htaken : State.Inv { s with inputs := rest } := h.of_fields h.errCode rfl rfl rfl rfl rfl rfl rfl rfl
    exact htaken.perform e ((step_cons hin).symm.trans ht)

/-- Settles O58: the first reset is a reset like every other. -/
theorem resetMeetsTheInvariant : Obligations.ResetMeetsTheInvariant :=
  State.afterReset_inv { reset := 0, obuf := 0, bus := 0, tree := 0 } []

end Sys2Proof.Machine

/-! PROOFS. What each command leaves alone (40_build.md R110; 41_encode.md R140; 42_rebuild.md R160; 43_decode.md R180;
44_system.md R202). -/

namespace Sys2Proof.Machine

/-- The bytes of the OBUF window follow from the fields behind them. -/
theorem SameOutput.of_fields {s t : State} (holen : t.olen = s.olen) (hobuf : t.obuf = s.obuf)
    (hfree : t.free.obuf = s.free.obuf) : SameOutput s t :=
  ⟨holen, hobuf, fun _ ha => State.byteAt_obuf hobuf hfree ha.1 ha.2⟩

theorem exec_rebuild (s : State) : exec .rebuild s = execRebuild s := rfl
theorem exec_decode (s : State) : exec .decode s = execDecode s := rfl
theorem exec_clear (s : State) : exec .clear s = execClear s := rfl

/-! ### BUILD -/

/-- Settles O22: BUILD is one update of the code table, the build scratch and the status. -/
theorem buildSucceedsAndLeavesTheRest : Obligations.BuildSucceedsAndLeavesTheRest := by
  intro s
  exact ⟨_, execBuild_eq s, rfl, rfl, rfl, .of_fields rfl rfl rfl rfl rfl rfl, .of_fields rfl rfl rfl, rfl, rfl⟩

/-- Settles O33: the recorded codes come from FREQ; the old scratch only ends in the new scratch. -/
theorem buildTableDependsOnFreqOnly : Obligations.BuildTableDependsOnFreqOnly := by
  intro s s' hfreq
  have hcodes : (buildCodes s.freq s.build).1 = (buildCodes s'.freq s'.build).1 := by
    rw [hfreq]
    unfold buildCodes
    split <;> rfl
  refine ⟨_, _, execBuild_eq s, execBuild_eq s', ?_, ?_⟩
  · exact congrArg (fun codes => (s.writeCodeTable codes).ctLen) hcodes
  · exact congrArg (fun codes => (s.writeCodeTable codes).ctVal) hcodes

/-! ### ENCODE -/

/-- What every outcome of ENCODE leaves: an error as a success writes PAD, OLEN, OBUF and the status only. -/
structure EncodeFrame (s t : State) : Prop where
  outside : SameOutside s t
  table : SameTable s t
  tree : SameTree s t
  build : t.build = s.build

theorem FailedEncode.frame {s t : State} {code : BitVec 4} {info : Word} (h : FailedEncode s t code info) :
    EncodeFrame s t :=
  ⟨h.outside, h.table, h.tree, h.build⟩

theorem State.endEncode_frame (s : State) (r : Except (CmdError × Word) Bits) : EncodeFrame s (s.endEncode r) := by
  cases r with
  | error e => exact (s.failEncode_failed e.1 e.2).frame
  | ok bits => exact ⟨.of_fields rfl rfl rfl rfl rfl rfl, .of_fields rfl rfl, ⟨rfl, rfl⟩, rfl⟩

/-- Settles O39: the frame is the same however ENCODE ends. -/
theorem encodeLeavesTheRest : Obligations.EncodeLeavesTheRest := by
  intro s
  obtain ⟨houtside, htable, htree, hbuild⟩ := s.endEncode_frame s.encodeResult
  exact ⟨_, execEncode_eq s, houtside, htable, htree, hbuild⟩

/-! ### DECODE -/

theorem State.failDecode_failed (s : State) (e : CmdError) : FailedDecode s (s.failDecode e) e.code where
  err := s.failDecode_err e
  errInfo := s.failDecode_errInfo e
  olen := s.failDecode_olen e
  pad := s.failDecode_pad e
  outside := .of_fields rfl rfl rfl rfl rfl rfl
  table := .of_fields rfl rfl
  tree := ⟨rfl, rfl⟩
  build := s.failDecode_build e

/-- What every outcome of DECODE leaves: it writes OLEN, OBUF and ERR only, and ERRINFO becomes 0. -/
structure DecodeFrame (s t : State) : Prop where
  errInfo : t.errInfo = 0
  outside : SameOutside s t
  table : SameTable s t
  tree : SameTree s t
  pad : t.pad = s.pad
  build : t.build = s.build

theorem FailedDecode.frame {s t : State} {code : BitVec 4} (h : FailedDecode s t code) : DecodeFrame s t :=
  ⟨h.errInfo, h.outside, h.table, h.tree, h.pad, h.build⟩

theorem State.endDecode_frame (s : State) (r : Except CmdError (List Byte)) : DecodeFrame s (s.endDecode r) := by
  cases r with
  | error e => exact (s.failDecode_failed e).frame
  | ok out => exact ⟨rfl, .of_fields rfl rfl rfl rfl rfl rfl, .of_fields rfl rfl, ⟨rfl, rfl⟩, rfl, rfl⟩

/-- Settles O53: the frame is the same however DECODE ends. -/
theorem decodeLeavesTheRest : Obligations.DecodeLeavesTheRest := by
  intro s
  obtain ⟨herrInfo, houtside, htable, htree, hpad, hbuild⟩ := s.endDecode_frame s.decodeResult
  exact ⟨_, execDecode_eq s, herrInfo, houtside, htable, htree, hpad, hbuild⟩

/-! ### REBUILD -/

/-- Settles O47: REBUILD writes the tree, TREE_VALID and the status, on success as on failure. -/
theorem rebuildLeavesTheRest : Obligations.RebuildLeavesTheRest := by
  intro s
  rcases execRebuild_cases s with ⟨tree, -, h⟩ | ⟨-, h⟩
  · exact ⟨_, h, .inl ⟨rfl, rfl⟩, rfl, .of_fields rfl rfl rfl rfl rfl rfl, .of_fields rfl rfl, .of_fields rfl rfl rfl, rfl,
      rfl⟩
  · exact ⟨_, h, .inr ⟨rfl, rfl⟩, rfl, .of_fields rfl rfl rfl rfl rfl rfl, .of_fields rfl rfl, .of_fields rfl rfl rfl, rfl,
      rfl⟩

/-- Settles O42: an empty table meets the first case of REBUILD, which writes no node. -/
theorem rebuildOfTheEmptyTable : Obligations.RebuildOfTheEmptyTable := by
  intro s hempty
  rw [exec_rebuild, execRebuild, s.codeTable_eq_nil.2 hempty]
  rfl

/-! ### CLEAR -/

/-- An address of the CT_VAL or IBUF window, or of a hole between the windows, reads as before when these two stay. -/
theorem State.byteAt_ctVal_to_ibuf {s t : State} (hval : t.ctVal = s.ctVal) (hibuf : t.ibuf = s.ibuf)
    (hresets : t.free.reset = s.free.reset) {a : Nat} (ha : 0x002000 ≤ a ∧ a < 0x200000) : t.byteAt a = s.byteAt a := by
  obtain ⟨hlo, hhi⟩ := ha
  by_cases hct : a < 0x004000
  · exact State.byteAt_congr (r := Region.ctVal.row) Region.ctVal.row_mem (by decide) (by decide) hlo hct fun x => by
      simp only [Region.row_region, State.regionWord, State.ctValWordAt, hval]
  · by_cases hib : 0x010000 ≤ a ∧ a < 0x020000
    · exact State.byteAt_ibuf hibuf hresets hib.1 hib.2
    · have hhole : ∀ u : State, u.byteAt a = none := fun u => by
        have hword : (BitVec.ofNat 22 (a / 4 * 4)).toNat = a / 4 * 4 := by
          rw [BitVec.toNat_ofNat, Nat.mod_eq_of_lt (by omega)]
        have hnone : u.readWord (BitVec.ofNat 22 (a / 4 * 4)) = none := by
          rw [State.readWord_eq_none_iff, hword]
          unfold Mapped
          omega
        simp [State.byteAt, hnone]
      rw [hhole, hhole]

theorem State.readWord_id (s : State) : s.readWord 0x000000#22 = some 0x48554631#32 :=
  s.readWord_of_covers (r := .id) rfl ⟨Nat.le_refl 0, by decide⟩

/-- Settles O21: CLEAR is one update, which leaves CT_VAL, IBUF and the arenas. -/
theorem clearRestoresTheResetValues : Obligations.ClearRestoresTheResetValues := by
  intro s
  exact ⟨_, exec_clear s, rfl, rfl, rfl, rfl, rfl, rfl, fun sym => symAt_replicate 0 sym, fun sym => symAt_replicate 0 sym, rfl,
    rfl, fun _ => rfl, fun _ ha => by refine State.byteAt_ctVal_to_ibuf ?_ ?_ ?_ ha <;> rfl, rfl, rfl, rfl, rfl, State.readWord_id _⟩

end Sys2Proof.Machine

/-! PROOFS. Events and their order: the queue, resets, command writes (00_scope.md R6, R7; 20_memory.md R60, R73;
10_state.md R26, R31). -/

namespace Sys2Proof.Machine

/-! ### Command words -/

theorem opcode_of_instrOfOpcode {op : BitVec 8} {i : Instr} (h : instrOfOpcode op = some i) : op = i.opcode := by
  refine BitVec.eq_of_toNat_eq ?_
  unfold instrOfOpcode at h
  split at h <;> cases h <;> assumption

/-- A word that decodes to a command is its command word: the mask covers all 32 bits (30_encoding.md R92). -/
theorem eq_encode_of_decode {w : Word} {i : Instr} (h : decode w = .instr i) : w = encode i := by
  unfold decode at h
  split at h
  · rename_i hrsv
    split at h
    · rename_i j hop
      obtain rfl := Decoded.instr.inj h
      have hrsv := (CommandWord.reservedIsZero_ofWord w).1 hrsv
      have hop := congrArg BitVec.toNat (opcode_of_instrOfOpcode hop)
      rw [CommandWord.ofWord_op_toNat] at hop
      refine BitVec.eq_of_toNat_eq ?_
      rw [encode_toNat]
      omega
    · cases h
  · cases h

/-- A word in the numbering of the opcode table is itself. -/
theorem commandWordOfTable_toNat (w : Word) : commandWordOfTable 32 w.toNat = w := by
  rw [commandWordOfTable, Nat.mod_eq_of_lt w.isLt, BitVec.ofNat_toNat, BitVec.setWidth_eq]

/-- Settles O3: the fields of a word that decodes are those of its command. -/
theorem decodeAndEncodeAgree : Obligations.DecodeAndEncodeAgree := by
  refine ⟨fun i _ => ⟨decode_encode i, ?_⟩, fun w i => eq_encode_of_decode⟩
  rw [decodeTableWord, if_pos (Nat.le_refl 32), commandWordOfTable_toNat, decode_encode]
  rfl

/-- A CMD write of a command runs its meaning and gets OKAY. -/
theorem State.command_of_instr (s : State) {w : Word} {i : Instr} (h : decode w = .instr i) :
    s.command w = completeCommand (exec i s) := by
  simp only [State.command, h]

/-- Settles O4: the step on a CMD write is the meaning of the decoded command with an OKAY response. -/
theorem stepRunsTheDecodedCommand : Obligations.StepRunsTheDecodedCommand := by
  intro s w i rest hin hdec
  have hstep := (step_cmdWrite hin).trans (State.command_of_instr _ hdec)
  refine ⟨fun t ht => ?_, fun r hr => ?_, fun r hr => ?_⟩
  · rw [hstep, ht]
    rfl
  · rw [hstep, hr]
    rfl
  · rw [hstep, hr]
    rfl

/-- Settles O5: the placed word is a CMD write that waits in front of the queue. -/
theorem placedWordRunsNext : Obligations.PlacedWordRunsNext := by
  intro s t i ht
  have hin : (s.withFetchWord 32 (encode i).toNat).inputs = .write cmdAddr (encode i) :: s.inputs := by
    rw [State.withFetchWord, commandWordOfTable_toNat]
  exact (stepRunsTheDecodedCommand _ _ _ _ hin (decode_encode i)).1 t ht

/-! ### The queue -/

/-- The state with another queue of waiting events. -/
def State.withInputs (s : State) (q : List HostEvent) : State :=
  { s with inputs := q }

@[simp] theorem State.withInputs_inputs (s : State) (q : List HostEvent) : (s.withInputs q).inputs = q := rfl

@[simp] theorem State.withInputs_withInputs (s : State) (q p : List HostEvent) :
    (s.withInputs q).withInputs p = s.withInputs p := rfl

/-- An outcome with another queue. -/
def outcomeWithInputs (q : List HostEvent) : Host.Outcome State Fault Refusal → Host.Outcome State Fault Refusal
  | .next t => .next (t.withInputs q)
  | .fault r => .fault r
  | .refused r => .refused r

theorem State.substitute_withInputs (s : State) (q : List HostEvent) (i : Nat) (bs : List Byte) :
    (s.withInputs q).substitute i bs = s.substitute i bs := by
  induction bs generalizing i with
  | nil => rfl
  | cons b bs ih =>
    simp only [State.substitute, ih]
    rfl

/-- ENCODE neither reads nor writes the queue. -/
theorem execEncode_withInputs (s : State) (q : List HostEvent) :
    execEncode (s.withInputs q) = outcomeWithInputs q (execEncode s) := by
  have hres : (s.withInputs q).encodeResult = s.encodeResult :=
    congrArg (encodeResultOf s.ilen s.codeTable) (s.substitute_withInputs q 0 s.inputBytes)
  rw [execEncode_eq, execEncode_eq, hres]
  cases s.encodeResult with
  | error e => rfl
  | ok bits => rfl

theorem execRebuild_withInputs (s : State) (q : List HostEvent) :
    execRebuild (s.withInputs q) = outcomeWithInputs q (execRebuild s) := by
  unfold execRebuild
  rw [show rebuildTable (s.withInputs q).codeTable (s.withInputs q).tree = rebuildTable s.codeTable s.tree from rfl]
  cases rebuildTable s.codeTable s.tree with
  | some t => rfl
  | none => rfl

/-- DECODE neither reads nor writes the queue. -/
theorem execDecode_withInputs (s : State) (q : List HostEvent) :
    execDecode (s.withInputs q) = outcomeWithInputs q (execDecode s) := by
  rw [execDecode_eq, execDecode_eq, show (s.withInputs q).decodeResult = s.decodeResult from rfl]
  cases s.decodeResult with
  | error e => rfl
  | ok out => rfl

/-- No command reads or writes the queue. -/
theorem exec_withInputs (i : Instr) (s : State) (q : List HostEvent) :
    exec i (s.withInputs q) = outcomeWithInputs q (exec i s) := by
  cases i with
  | nop => rfl
  | build => rfl
  | encode => exact execEncode_withInputs s q
  | rebuild => exact execRebuild_withInputs s q
  | decode => exact execDecode_withInputs s q
  | clear => rfl

theorem State.command_withInputs (s : State) (w : Word) (q : List HostEvent) :
    (s.withInputs q).command w = outcomeWithInputs q (s.command w) := by
  unfold State.command
  cases decode w with
  | illegal v => rfl
  | instr i =>
    obtain ⟨t, ht⟩ := exec_next i s
    simp only [exec_withInputs, ht]
    rfl

theorem State.hostWrite_withInputs (s : State) (addr : HostAddr) (w : Word) (q : List HostEvent) :
    (s.withInputs q).hostWrite addr w = outcomeWithInputs q (s.hostWrite addr w) := by
  unfold State.hostWrite
  split_ifs
  · cases mapRowOf addr.toNat with
    | none => rfl
    | some row =>
      dsimp only
      split_ifs
      · cases row.region with
        | cmd => exact s.command_withInputs w q
        | _ => rfl
      · rfl
  · rfl

theorem State.hostRead_withInputs (s : State) (addr : HostAddr) (q : List HostEvent) :
    (s.withInputs q).hostRead addr = (s.hostRead addr).withInputs q := by
  unfold State.hostRead
  rw [show (s.withInputs q).readWord addr = s.readWord addr from rfl]
  cases s.readWord addr with
  | none => rfl
  | some w => rfl

/-- What an event does is the same whatever waits behind it. -/
theorem State.perform_withInputs (s : State) (e : HostEvent) (q : List HostEvent) :
    (s.withInputs q).perform e = outcomeWithInputs q (s.perform e) := by
  cases e with
  | read addr => exact congrArg Host.Outcome.next (s.hostRead_withInputs addr q)
  | write addr w => exact s.hostWrite_withInputs addr w q
  | reset => rfl

/-- An event leaves what waits behind it. -/
theorem State.perform_inputs {s t : State} {e : HostEvent} (h : s.perform e = .next t) : t.inputs = s.inputs := by
  have hself : s.perform e = outcomeWithInputs s.inputs (s.perform e) := s.perform_withInputs e s.inputs
  rw [h] at hself
  have ht : t = t.withInputs s.inputs := Host.Outcome.next.inj hself
  calc t.inputs = (t.withInputs s.inputs).inputs := congrArg State.inputs ht
    _ = s.inputs := rfl

theorem State.withInputs_of_inputs {s : State} {q : List HostEvent} (h : s.inputs = q) : s.withInputs q = s := by
  subst h
  rfl

/-- A step of the core with an event in front of the queue performs that event. -/
theorem step_withInputs_cons (s : State) (e : HostEvent) (q : List HostEvent) :
    step (s.withInputs (e :: q)) = (s.withInputs q).perform e :=
  step_cons (s := s.withInputs (e :: q)) rfl

theorem run_eq_performAll (es rest : List HostEvent) (s : State) :
    core.run es.length (s.withInputs (es ++ rest)) = State.performAll (s.withInputs rest) es := by
  induction es generalizing s with
  | nil => rfl
  | cons e es ih =>
    obtain ⟨t, ht⟩ := (s.withInputs rest).perform_next e
    have hrest : t.withInputs rest = t := State.withInputs_of_inputs (State.perform_inputs ht)
    have hstep : core.step (s.withInputs (e :: es ++ rest)) = .next (t.withInputs (es ++ rest)) := by
      refine (step_withInputs_cons s e (es ++ rest)).trans ?_
      rw [← State.withInputs_withInputs s rest (es ++ rest), State.perform_withInputs, ht]
      rfl
    simp only [List.length_cons, Host.Core.run, hstep, State.performAll, ht]
    exact (ih t).trans (by rw [hrest])

/-- Settles O8: each step takes the oldest event, and what it does is the same whatever waits behind it. -/
theorem eventsTakeEffectInOrder : Obligations.EventsTakeEffectInOrder :=
  run_eq_performAll

/-- The response of a write is a write response, whatever was written where (20_memory.md R60). -/
theorem State.hostWrite_resp {s t : State} {addr : HostAddr} {w : Word} (h : s.hostWrite addr w = .next t) :
    ∃ r, t.resp = some (.write r) := by
  rcases s.hostWrite_cases addr w with ⟨-, hw⟩ | ⟨-, hw⟩ | ⟨-, -, r, -, -, -, hw⟩
  · obtain rfl := Host.Outcome.next.inj (h.symm.trans hw)
    exact ⟨_, rfl⟩
  · rcases s.command_cases w with ⟨i, u, -, -, hc⟩ | ⟨-, hc⟩ <;>
      obtain rfl := Host.Outcome.next.inj (h.symm.trans (hw.trans hc))
    · exact ⟨_, rfl⟩
    · exact ⟨_, rfl⟩
  · obtain rfl := Host.Outcome.next.inj (h.symm.trans hw)
    exact ⟨_, rfl⟩

theorem State.hostRead_resp (s : State) (addr : HostAddr) : ∃ r d, (s.hostRead addr).resp = some (.read r d) := by
  rcases s.hostRead_cases addr with ⟨w, -, h⟩ | ⟨-, h⟩ <;> rw [h]
  · exact ⟨_, _, rfl⟩
  · exact ⟨_, _, rfl⟩

/-- Settles O7: each event has a next state, and its response is of its kind. -/
theorem everyTransactionGetsAResponse : Obligations.EveryTransactionGetsAResponse := by
  refine fun s => ⟨step_nil, fun e rest hin => ?_⟩
  obtain ⟨t, ht⟩ := (s.withInputs rest).perform_next e
  refine ⟨t, (step_cons hin).trans ht, State.perform_inputs ht, ?_, ?_⟩
  · rintro addr rfl
    obtain rfl := Host.Outcome.next.inj ht
    exact State.hostRead_resp _ addr
  · rintro addr w rfl
    exact State.hostWrite_resp ht

/-! ### Reset -/

/-- Settles O9: the values stand in the state after reset, and ID reads as its constant. -/
theorem resetLeavesTheSpecifiedValues : Obligations.ResetLeavesTheSpecifiedValues :=
  ⟨rfl, rfl, rfl, rfl, rfl, rfl, fun sym => symAt_replicate 0 sym, fun sym => symAt_replicate 0 sym, State.readWord_id _⟩

/-- Settles O10: the event replaces every register, and only the queue is kept. -/
theorem resetEventRestoresTheSpecifiedValues : Obligations.ResetEventRestoresTheSpecifiedValues := by
  intro s rest hin
  exact ⟨_, step_cons hin, rfl, rfl, rfl, rfl, rfl, rfl, rfl, fun sym => symAt_replicate 0 sym,
    fun sym => symAt_replicate 0 sym⟩

/-! ### TREE_VALID -/

/-- Of the commands only REBUILD can make a tree valid, and then it succeeds (10_state.md R26). -/
theorem exec_makes_treeValid {s t : State} {i : Instr} (ht : exec i s = .next t) (hs : s.treeValid = false)
    (hv : t.treeValid = true) : i = .rebuild ∧ t.err = 0 := by
  have hkept : t.treeValid ≠ s.treeValid := by rw [hs, hv]; decide
  cases i with
  | nop =>
    obtain rfl := Host.Outcome.next.inj ht
    exact absurd rfl hkept
  | build =>
    obtain rfl := Host.Outcome.next.inj ht
    cases hv
  | encode =>
    obtain rfl := Host.Outcome.next.inj ((execEncode_eq s).symm.trans ht)
    exact absurd (s.endEncode_frame s.encodeResult).tree.valid hkept
  | rebuild =>
    rcases execRebuild_cases s with ⟨tree, -, h⟩ | ⟨-, h⟩ <;> obtain rfl := Host.Outcome.next.inj (h.symm.trans ht)
    · exact ⟨rfl, rfl⟩
    · cases hv
  | decode =>
    obtain rfl := Host.Outcome.next.inj ((execDecode_eq s).symm.trans ht)
    exact absurd (s.endDecode_frame s.decodeResult).tree.valid hkept
  | clear =>
    obtain rfl := Host.Outcome.next.inj ht
    cases hv

/-- No store makes a tree valid. -/
theorem State.storeRegion_treeValid {s : State} (hs : s.treeValid = false) (r : Region) (a : Nat) (w : Word) :
    (s.storeRegion r a w).treeValid = false := by
  cases r with
  | ctLen => rfl
  | ctVal => rfl
  | _ => exact hs

/-- Settles O57: of all events only a CMD write can make a tree valid, and of all words only REBUILD. -/
theorem onlyRebuildMakesTheTreeValid : Obligations.OnlyRebuildMakesTheTreeValid := by
  intro s t hstep hs hv
  cases hin : s.inputs with
  | nil =>
    obtain rfl := Host.Outcome.next.inj ((step_nil hin).symm.trans hstep)
    rw [hs] at hv
    cases hv
  | cons e rest =>
    have ht : (s.withInputs rest).perform e = .next t := (step_cons hin).symm.trans hstep
    cases e with
    | read addr =>
      obtain rfl := Host.Outcome.next.inj ht
      have hkept : ((s.withInputs rest).hostRead addr).treeValid = s.treeValid := by
        rcases (s.withInputs rest).hostRead_cases addr with ⟨w, -, h⟩ | ⟨-, h⟩ <;> rw [h] <;> rfl
      rw [hkept, hs] at hv
      cases hv
    | reset =>
      obtain rfl := Host.Outcome.next.inj ht
      cases hv
    | write addr w =>
      rcases (s.withInputs rest).hostWrite_cases addr w with ⟨-, hw⟩ | ⟨rfl, hw⟩ | ⟨-, -, r, -, -, -, hw⟩
      · obtain rfl := Host.Outcome.next.inj (hw.symm.trans ht)
        exact absurd (hs.symm.trans hv) (by decide)
      · rcases (s.withInputs rest).command_cases w with ⟨i, u, hdec, hu, hc⟩ | ⟨-, hc⟩ <;>
          obtain rfl := Host.Outcome.next.inj ((hw.trans hc).symm.trans ht)
        · obtain ⟨rfl, herr⟩ := exec_makes_treeValid hu hs hv
          exact ⟨herr, rest, by rw [eq_encode_of_decode hdec]⟩
        · exact absurd (hs.symm.trans hv) (by decide)
      · obtain rfl := Host.Outcome.next.inj (hw.symm.trans ht)
        have hkept := State.storeRegion_treeValid (s := s.withInputs rest) hs r addr.toNat w
        exact absurd (hkept.symm.trans hv) (by decide)

end Sys2Proof.Machine

/-! PROOFS. Reads and stores at a word of each region (20_memory.md R61, R62, R64, R66, R68, R69). -/

namespace Sys2Proof.Machine

/-! ### Addresses -/

theorem Region.Covers.lt {r : Region} {a : Nat} (h : r.Covers a) : a < 2 ^ 22 := by
  obtain ⟨hlo, hhi⟩ := h
  cases r <;> simp only [Region.row] at hhi <;> omega

theorem hostAddr_toNat {a : Nat} (h : a < 2 ^ 22) : (hostAddr a).toNat = a := by
  rw [hostAddr, BitVec.toNat_ofNat, Nat.mod_eq_of_lt h]

theorem State.readWord_hostAddr (s : State) {r : Region} {a : Nat} (ha : a % 4 = 0) (hr : r.Covers a) :
    s.readWord (hostAddr a) = some (s.regionWord r a) := by
  have haddr := hostAddr_toNat hr.lt
  rw [s.readWord_of_covers (r := r) (by rw [haddr]; exact ha) (by rw [haddr]; exact hr), haddr]

theorem ofNat_toNat_div {sym : Byte} {base size : Nat} (hsize : 0 < size) :
    BitVec.ofNat 8 ((base + size * sym.toNat - base) / size) = sym := by
  rw [Nat.add_sub_cancel_left, Nat.mul_div_cancel_left _ hsize, BitVec.ofNat_toNat, BitVec.setWidth_eq]

/-! ### The registers and the tables as read -/

theorem State.regionWord_freq (s : State) (sym : Byte) : s.regionWord .freq (0x000400 + 4 * sym.toNat) = s.freqAt sym :=
  congrArg s.freqAt (ofNat_toNat_div (by decide))

theorem State.regionWord_ctLen (s : State) (sym : Byte) :
    s.regionWord .ctLen (0x000800 + 4 * sym.toNat) = (s.ctLenAt sym).setWidth 32 :=
  congrArg (fun x => (s.ctLenAt x).setWidth 32) (ofNat_toNat_div (by decide))

theorem State.regionWord_ctVal (s : State) (sym : Byte) {w : Nat} (hw : w < 8) :
    s.regionWord .ctVal (0x002000 + 32 * sym.toNat + 4 * w) = s.ctValWordAt sym w := by
  have hsym : (0x002000 + 32 * sym.toNat + 4 * w - ctValBase) / 32 = sym.toNat := by
    simp only [ctValBase]
    omega
  have hword : (0x002000 + 32 * sym.toNat + 4 * w - ctValBase) % 32 / 4 = w := by
    simp only [ctValBase]
    omega
  rw [State.regionWord, hsym, hword, BitVec.ofNat_toNat, BitVec.setWidth_eq]

theorem State.regionWord_ibuf (s : State) (k : Nat) : s.regionWord .ibuf (0x010000 + 4 * k) =
    wordOfLanes (s.ibufAt (4 * k)) (s.ibufAt (4 * k + 1)) (s.ibufAt (4 * k + 2)) (s.ibufAt (4 * k + 3)) := by
  simp only [State.regionWord, ibufBase, Nat.add_sub_cancel_left]

theorem State.regionWord_obuf (s : State) (k : Nat) : s.regionWord .obuf (0x200000 + 4 * k) =
    wordOfLanes (s.obufAt (4 * k)) (s.obufAt (4 * k + 1)) (s.obufAt (4 * k + 2)) (s.obufAt (4 * k + 3)) := by
  simp only [State.regionWord, obufBase, Nat.add_sub_cancel_left]

theorem State.statusWord_toNat (s : State) : s.statusWord.toNat = s.err.toNat + 16 * s.treeValid.toNat := by
  have herr : s.err.toNat < 2 ^ 4 := s.err.isLt
  have hflag : (0#27 ++ BitVec.ofBool s.treeValid).toNat = s.treeValid.toNat := by
    cases s.treeValid <;> rfl
  rw [State.statusWord, BitVec.toNat_append, ← Nat.shiftLeft_add_eq_or_of_lt herr, hflag, Nat.shiftLeft_eq]
  omega

/-- Settles O13: the address names its row, and the row's region holds the word. -/
theorem readsReturnTheMappedWords : Obligations.ReadsReturnTheMappedWords := by
  intro s
  have hword : ∀ r : Region, ∀ a, a % 4 = 0 → r.Covers a → s.readWord (hostAddr a) = some (s.regionWord r a) :=
    fun r a => s.readWord_hostAddr
  refine ⟨s.readWord_id, hword .cmd _ rfl ⟨by decide, by decide⟩, ⟨_, hword .status 8 rfl ⟨by decide, by decide⟩, ?_⟩,
    hword .errInfo _ rfl ⟨by decide, by decide⟩, hword .ilen _ rfl ⟨by decide, by decide⟩,
    hword .olen _ rfl ⟨by decide, by decide⟩, hword .pad _ rfl ⟨by decide, by decide⟩, fun sym => ?_, fun sym => ?_,
    fun sym w hw => ?_, fun k hk => ?_, fun k hk => ?_, s.readWord_eq_none_iff⟩
  · exact s.statusWord_toNat
  · have := sym.isLt
    rw [hword .freq _ (by omega) (by simp only [Region.Covers, Region.row]; omega), State.regionWord_freq]
  · have := sym.isLt
    refine ⟨_, hword .ctLen _ (by omega) (by simp only [Region.Covers, Region.row]; omega), ?_⟩
    rw [State.regionWord_ctLen, BitVec.toNat_setWidth]
    omega
  · have := sym.isLt
    rw [hword .ctVal _ (by omega) (by simp only [Region.Covers, Region.row]; omega), State.regionWord_ctVal s sym hw]
  · rw [hword .ibuf _ (by omega) (by simp only [Region.Covers, Region.row]; omega), State.regionWord_ibuf]
    rfl
  · rw [hword .obuf _ (by omega) (by simp only [Region.Covers, Region.row]; omega), State.regionWord_obuf]
    rfl

/-- Settles O11: an aligned address of a row reads that row's word. -/
theorem alignedMappedReadChangesNothing : Obligations.AlignedMappedReadChangesNothing := by
  intro s addr rest hin ha hmapped
  obtain ⟨r, hr⟩ := mapped_iff_covers.1 hmapped
  refine ⟨_, s.readWord_of_covers ha hr, (step_cons hin).trans (congrArg Host.Outcome.next ?_)⟩
  have hread := State.hostRead_of_mapRow { s with inputs := rest } ha hr.mapRowOf
  rwa [Region.row_region] at hread

/-- Settles O12: an address that names no row for the transaction gets ERROR, and CMD reads as 0. -/
theorem errorTransactionsChangeNothing : Obligations.ErrorTransactionsChangeNothing := by
  intro s addr w rest
  refine ⟨fun hin herr => ?_, fun hin herr => ?_, fun hin => ?_⟩
  · have hnone := (State.readWord_eq_none_iff { s with inputs := rest } addr).2 herr
    exact ⟨_, (step_cons hin).trans (by rw [State.perform, State.hostRead, hnone])⟩
  · rcases State.hostWrite_cases { s with inputs := rest } addr w with ⟨-, h⟩ | ⟨rfl, -⟩ | ⟨ha, -, r, -, hw, hr, -⟩
    · exact (step_cons hin).trans h
    · exact absurd herr (by unfold Writable; decide)
    · exact absurd herr (not_or.2 ⟨not_not.2 ha, not_not.2 ((writable_iff_of_covers hr).2 hw)⟩)
  · exact (step_cons hin).trans (congrArg Host.Outcome.next (State.hostRead_of_mapRow _ rfl mapRowOf_cmd))

/-! ### Stores -/

/-- A store keeps the error code, the arenas and everything the host did not address. -/
theorem State.storeRegion_frame (s : State) (r : Region) (a : Nat) (w : Word) :
    (s.storeRegion r a w).err = s.err ∧ (s.storeRegion r a w).tree = s.tree ∧ (s.storeRegion r a w).build = s.build ∧
      (s.storeRegion r a w).inputs = s.inputs := by
  cases r <;> exact ⟨rfl, rfl, rfl, rfl⟩

/-- A store outside the CT regions keeps TREE_VALID. -/
theorem State.storeRegion_treeValid_of_ne (s : State) {r : Region} (hlen : r ≠ .ctLen) (hval : r ≠ .ctVal) (a : Nat)
    (w : Word) : (s.storeRegion r a w).treeValid = s.treeValid := by
  cases r with
  | ctLen => exact absurd rfl hlen
  | ctVal => exact absurd rfl hval
  | _ => rfl

/-- Byte `i` of IBUF after a store of word `k` (20_memory.md R68, R69). -/
theorem State.storeIbuf_ibufAt (s : State) (k : Nat) (w : Word) (i : Nat) :
    (s.storeRegion .ibuf (0x010000 + 4 * k) w).ibufAt i = if i / 4 = k then lane w (i % 4) else s.ibufAt i := by
  simp only [State.storeRegion, State.ibufAt, Memory.lookup_writeWord, ibufBase]
  by_cases h : i / 4 = k
  · rw [if_pos (by omega), if_pos h, show 0x010000 + i - (0x010000 + 4 * k) = i % 4 by omega]
    rfl
  · rw [if_neg (by omega), if_neg h]

/-- The word of another region reads as before a store; only STATUS shows TREE_VALID. -/
theorem State.regionWord_storeRegion_of_ne (s : State) {r q : Region} (h : q ≠ r) (hq : q ≠ .status) (a b : Nat) (w : Word) :
    (s.storeRegion r a w).regionWord q b = s.regionWord q b := by
  cases r with
  | ilen => cases q with
    | ilen => exact absurd rfl h
    | _ => rfl
  | pad => cases q with
    | pad => exact absurd rfl h
    | _ => rfl
  | freq => cases q with
    | freq => exact absurd rfl h
    | _ => rfl
  | ctLen => cases q with
    | ctLen => exact absurd rfl h
    | status => exact absurd rfl hq
    | _ => rfl
  | ctVal => cases q with
    | ctVal => exact absurd rfl h
    | status => exact absurd rfl hq
    | _ => rfl
  | ibuf => cases q with
    | ibuf => exact absurd rfl h
    | _ => rfl
  | _ => rfl

theorem ofNat8_injective {m n : Nat} (hm : m < 256) (hn : n < 256) (h : BitVec.ofNat 8 m = BitVec.ofNat 8 n) : m = n := by
  have := congrArg BitVec.toNat h
  rwa [BitVec.toNat_ofNat, BitVec.toNat_ofNat, Nat.mod_eq_of_lt hm, Nat.mod_eq_of_lt hn] at this

/-- A CT_VAL word after a store: the words of one symbol are separate, and so are the symbols. -/
theorem State.storeCtVal_ctValWordAt (s : State) {a : Nat} (w : Word) (sym : Byte) (k : Nat) :
    (s.storeRegion .ctVal a w).ctValWordAt sym k =
      if sym = BitVec.ofNat 8 ((a - ctValBase) / 32) ∧ k = (a - ctValBase) % 32 / 4 then w else s.ctValWordAt sym k := by
  have hword : (a - ctValBase) % 32 / 4 < 8 := by omega
  simp only [State.storeRegion, State.ctValWordAt, State.dropTree_ctVal, symAt_symSet]
  by_cases hsym : sym = BitVec.ofNat 8 ((a - ctValBase) / 32)
  · by_cases hk : k = (a - ctValBase) % 32 / 4
    · simp [hsym, hk, hword]
    · simp [hsym, hk, Ne.symm hk]
  · simp [hsym]

theorem setWidth_setWidth_8 (w : Word) : (w.setWidth 8).setWidth 32 = w &&& 0xFF#32 := by
  refine BitVec.eq_of_toNat_eq ?_
  have hmask : w.toNat &&& 0xFF = w.toNat % 2 ^ 8 := Nat.and_two_pow_sub_one_eq_mod w.toNat 8
  rw [BitVec.toNat_setWidth, BitVec.toNat_setWidth, BitVec.toNat_and, BitVec.toNat_ofNat, Nat.mod_eq_of_lt (by decide : 0xFF < 2 ^ 32),
    hmask]
  omega

/-- The stored word reads as written, of CT_LEN its low byte (10_state.md R37). -/
theorem State.regionWord_storeRegion_self (s : State) {r : Region} {a : Nat} (hw : r.row.writable = true) (hcmd : r ≠ .cmd)
    (ha : a % 4 = 0) (hr : r.Covers a) (w : Word) :
    (s.storeRegion r a w).regionWord r a = if r = .ctLen then w &&& 0xFF#32 else w := by
  cases r with
  | ilen => rfl
  | pad => rfl
  | freq => exact symAt_symSet_self _ _ w
  | ctLen => exact (congrArg (BitVec.setWidth 32) (symAt_symSet_self _ _ _)).trans (setWidth_setWidth_8 w)
  | ctVal => exact (s.storeCtVal_ctValWordAt w _ _).trans (if_pos ⟨rfl, rfl⟩)
  | ibuf =>
    obtain ⟨k, rfl⟩ : ∃ k, a = 0x010000 + 4 * k := ⟨(a - 0x010000) / 4, by have := hr.1; simp only [Region.row] at this; omega⟩
    have hlane : ∀ j, j < 4 → (s.storeRegion .ibuf (0x010000 + 4 * k) w).ibufAt (4 * k + j) = lane w j := fun j hj => by
      rw [State.storeIbuf_ibufAt, if_pos (by omega), show (4 * k + j) % 4 = j by omega]
    have hzero := hlane 0 (by decide)
    rw [Nat.add_zero] at hzero
    rw [State.regionWord_ibuf, hzero, hlane 1 (by decide), hlane 2 (by decide), hlane 3 (by decide)]
    exact wordOfLanes_lane w
  | cmd => exact absurd rfl hcmd
  | _ => cases hw

/-- Every other word of the stored region reads as before. -/
theorem State.regionWord_storeRegion_of_addr_ne (s : State) {r : Region} {a b : Nat} (ha : a % 4 = 0) (hb : b % 4 = 0)
    (hra : r.Covers a) (hrb : r.Covers b) (hab : b ≠ a) (w : Word) :
    (s.storeRegion r a w).regionWord r b = s.regionWord r b := by
  obtain ⟨halo, hahi⟩ := hra
  obtain ⟨hblo, hbhi⟩ := hrb
  cases r with
  | ilen => simp only [Region.row] at *; omega
  | pad => simp only [Region.row] at *; omega
  | freq =>
    simp only [Region.row] at *
    refine symAt_symSet_of_ne _ _ fun h => hab ?_
    have := ofNat8_injective (by simp only [freqBase]; omega) (by simp only [freqBase]; omega) h
    simp only [freqBase] at this
    omega
  | ctLen =>
    simp only [Region.row] at *
    refine congrArg (BitVec.setWidth 32) (symAt_symSet_of_ne _ _ fun h => hab ?_)
    have := ofNat8_injective (by simp only [ctLenBase]; omega) (by simp only [ctLenBase]; omega) h
    simp only [ctLenBase] at this
    omega
  | ctVal =>
    simp only [Region.row] at *
    refine (s.storeCtVal_ctValWordAt w _ _).trans (if_neg ?_)
    rintro ⟨hsym, hword⟩
    have := ofNat8_injective (by simp only [ctValBase]; omega) (by simp only [ctValBase]; omega) hsym
    simp only [ctValBase] at this hword
    omega
  | ibuf =>
    simp only [Region.row] at *
    obtain ⟨k, rfl⟩ : ∃ k, a = 0x010000 + 4 * k := ⟨(a - 0x010000) / 4, by omega⟩
    obtain ⟨j, rfl⟩ : ∃ j, b = 0x010000 + 4 * j := ⟨(b - 0x010000) / 4, by omega⟩
    have hbyte : ∀ i, i / 4 = j → (s.storeRegion .ibuf (0x010000 + 4 * k) w).ibufAt i = s.ibufAt i := fun i hi => by
      rw [State.storeIbuf_ibufAt, if_neg (by omega)]
    rw [State.regionWord_ibuf, State.regionWord_ibuf, hbyte _ (by omega), hbyte _ (by omega), hbyte _ (by omega),
      hbyte _ (by omega)]
  | _ => rfl

/-- Every readable word but the stored one and STATUS reads as before a store (20_memory.md R62, R73). -/
theorem State.readWord_storeRegion_of_ne (s : State) {r : Region} {addr other : HostAddr} (ha : addr.toNat % 4 = 0)
    (hr : r.Covers addr.toNat) (hne : other ≠ addr) (hstatus : other ≠ 0x000008#22) (w : Word) :
    (s.storeRegion r addr.toNat w).readWord other = s.readWord other := by
  by_cases herr : other.toNat % 4 ≠ 0 ∨ ¬ Mapped other.toNat
  · rw [(State.readWord_eq_none_iff _ other).2 herr, (State.readWord_eq_none_iff _ other).2 herr]
  · obtain ⟨hb, hmapped⟩ := not_or.1 herr
    have hb := not_not.1 hb
    obtain ⟨q, hq⟩ := mapped_iff_covers.1 (not_not.1 hmapped)
    rw [State.readWord_of_covers _ hb hq, State.readWord_of_covers _ hb hq]
    refine congrArg some ?_
    by_cases hqr : q = r
    · subst hqr
      exact s.regionWord_storeRegion_of_addr_ne ha hb hr hq (fun h => hne (BitVec.eq_of_toNat_eq h)) w
    · refine s.regionWord_storeRegion_of_ne hqr ?_ _ _ w
      rintro rfl
      obtain ⟨hlo, hhi⟩ := hq
      simp only [Region.row] at hlo hhi
      exact hstatus (BitVec.eq_of_toNat_eq (by rw [BitVec.toNat_ofNat]; omega))

/-- An aligned write at a writable address other than CMD is a store into the region there. -/
theorem State.hostWrite_of_writable (s : State) {addr : HostAddr} (ha : addr.toNat % 4 = 0) (hw : Writable addr.toNat)
    (hcmd : addr ≠ cmdAddr) (w : Word) : ∃ r : Region, r ≠ .cmd ∧ r.row.writable = true ∧ r.Covers addr.toNat ∧
      s.hostWrite addr w = .next (s.storeRegion r addr.toNat w).writeOkay := by
  rcases s.hostWrite_cases addr w with ⟨herr, -⟩ | ⟨heq, -⟩ | ⟨-, -, h⟩
  · exact absurd herr (not_or.2 ⟨not_not.2 ha, not_not.2 hw⟩)
  · exact absurd heq hcmd
  · exact h

theorem Region.Covers.inCtWindow_iff {r : Region} {a : Nat} (hr : r.Covers a) :
    InCtWindow a ↔ r = .ctLen ∨ r = .ctVal := by
  obtain ⟨hlo, hhi⟩ := hr
  cases r <;> simp [Region.row, InCtWindow] at * <;> omega

theorem Region.Covers.eq_ctLen_iff {r : Region} {a : Nat} (hr : r.Covers a) : 0x000800 ≤ a ∧ a < 0x000C00 ↔ r = .ctLen := by
  obtain ⟨hlo, hhi⟩ := hr
  cases r <;> simp [Region.row] at * <;> omega

/-- Settles O14: the write is one store, and a store changes its own word and at most TREE_VALID. -/
theorem writeStoresOneWordAndNothingElse : Obligations.WriteStoresOneWordAndNothingElse := by
  intro s addr w rest hin ha hw hcmd
  obtain ⟨r, hr, hrow, hcov, hstore⟩ := State.hostWrite_of_writable { s with inputs := rest } ha hw hcmd w
  obtain ⟨herr, htree, hbuild, hinputs⟩ := State.storeRegion_frame { s with inputs := rest } r addr.toNat w
  refine ⟨_, (step_cons hin).trans hstore, hinputs, rfl, ?_, ?_, herr, htree, hbuild, ?_, ?_⟩
  · refine (State.readWord_of_covers _ ha hcov).trans (congrArg some ?_)
    simp only [hcov.eq_ctLen_iff]
    exact State.regionWord_storeRegion_self { s with inputs := rest } hrow hr ha hcov w
  · exact fun other hne hstatus => State.readWord_storeRegion_of_ne { s with inputs := rest } ha hcov hne hstatus w
  · exact fun hct => State.storeRegion_ct_treeValid _ (hcov.inCtWindow_iff.1 hct) _ w
  · intro hct
    obtain ⟨hlen, hval⟩ := not_or.1 (mt hcov.inCtWindow_iff.2 hct)
    exact State.storeRegion_treeValid_of_ne { s with inputs := rest } hlen hval _ w

/-- A write at a known word of a writable region other than CMD. -/
theorem State.hostWrite_hostAddr (s : State) {r : Region} {a : Nat} (ha : a % 4 = 0) (hr : r.Covers a)
    (hw : r.row.writable = true) (hcmd : r ≠ .cmd) (w : Word) :
    s.hostWrite (hostAddr a) w = .next (s.storeRegion r a w).writeOkay := by
  have haddr := hostAddr_toNat hr.lt
  have hrow : mapRowOf (hostAddr a).toNat = some r.row := by rw [haddr]; exact hr.mapRowOf
  have hstore := s.hostWrite_of_mapRow w (by rw [haddr]; exact ha) hrow hw (by rwa [Region.row_region])
  rwa [Region.row_region, haddr] at hstore

theorem Region.ibuf_covers {k : Nat} (h : k < 16384) : Region.ibuf.Covers (0x010000 + 4 * k) := by
  simp only [Region.Covers, Region.row]
  omega

theorem State.hostWrite_ibuf (s : State) {k : Nat} (h : k < 16384) (w : Word) :
    s.hostWrite (hostAddr (0x010000 + 4 * k)) w = .next (s.storeRegion .ibuf (0x010000 + 4 * k) w).writeOkay :=
  s.hostWrite_hostAddr (by omega) (Region.ibuf_covers h) rfl (by decide) w

/-- Settles O16: the write is a store of word `k` of IBUF. -/
theorem ibufWordLanesAreLittleEndian : Obligations.IbufWordLanesAreLittleEndian := by
  intro s k w rest hk hin
  have hbyte := State.storeIbuf_ibufAt { s with inputs := rest } k w
  refine ⟨_, (step_cons hin).trans (State.hostWrite_ibuf _ hk w), fun j hj => ?_, fun i hi => ?_⟩
  · have hlane := hbyte (4 * k + j)
    rw [if_pos (by omega), show (4 * k + j) % 4 = j by omega] at hlane
    exact (congrArg BitVec.toNat hlane).trans (lane_toNat w j)
  · exact (hbyte i).trans (if_neg hi)

end Sys2Proof.Machine

/-! PROOFS. Host scripts: SETCODE, LDIBUF and MOVOI (30_encoding.md R98). -/

namespace Sys2Proof.Machine

/-! ### Sequences of events -/

theorem State.performAll_append {s t : State} {es : List HostEvent} (h : s.performAll es = .next t) (fs : List HostEvent) :
    s.performAll (es ++ fs) = t.performAll fs := by
  induction es generalizing s with
  | nil =>
    obtain rfl := Host.Outcome.next.inj h
    rfl
  | cons e es ih =>
    obtain ⟨u, hu⟩ := s.perform_next e
    simp only [State.performAll, hu] at h
    simp only [List.cons_append, State.performAll, hu]
    exact ih h

theorem State.performAll_singleton (s : State) (e : HostEvent) : s.performAll [e] = s.perform e := by
  obtain ⟨t, ht⟩ := s.perform_next e
  simp only [State.performAll, ht]

theorem State.performAll_concat {s t u : State} {es : List HostEvent} {e : HostEvent} (h : s.performAll es = .next t)
    (he : t.perform e = .next u) : s.performAll (es ++ [e]) = .next u := by
  rw [State.performAll_append h, State.performAll_singleton, he]

/-! ### Words of bytes -/

/-- Lane `j` of a word made of lanes is the `j`-th of them (20_memory.md R68). -/
theorem lane_wordOfLanes (b : Nat → Byte) {j : Nat} (hj : j < 4) : lane (wordOfLanes (b 0) (b 1) (b 2) (b 3)) j = b j := by
  have hlanes : ∀ i, i < 8 → (lane (wordOfLanes (b 0) (b 1) (b 2) (b 3)) j).getLsbD i = (b j).getLsbD i := fun i hi => by
    simp only [lane, wordOfLanes, BitVec.getLsbD_extractLsb', BitVec.getLsbD_append, hi, decide_true, Bool.true_and]
    obtain rfl | rfl | rfl | rfl : j = 0 ∨ j = 1 ∨ j = 2 ∨ j = 3 := by omega
    · rw [if_pos (by omega)]
      simp
    · rw [if_neg (by omega), if_pos (by omega), show 8 * 1 + i - 8 = i by omega]
    · rw [if_neg (by omega), if_neg (by omega), if_pos (by omega), show 8 * 2 + i - 8 - 8 = i by omega]
    · rw [if_neg (by omega), if_neg (by omega), if_neg (by omega), show 8 * 3 + i - 8 - 8 - 8 = i by omega]
  exact BitVec.eq_of_getLsbD_eq hlanes

theorem lane_wordOfBytes (bytes : List Byte) (k : Nat) {j : Nat} (hj : j < 4) :
    lane (wordOfBytes bytes k) j = bytes.getD (4 * k + j) 0 :=
  lane_wordOfLanes (fun j => bytes.getD (4 * k + j) 0) hj

/-! ### Loading IBUF -/

/-- Only IBUF and the last response differ. -/
def IbufOnly (s t : State) : Prop :=
  ∃ m r, t = { s with ibuf := m, resp := r }

theorem IbufOnly.refl (s : State) : IbufOnly s s := ⟨s.ibuf, s.resp, rfl⟩

theorem IbufOnly.trans {s t u : State} (h : IbufOnly s t) (h' : IbufOnly t u) : IbufOnly s u := by
  obtain ⟨m, r, rfl⟩ := h
  obtain ⟨m', r', rfl⟩ := h'
  exact ⟨m', r', rfl⟩

/-- The events make word `k` of IBUF the word `w` and leave the rest. -/
def LoadsWord (es : List HostEvent) (k : Nat) (w : Word) : Prop :=
  ∀ s : State, ∃ t, s.performAll es = .next t ∧ IbufOnly s t ∧
    ∀ i, t.ibufAt i = if i / 4 = k then lane w (i % 4) else s.ibufAt i

theorem loadsWord_write {k : Nat} (hk : k < 16384) (w : Word) :
    LoadsWord [.write (hostAddr (ibufBase + 4 * k)) w] k w := fun s =>
  ⟨_, (s.performAll_singleton _).trans (s.hostWrite_ibuf hk w), ⟨_, _, rfl⟩, s.storeIbuf_ibufAt k w⟩

/-- A read of a mapped word before the write leaves IBUF alone. -/
theorem loadsWord_read_write {k : Nat} (hk : k < 16384) (w : Word) {addr : HostAddr} (ha : addr.toNat % 4 = 0)
    (hm : Mapped addr.toNat) : LoadsWord [.read addr, .write (hostAddr (ibufBase + 4 * k)) w] k w := fun s => by
  obtain ⟨r, hr⟩ := mapped_iff_covers.1 hm
  have hread := s.hostRead_of_mapRow ha hr.mapRowOf
  obtain ⟨t, ht, honly, hbytes⟩ := loadsWord_write hk w (s.hostRead addr)
  refine ⟨t, ht, ?_, ?_⟩
  · refine IbufOnly.trans ?_ honly
    rw [hread]
    exact ⟨s.ibuf, _, rfl⟩
  · rw [hread] at hbytes
    exact hbytes

/-- Words 0 to `n - 1` loaded one after the other. -/
theorem performAll_loadsWords {ev : Nat → List HostEvent} {f : Nat → Word} (n : Nat)
    (h : ∀ k, k < n → LoadsWord (ev k) k (f k)) (s : State) : ∃ t, s.performAll ((List.range n).flatMap ev) = .next t ∧
      IbufOnly s t ∧ ∀ i, t.ibufAt i = if i / 4 < n then lane (f (i / 4)) (i % 4) else s.ibufAt i := by
  induction n with
  | zero => exact ⟨s, rfl, .refl s, fun i => by simp⟩
  | succ n ih =>
    obtain ⟨t, ht, honly, hbytes⟩ := ih fun k hk => h k (by omega)
    obtain ⟨u, hu, honly', hbytes'⟩ := h n (Nat.lt_succ_self n) t
    refine ⟨u, ?_, honly.trans honly', fun i => ?_⟩
    · rw [List.range_succ, List.flatMap_append, State.performAll_append ht, List.flatMap_singleton, hu]
    · rw [hbytes', hbytes]
      by_cases hi : i / 4 = n
      · rw [if_pos hi, if_pos (by omega), hi]
      · rw [if_neg hi]
        exact if_congr (by omega) rfl rfl

theorem State.perform_write_ilen (s : State) (w : Word) :
    s.perform (.write ilenAddr w) = .next { s with ilen := w, resp := some (.write .okay) } :=
  s.hostWrite_hostAddr (r := .ilen) (a := 0x10) rfl ⟨by decide, by decide⟩ rfl (by decide) w

theorem State.performAll_then_ilen {s t : State} {es : List HostEvent} (h : s.performAll es = .next t) (w : Word) :
    s.performAll (es ++ [.write ilenAddr w]) = .next { t with ilen := w, resp := some (.write .okay) } :=
  State.performAll_concat h (t.perform_write_ilen w)

/-- Settles O18: the words of the bytes are loaded in order, then ILEN. -/
theorem loadIbufLoadsTheBytes : Obligations.LoadIbufLoadsTheBytes := by
  intro s bytes hwf
  have hlen : bytes.length ≤ 65536 := of_decide_eq_true hwf
  obtain ⟨t, ht, ⟨m, r, rfl⟩, hbytes⟩ := performAll_loadsWords (wordCount bytes.length)
    (fun k hk => loadsWord_write (k := k) (by unfold wordCount at hk; omega) (wordOfBytes bytes k)) s
  have hend := State.performAll_then_ilen ht (BitVec.ofNat 32 bytes.length)
  rw [← List.map_eq_flatMap] at hend
  refine ⟨_, hend, ?_, fun i b hi => ?_, .of_fields rfl rfl, ⟨rfl, rfl⟩, rfl, rfl⟩
  · show (BitVec.ofNat 32 bytes.length).toNat = bytes.length
    rw [BitVec.toNat_ofNat]
    omega
  · obtain ⟨hlt, hget⟩ := List.getElem?_eq_some_iff.1 hi
    refine (hbytes i).trans ?_
    rw [if_pos (by unfold wordCount; omega), lane_wordOfBytes _ _ (by omega), Nat.div_add_mod,
      List.getD_eq_getElem _ _ hlt, hget]

/-- Lane `j` of OBUF word `k` as read is byte `4k+j` (20_memory.md R68). -/
theorem State.lane_regionWord_obuf (s : State) (k : Nat) {j : Nat} (hj : j < 4) :
    lane (s.regionWord .obuf (0x200000 + 4 * k)) j = s.obufAt (4 * k + j) := by
  rw [State.regionWord_obuf]
  exact lane_wordOfLanes (fun j => s.obufAt (4 * k + j)) hj

/-- Settles O19: each word of the output is read and loaded in order, then ILEN gets OLEN. -/
theorem moveOutputToInput : Obligations.MoveOutputToInput := by
  intro s hlegal
  have hlen : s.olen.toNat ≤ 65536 := of_decide_eq_true hlegal
  have hcov : ∀ k, k < wordCount s.olen.toNat → Region.obuf.Covers (obufBase + 4 * k) := fun k hk => by
    unfold wordCount at hk
    simp only [Region.Covers, Region.row, obufBase]
    omega
  have hword : ∀ k, k < wordCount s.olen.toNat →
      (s.readWord (hostAddr (obufBase + 4 * k))).getD 0 = s.regionWord .obuf (obufBase + 4 * k) := fun k hk => by
    rw [s.readWord_hostAddr (by simp only [obufBase]; omega) (hcov k hk), Option.getD_some]
  have hloads : ∀ k, k < wordCount s.olen.toNat → LoadsWord [.read (hostAddr (obufBase + 4 * k)),
      .write (hostAddr (ibufBase + 4 * k)) ((s.readWord (hostAddr (obufBase + 4 * k))).getD 0)] k
        ((s.readWord (hostAddr (obufBase + 4 * k))).getD 0) := fun k hk => by
    have haddr := hostAddr_toNat (hcov k hk).lt
    refine loadsWord_read_write (by unfold wordCount at hk; omega) _ ?_ ?_
    · rw [haddr]
      simp only [obufBase]
      omega
    · rw [haddr]
      exact mapped_iff_covers.2 ⟨_, hcov k hk⟩
  have hread : s.performAll [.read olenAddr] = .next { s with resp := some (.read .okay s.olen) } := by
    rw [State.performAll_singleton]
    exact congrArg Host.Outcome.next (s.hostRead_of_mapRow (row := Region.olen.row) rfl
      (Region.Covers.mapRowOf ⟨by decide, by decide⟩))
  obtain ⟨t, ht, ⟨m, r, rfl⟩, hbytes⟩ := performAll_loadsWords _ hloads { s with resp := some (.read .okay s.olen) }
  have hend := State.performAll_then_ilen ((State.performAll_append hread _).trans ht) s.olen
  refine ⟨_, hend, rfl, fun i hi => ?_, rfl, .of_fields rfl rfl, ⟨rfl, rfl⟩⟩
  have hk : i / 4 < wordCount s.olen.toNat := by unfold wordCount; omega
  refine (hbytes i).trans ?_
  rw [if_pos hk, hword _ hk, obufBase, State.lane_regionWord_obuf _ _ (by omega), Nat.div_add_mod]

/-! ### Loading a code -/

/-- Only CT_VAL, TREE_VALID and the last response differ. -/
def CtValOnly (s t : State) : Prop :=
  ∃ v b r, t = { s with ctVal := v, treeValid := b, resp := r }

/-- The first `n` words of one symbol's value written one after the other. -/
theorem performAll_ctValWrites (s : State) (sym : Byte) (f : Nat → Word) {n : Nat} (hn : n ≤ 8) :
    ∃ t, s.performAll ((List.range n).map fun w => .write (hostAddr (ctValBase + 32 * sym.toNat + 4 * w)) (f w)) = .next t ∧
      CtValOnly s t ∧
      ∀ x w, t.ctValWordAt x w = if x = sym ∧ w < n then f w else s.ctValWordAt x w := by
  induction n with
  | zero => exact ⟨s, rfl, ⟨s.ctVal, s.treeValid, s.resp, rfl⟩, fun x w => by simp⟩
  | succ n ih =>
    obtain ⟨t, ht, ⟨v, b, r, rfl⟩, hwords⟩ := ih (by omega)
    have hsym : sym.toNat < 256 := sym.isLt
    have hstore := State.hostWrite_hostAddr { s with ctVal := v, treeValid := b, resp := r } (r := .ctVal)
      (a := ctValBase + 32 * sym.toNat + 4 * n) (by simp only [ctValBase]; omega)
      (by simp only [Region.Covers, Region.row, ctValBase]; omega) rfl (by decide) (f n)
    have hdiv : (ctValBase + 32 * sym.toNat + 4 * n - ctValBase) / 32 = sym.toNat := by omega
    have hmod : (ctValBase + 32 * sym.toNat + 4 * n - ctValBase) % 32 / 4 = n := by omega
    have hend := State.performAll_concat (e := .write (hostAddr (ctValBase + 32 * sym.toNat + 4 * n)) (f n)) ht hstore
    rw [List.range_succ, List.map_append, List.map_singleton]
    refine ⟨_, hend, ⟨_, _, _, rfl⟩, fun x w => ?_⟩
    · refine (State.storeCtVal_ctValWordAt _ (f n) x w).trans ?_
      rw [hdiv, hmod, BitVec.ofNat_toNat, BitVec.setWidth_eq, hwords]
      by_cases hx : x = sym ∧ w = n
      · rw [if_pos hx, if_pos ⟨hx.1, by omega⟩, hx.2]
      · rw [if_neg hx]
        refine if_congr ?_ rfl rfl
        constructor
        · exact fun h => ⟨h.1, by omega⟩
        · exact fun h => ⟨h.1, by have : w ≠ n := fun hw => hx ⟨h.1, hw⟩; omega⟩

theorem State.ctValBit_eq_getLsbD (s : State) (sym : Byte) (i : Nat) :
    s.ctValBit sym i = (s.ctValWordAt sym (i / 32)).getLsbD (i % 32) := rfl

/-- The code a symbol has is read from its length and its value (10_state.md R38). -/
theorem State.code_eq_of_bits {s : State} {sym : Byte} {c : Bits} (hlen : (s.ctLenAt sym).toNat = c.length)
    (hbits : ∀ i, i < c.length → s.ctValBit sym i = (Bits.val c).testBit i) : s.code sym = c := by
  refine List.ext_getElem (by rw [State.code_length, hlen]) fun i hi hi' => ?_
  rw [State.code_getElem, hlen, hbits _ (by omega), Bits.testBit_val, List.getD_eq_getElem _ _ (by simp; omega),
    List.getElem_reverse]
  congr 1
  omega

theorem State.code_of_words {s t : State} {sym : Byte} (hlen : t.ctLenAt sym = s.ctLenAt sym)
    (hwords : ∀ w, t.ctValWordAt sym w = s.ctValWordAt sym w) : t.code sym = s.code sym := by
  simp only [State.code, hlen, State.ctValBit_eq_getLsbD, hwords]

/-- Settles O17: eight stores give the value's words, the ninth its length, all at the one symbol. -/
theorem setCodeLoadsTheCode : Obligations.SetCodeLoadsTheCode := by
  intro s sym bits hwf
  have hlen : 1 ≤ bits.length ∧ bits.length ≤ 255 := of_decide_eq_true hwf
  have hsym : sym.toNat < 256 := sym.isLt
  obtain ⟨t, ht, ⟨v, b, r, rfl⟩, hwords⟩ :=
    performAll_ctValWrites s sym (fun w => BitVec.ofNat 32 (Bits.val bits >>> (32 * w))) (Nat.le_refl 8)
  have hstore := State.hostWrite_hostAddr { s with ctVal := v, treeValid := b, resp := r } (r := .ctLen)
    (a := ctLenBase + 4 * sym.toNat) (by simp only [ctLenBase]; omega)
    (by simp only [Region.Covers, Region.row, ctLenBase]; omega) rfl (by decide) (BitVec.ofNat 32 bits.length)
  have hend := State.performAll_concat
    (e := .write (hostAddr (ctLenBase + 4 * sym.toNat)) (BitVec.ofNat 32 bits.length)) ht hstore
  have hidx : BitVec.ofNat 8 ((ctLenBase + 4 * sym.toNat - ctLenBase) / 4) = sym := ofNat_toNat_div (by decide)
  refine ⟨_, hend, ?_, rfl, fun other hother => ?_, rfl, rfl, rfl, rfl, rfl, fun _ => rfl⟩
  · refine State.code_eq_of_bits ?_ fun i hi => ?_
    · show (symAt (symSet s.ctLen _ ((BitVec.ofNat 32 bits.length).setWidth 8)) sym).toNat = bits.length
      rw [hidx, symAt_symSet_self, BitVec.toNat_setWidth, BitVec.toNat_ofNat]
      omega
    · rw [State.ctValBit_eq_getLsbD]
      refine (congrArg (BitVec.getLsbD · (i % 32)) (hwords sym (i / 32))).trans ?_
      rw [if_pos ⟨rfl, by omega⟩, BitVec.getLsbD_ofNat, Nat.testBit_shiftRight, Nat.div_add_mod,
        decide_eq_true (by omega), Bool.true_and]
  · refine State.code_of_words ?_ fun w => ?_
    · show symAt (symSet s.ctLen _ _) other = symAt s.ctLen other
      rw [hidx, symAt_symSet_of_ne _ _ hother]
    · exact (hwords other w).trans (if_neg fun h => hother h.1)

end Sys2Proof.Machine

/-! PROOFS. The result of ENCODE (41_encode.md R143 to R146, R149). -/

namespace Sys2Proof.Machine

/-! ### The packed bytes -/

/-- Byte `j` of the packed bytes is the `j`-th group of 8 bits (41_encode.md R144). -/
theorem packBytes_getElem (n : Nat) (c : Bits) {j : Nat} (hj : j < (packBytes n c).length) :
    (packBytes n c)[j] = byteOfBits ((c.drop (8 * j)).take 8) := by
  induction n generalizing c j with
  | zero => simp [packBytes] at hj
  | succ n ih =>
    cases j with
    | zero => rfl
    | succ j =>
      simp only [packBytes, List.getElem_cons_succ, ih, List.drop_drop]
      rw [Nat.mul_succ, Nat.add_comm]

/-- Stream bit `k` stands at bit `7 - (k mod 8)` of packed byte `k div 8`, and the padding bits are 0
(20_memory.md R67; 41_encode.md R144, R145). -/
theorem pack_getLsbD (bits : Bits) {k : Nat} (hk : k / 8 < (pack bits).length) :
    ((pack bits)[k / 8]).getLsbD (7 - k % 8) = bits.getD k false := by
  have hlen := eight_mul_pack_length bits
  have hpadded : (bits ++ List.replicate (padFor bits.length) false).length = 8 * (pack bits).length := by
    rw [hlen, List.length_append, List.length_replicate]
  have hgroup : (((bits ++ List.replicate (padFor bits.length) false).drop (8 * (k / 8))).take 8).length = 8 := by
    rw [List.length_take, List.length_drop, hpadded]
    omega
  have hbyte : (pack bits)[k / 8] = _ := packBytes_getElem _ _ hk
  rw [hbyte, byteOfBits_getLsbD _ hgroup (by omega), List.getD_eq_getElem _ _ (by omega), List.getElem_take,
    List.getElem_drop]
  simp only [Nat.div_add_mod]
  by_cases hstream : k < bits.length
  · rw [List.getElem_append_left hstream, List.getD_eq_getElem _ _ hstream]
  · rw [List.getElem_append_right (by omega), List.getElem_replicate, List.getD_eq_default _ _ (by omega)]

/-! ### A successful ENCODE -/

/-- What ENCODE leaves when it succeeds (41_encode.md R146). -/
def State.encoded (s : State) : State :=
  s.endEncode (.ok s.stream)

theorem execEncode_of_allowed {s : State} (h : EncodeAllowed s) : execEncode s = .next s.encoded := by
  rw [execEncode_eq, State.encodeResult_eq_ok.2 ⟨h, rfl⟩]
  rfl

@[simp] theorem State.encoded_err (s : State) : s.encoded.err = 0 := rfl

theorem State.encoded_pad_toNat (s : State) : s.encoded.pad.toNat = padFor s.stream.length := by
  have hpad := padFor_le s.stream.length
  show (BitVec.ofNat 32 (padFor s.stream.length)).toNat = _
  rw [BitVec.toNat_ofNat, Nat.mod_eq_of_lt (by omega)]

theorem State.encoded_olen_toNat {s : State} (h : EncodeAllowed s) : s.encoded.olen.toNat = (pack s.stream).length := by
  have hlen := State.encodeResult_length_le (State.encodeResult_eq_ok.2 ⟨h, rfl⟩)
  show (BitVec.ofNat 32 (pack s.stream).length).toNat = _
  rw [BitVec.toNat_ofNat, Nat.mod_eq_of_lt (by omega)]

/-- The packed bytes hold the stream and the padding (41_encode.md R146). -/
theorem State.eight_mul_encoded_olen {s : State} (h : EncodeAllowed s) :
    8 * s.encoded.olen.toNat = s.stream.length + s.encoded.pad.toNat := by
  rw [State.encoded_olen_toNat h, State.encoded_pad_toNat, eight_mul_pack_length]

theorem State.encoded_obufAt_getLsbD {s : State} (h : EncodeAllowed s) {k : Nat} (hk : k < 8 * s.encoded.olen.toNat) :
    (s.encoded.obufAt (k / 8)).getLsbD (7 - k % 8) = s.stream.getD k false := by
  rw [State.encoded_olen_toNat h] at hk
  have hbyte : s.encoded.obufAt (k / 8) = (pack s.stream)[k / 8]'(by omega) := s.output_obufAt _ _
  rw [hbyte, pack_getLsbD]

/-- Settles O37: the stream of the codes is padded to whole bytes and packed bit by bit. -/
theorem encodePacksTheCodes : Obligations.EncodePacksTheCodes := by
  intro s h
  have hpad := padFor_le s.stream.length
  have hpadded := State.eight_mul_encoded_olen h
  rw [← State.encoded_pad_toNat] at hpad
  exact ⟨_, execEncode_of_allowed h, rfl, rfl, by omega, hpad, hpadded, fun k => State.encoded_obufAt_getLsbD h⟩

theorem State.stream_length (s : State) :
    s.stream.length = ((List.range s.ilen.toNat).map fun i => (s.ctLenAt (s.ibufAt i)).toNat).sum := by
  simp only [State.stream, State.inputBytes, List.length_flatMap, State.code_length, List.map_map]
  rfl

/-- Settles O38: the padding is what the stream lacks to whole bytes, and the stream is as long as its codes together. -/
theorem encodeBitLengthIdentity : Obligations.EncodeBitLengthIdentity := by
  intro s h
  have hpadded := State.eight_mul_encoded_olen h
  exact ⟨_, execEncode_of_allowed h, by rw [← State.stream_length]; omega⟩

/-! ### The operands of ENCODE -/

theorem State.substitute_congr {s t : State} (hcode : ∀ sym, t.code sym = s.code sym) (i : Nat) (bs : List Byte) :
    t.substitute i bs = s.substitute i bs := by
  have hentry : ∀ sym, t.hasEntry sym = s.hasEntry sym := fun sym => by
    rw [State.hasEntry, State.hasEntry, State.ctLenAt_of_code (hcode sym)]
  induction bs generalizing i with
  | nil => rfl
  | cons b bs ih => simp only [State.substitute, hentry, hcode, ih]

theorem State.inputBytes_congr {s t : State} (hilen : t.ilen = s.ilen)
    (hibuf : ∀ i, i < s.ilen.toNat → t.ibufAt i = s.ibufAt i) : t.inputBytes = s.inputBytes := by
  rw [State.inputBytes, State.inputBytes, hilen]
  exact List.map_congr_left fun i hi => hibuf i (List.mem_range.1 hi)

/-- Two states that end ENCODE with one result hold the same output. -/
theorem State.endEncode_obufAt (s t : State) (r : Except (CmdError × Word) Bits) {k : Nat}
    (hk : k < (s.endEncode r).olen.toNat) : (s.endEncode r).obufAt k = (t.endEncode r).obufAt k := by
  cases r with
  | error e => exact absurd hk (Nat.not_lt_zero k)
  | ok bits =>
    have hlt : k < (pack bits).length := Nat.lt_of_lt_of_le hk (s.output_olen_toNat_le _)
    calc (s.endEncode (.ok bits)).obufAt k = (pack bits)[k] := s.output_obufAt _ hlt
      _ = (t.endEncode (.ok bits)).obufAt k := (t.output_obufAt _ hlt).symm

/-- Settles O40: the result is computed from ILEN, the codes and the data bytes, and the end of ENCODE from the result. -/
theorem encodeDependsOnItsOperandsOnly : Obligations.EncodeDependsOnItsOperandsOnly := by
  intro s s' hilen hcode hibuf
  have hres : s'.encodeResult = s.encodeResult := by
    rw [State.encodeResult, State.encodeResult, hilen, State.codeTable_of_code fun sym => (hcode sym).symm,
      State.inputBytes_congr hilen.symm fun i hi => (hibuf i hi).symm, State.substitute_congr fun sym => (hcode sym).symm]
  refine ⟨_, _, execEncode_eq s, execEncode_eq s', ?_⟩
  rw [hres]
  refine ⟨?_, ?_, ?_, ?_, fun k hk => s.endEncode_obufAt s' _ hk⟩
  all_goals cases s.encodeResult <;> rfl

end Sys2Proof.Machine

/-! PROOFS. DECODE walks the tree that the arena denotes (00_scope.md R15; 43_decode.md R186 to R191). -/

namespace Sys2Proof.Machine

/-! ### The tree an arena denotes at an index -/

/-- The arena holds the tree `t` at index `i` (00_scope.md R15). -/
inductive Denotes (rn : List RebuildNode) : Nat → CodeTree → Prop where
  | leaf {i : Nat} {sym : Byte} (h : nodeAt rn i = .leaf sym) : Denotes rn i (.leaf sym)
  | phold {i : Nat} (h : nodeAt rn i = .phold) : Denotes rn i .phold
  | node {i a b : Nat} {l r : CodeTree} (h : nodeAt rn i = .internal a b) (hl : Denotes rn a l) (hr : Denotes rn b r) :
      Denotes rn i (.node l r)

theorem denotes_of_treeOfRn {rn : List RebuildNode} {fuel i : Nat} {t : CodeTree} (h : treeOfRn rn fuel i = some t) :
    Denotes rn i t := by
  induction fuel generalizing i t with
  | zero => cases h
  | succ fuel ih =>
    unfold treeOfRn at h
    split at h
    · rename_i sym hnode
      obtain rfl := Option.some.inj h
      exact .leaf hnode
    · rename_i hnode
      obtain rfl := Option.some.inj h
      exact .phold hnode
    · cases h
    · rename_i a b hnode
      split at h
      · rename_i tl tr hl hr
        obtain rfl := Option.some.inj h
        exact .node hnode (ih hl) (ih hr)
      · cases h

/-- An index denotes one tree at most, so no tree stands below itself. -/
theorem Denotes.unique {rn : List RebuildNode} {i : Nat} {t u : CodeTree} (ht : Denotes rn i t) (hu : Denotes rn i u) :
    t = u := by
  induction ht generalizing u with
  | leaf h => cases hu <;> simp_all
  | phold h => cases hu <;> simp_all
  | node h hl hr ihl ihr =>
    cases hu with
    | leaf h' => rw [h] at h'; cases h'
    | phold h' => rw [h] at h'; cases h'
    | node h' hl' hr' =>
      rw [h] at h'
      cases h'
      rw [ihl hl', ihr hr']

theorem RebuildStore.denotes_of_codeTree {t : RebuildStore} {tree : CodeTree} (h : t.codeTree = some tree) :
    ∃ root, t.rroot = some root ∧ Denotes t.rn root tree := by
  unfold RebuildStore.codeTree at h
  split at h
  · exact ⟨_, ‹_›, denotes_of_treeOfRn h⟩
  · cases h

/-! ### Paths -/

theorem CodeTree.mem_leaves_node {l r : CodeTree} {sym : Byte} {p : Bits} :
    (sym, p) ∈ (CodeTree.node l r).leaves ↔
      (∃ q, p = false :: q ∧ (sym, q) ∈ l.leaves) ∨ (∃ q, p = true :: q ∧ (sym, q) ∈ r.leaves) := by
  simp only [CodeTree.leaves, List.mem_append, List.mem_map, Prod.mk.injEq, Prod.exists]
  grind

theorem CodeTree.mem_pholdPaths_node {l r : CodeTree} {p : Bits} :
    p ∈ (CodeTree.node l r).pholdPaths ↔
      (∃ q, p = false :: q ∧ q ∈ l.pholdPaths) ∨ (∃ q, p = true :: q ∧ q ∈ r.pholdPaths) := by
  simp only [CodeTree.pholdPaths, List.mem_append, List.mem_map]
  grind

/-- The child on a side. -/
def CodeTree.side (l r : CodeTree) (b : Bool) : CodeTree :=
  if b then r else l

theorem CodeTree.cons_mem_leaves_node {l r : CodeTree} {sym : Byte} {b : Bool} {p : Bits} :
    (sym, b :: p) ∈ (CodeTree.node l r).leaves ↔ (sym, p) ∈ (CodeTree.side l r b).leaves := by
  cases b <;> simp [CodeTree.mem_leaves_node, CodeTree.side]

theorem CodeTree.cons_mem_pholdPaths_node {l r : CodeTree} {b : Bool} {p : Bits} :
    b :: p ∈ (CodeTree.node l r).pholdPaths ↔ p ∈ (CodeTree.side l r b).pholdPaths := by
  cases b <;> simp [CodeTree.mem_pholdPaths_node, CodeTree.side]

theorem CodeTree.side_size_lt (l r : CodeTree) (b : Bool) : (CodeTree.side l r b).size < (CodeTree.node l r).size := by
  cases b <;> simp [CodeTree.side, CodeTree.size]

/-- One step down an internal node. -/
theorem Denotes.child {rn : List RebuildNode} {pos : Nat} {l r : CodeTree} (h : Denotes rn pos (.node l r)) (b : Bool) :
    Denotes rn (childOf (nodeAt rn pos) b) (CodeTree.side l r b) := by
  cases h with
  | node h hl hr =>
    rw [h]
    cases b
    · exact hl
    · exact hr

/-! ### The walk, one bit at a time (43_decode.md R186, R187) -/

theorem walk_cons_leaf {rn : List RebuildNode} (root : Nat) {pos : Nat} {b : Bool} {sym : Byte} (bs : Bits)
    (h : Denotes rn (childOf (nodeAt rn pos) b) (.leaf sym)) :
    walk rn root pos (b :: bs) = (walk rn root root bs).map (sym :: ·) := by
  cases h with
  | leaf h =>
    simp only [walk, h]
    cases walk rn root root bs <;> rfl

theorem walk_cons_phold {rn : List RebuildNode} (root : Nat) {pos : Nat} {b : Bool} (bs : Bits)
    (h : Denotes rn (childOf (nodeAt rn pos) b) .phold) : walk rn root pos (b :: bs) = .error .invalidCodeword := by
  cases h with
  | phold h => simp only [walk, h]

theorem walk_cons_node {rn : List RebuildNode} (root : Nat) {pos : Nat} {b : Bool} {l r : CodeTree} (bs : Bits)
    (h : Denotes rn (childOf (nodeAt rn pos) b) (.node l r)) :
    walk rn root pos (b :: bs) = walk rn root (childOf (nodeAt rn pos) b) bs := by
  cases h with
  | node h => simp only [walk, h]

/-! ### The walk along a path -/

/-- The code of a leaf emits its symbol and brings the walk back to the root. -/
theorem walk_leafPath {rn : List RebuildNode} (root : Nat) {pos : Nat} {l r : CodeTree} {sym : Byte} {p : Bits} (rest : Bits)
    (h : Denotes rn pos (.node l r)) (hp : (sym, p) ∈ (CodeTree.node l r).leaves) :
    walk rn root pos (p ++ rest) = (walk rn root root rest).map (sym :: ·) := by
  induction p generalizing pos l r with
  | nil => simp [CodeTree.mem_leaves_node] at hp
  | cons b p ih =>
    have hchild := h.child b
    have hp := CodeTree.cons_mem_leaves_node.1 hp
    cases hside : CodeTree.side l r b with
    | leaf v =>
      rw [hside] at hchild hp
      obtain ⟨rfl, rfl⟩ : sym = v ∧ p = [] := by simpa [CodeTree.leaves] using hp
      exact walk_cons_leaf root rest hchild
    | phold =>
      rw [hside] at hp
      cases hp
    | node l' r' =>
      rw [hside] at hchild hp
      exact (walk_cons_node root (p ++ rest) hchild).trans (ih hchild hp)

/-- The codes of a sequence of leaves emit their symbols (43_decode.md R189). -/
theorem walk_streamOf {rn : List RebuildNode} {root : Nat} {l r : CodeTree} (h : Denotes rn root (.node l r))
    {es : List (Byte × Bits)} (hes : ∀ e ∈ es, e ∈ (CodeTree.node l r).leaves) (rest : Bits) :
    walk rn root root (streamOf es ++ rest) = (walk rn root root rest).map (es.map Prod.fst ++ ·) := by
  induction es with
  | nil =>
    show walk rn root root rest = _
    cases walk rn root root rest <;> rfl
  | cons e es ih =>
    obtain ⟨he, hes⟩ := List.forall_mem_cons.1 hes
    have hstep := walk_leafPath root (streamOf es ++ rest) h he
    rw [show streamOf (e :: es) ++ rest = e.2 ++ (streamOf es ++ rest) by simp [streamOf], hstep, ih hes]
    cases walk rn root root rest <;> rfl

/-- The path of a placeholder ends the walk with its error (43_decode.md R187). -/
theorem walk_pholdPath {rn : List RebuildNode} (root : Nat) {pos : Nat} {l r : CodeTree} {p : Bits} (rest : Bits)
    (h : Denotes rn pos (.node l r)) (hp : p ∈ (CodeTree.node l r).pholdPaths) :
    walk rn root pos (p ++ rest) = .error .invalidCodeword := by
  induction p generalizing pos l r with
  | nil => simp [CodeTree.mem_pholdPaths_node] at hp
  | cons b p ih =>
    have hchild := h.child b
    have hp := CodeTree.cons_mem_pholdPaths_node.1 hp
    cases hside : CodeTree.side l r b with
    | leaf v =>
      rw [hside] at hp
      cases hp
    | phold =>
      rw [hside] at hchild
      exact walk_cons_phold root (p ++ rest) hchild
    | node l' r' =>
      rw [hside] at hchild hp
      exact (walk_cons_node root (p ++ rest) hchild).trans (ih hchild hp)

/-- Bits that end inside a code leave the walk below the root (43_decode.md R188): the tree there is smaller than the whole
tree, and the root denotes no smaller tree. -/
theorem walk_insidePath {rn : List RebuildNode} {root : Nat} {tree : CodeTree} (hroot : Denotes rn root tree) {pos : Nat}
    {t : CodeTree} {sym : Byte} {p q : Bits} (h : Denotes rn pos t) (hmem : (sym, p ++ q) ∈ t.leaves) (hq : q ≠ [])
    (hsize : t.size ≤ tree.size) (hbelow : p = [] → t.size < tree.size) :
    walk rn root pos p = .error .truncatedStream := by
  induction p generalizing pos t with
  | nil =>
    have hpos : pos ≠ root := by
      rintro rfl
      exact absurd (h.unique hroot ▸ hbelow rfl) (Nat.lt_irrefl _)
    exact if_neg hpos
  | cons b p ih =>
    cases t with
    | leaf v => simp [CodeTree.leaves] at hmem
    | phold => cases hmem
    | node l r =>
      have hchild := h.child b
      have hmem := CodeTree.cons_mem_leaves_node.1 hmem
      have hlt := Nat.lt_of_lt_of_le (CodeTree.side_size_lt l r b) hsize
      have hih := ih hchild hmem (Nat.le_of_lt hlt) fun _ => hlt
      cases hside : CodeTree.side l r b with
      | leaf v =>
        rw [hside] at hmem
        have hnil : p ++ q = [] := by simpa [CodeTree.leaves] using (Prod.mk.inj (List.mem_singleton.1 hmem)).2
        exact absurd (List.append_eq_nil_iff.1 hnil).2 hq
      | phold =>
        rw [hside] at hmem
        cases hmem
      | node l' r' =>
        rw [hside] at hchild
        exact (walk_cons_node root p hchild).trans hih

/-! ### The tests before the walk (43_decode.md R182 to R184) -/

theorem DecodeAllowed.padding {s : State} (h : DecodeAllowed s) :
    ¬ (s.pad.toNat > Config.padMax ∨ (s.ilen = 0 ∧ s.pad ≠ 0)) := by
  rintro (hpad | ⟨hilen, hpad⟩)
  · exact absurd h.padRange (Nat.not_le.2 hpad)
  · have hfits := h.padFits
    rw [hilen] at hfits
    exact hpad (BitVec.eq_of_toNat_eq (Nat.le_zero.1 hfits))

/-- Past its tests DECODE looks at the root. -/
theorem State.decodeResult_of_allowed {s : State} (h : DecodeAllowed s) :
    s.decodeResult = walkResultOf s.ilen s.tree s.contentBits := by
  have hlen : ¬ s.ilen.toNat > Config.ibufCap := Nat.not_lt.2 h.length
  have hvalid : ¬ s.treeValid = false := by rw [h.valid]; decide
  rw [State.decodeResult, decodeResultOf, if_neg hlen, if_neg hvalid, if_neg h.padding]

theorem State.decodeResult_of_root {s : State} (h : DecodeAllowed s) {root : Nat} (hroot : s.tree.rroot = some root) :
    s.decodeResult = walk s.tree.rn root root s.contentBits := by
  rw [State.decodeResult_of_allowed h, walkResultOf, hroot]

theorem State.decodeResult_of_no_root {s : State} (h : DecodeAllowed s) (hroot : s.tree.rroot = none) :
    s.decodeResult = if s.ilen ≠ 0 then .error .emptyAlphabetMismatch else .ok [] := by
  rw [State.decodeResult_of_allowed h, walkResultOf, hroot]

theorem execDecode_of_error {s : State} {e : CmdError} (h : s.decodeResult = .error e) :
    ∃ t, exec .decode s = .next t ∧ FailedDecode s t e.code := by
  refine ⟨s.failDecode e, ?_, s.failDecode_failed e⟩
  rw [exec_decode, execDecode_eq, h]
  rfl

theorem execDecode_of_ok {s : State} {out : List Byte} (h : s.decodeResult = .ok out) :
    exec .decode s = .next (s.output out).succeed := by
  rw [exec_decode, execDecode_eq, h]
  rfl

/-- Settles O49: the tests stand in this order in DECODE. -/
theorem decodeChecksBeforeTheWalk : Obligations.DecodeChecksBeforeTheWalk := by
  intro s
  refine ⟨fun hlen => ?_, fun hlen hvalid => ?_, fun hlen hvalid hpad => ?_, fun hallowed hroot hilen => ?_,
    fun hallowed hroot hilen => ?_⟩
  · exact execDecode_of_error (e := .operandRange) (if_pos hlen)
  · have hfits : ¬ s.ilen.toNat > Config.ibufCap := Nat.not_lt.2 hlen
    refine execDecode_of_error (e := .noTree) ?_
    rw [State.decodeResult, decodeResultOf, if_neg hfits, if_pos hvalid]
  · have hfits : ¬ s.ilen.toNat > Config.ibufCap := Nat.not_lt.2 hlen
    have hnotree : ¬ s.treeValid = false := by rw [hvalid]; decide
    have hrange : s.pad.toNat > Config.padMax ∨ (s.ilen = 0 ∧ s.pad ≠ 0) := by
      rcases Nat.lt_or_ge 7 s.pad.toNat with hgt | hle
      · exact .inl hgt
      · have hshort : 8 * s.ilen.toNat < s.pad.toNat := hpad.resolve_left (Nat.not_lt.2 hle)
        refine .inr ⟨BitVec.eq_of_toNat_eq ?_, fun hzero => ?_⟩
        · show s.ilen.toNat = 0
          omega
        · rw [hzero] at hshort
          exact Nat.not_lt_zero _ hshort
    refine execDecode_of_error (e := .paddingRange) ?_
    rw [State.decodeResult, decodeResultOf, if_neg hfits, if_neg hnotree, if_pos hrange]
  · exact execDecode_of_error (e := .emptyAlphabetMismatch)
      ((State.decodeResult_of_no_root hallowed hroot).trans (if_pos hilen))
  · exact ⟨_, execDecode_of_ok ((State.decodeResult_of_no_root hallowed hroot).trans (if_neg (not_not.2 hilen))), rfl, rfl,
      rfl⟩

/-! ### The walk of DECODE -/

/-- DECODE of the codes of a sequence of leaves computes their symbols (43_decode.md R189). -/
theorem State.decodeResult_of_streamOf {s : State} {l r : CodeTree} {es : List (Byte × Bits)} (h : DecodeAllowed s)
    (htree : s.tree.codeTree = some (.node l r)) (hes : ∀ e ∈ es, e ∈ (CodeTree.node l r).leaves)
    (hbits : s.contentBits = streamOf es) : s.decodeResult = .ok (es.map Prod.fst) := by
  obtain ⟨root, hroot, hden⟩ := RebuildStore.denotes_of_codeTree htree
  have hwalk := walk_streamOf hden hes []
  rw [List.append_nil] at hwalk
  rw [State.decodeResult_of_root h hroot, hbits, hwalk, walk, if_pos rfl]
  simp [Except.map]

/-- What a successful DECODE leaves of the symbols it emitted (43_decode.md R189). -/
theorem State.decoded_output {s : State} {out : List Byte} (h : s.decodeResult = .ok out) :
    (s.output out).succeed.olen.toNat = out.length ∧ ∀ j b, out[j]? = some b → (s.output out).succeed.obufAt j = b := by
  refine ⟨?_, fun j b hj => ?_⟩
  · have hlen := State.decodeResult_length_le h
    show (BitVec.ofNat 32 out.length).toNat = out.length
    rw [BitVec.toNat_ofNat, Nat.mod_eq_of_lt (by omega)]
  · obtain ⟨hlt, hget⟩ := List.getElem?_eq_some_iff.1 hj
    exact (s.output_obufAt out hlt).trans hget

/-- Settles O50: the walk of each code ends at its leaf and starts again at the root. -/
theorem decodeEmitsTheSymbolsOfTheCodes : Obligations.DecodeEmitsTheSymbolsOfTheCodes := by
  intro s l r es hallowed htree hes hbits
  have hres := State.decodeResult_of_streamOf hallowed htree hes hbits
  obtain ⟨holen, hbytes⟩ := State.decoded_output hres
  refine ⟨_, execDecode_of_ok hres, rfl, rfl, by rw [holen, List.length_map], fun j e hj => hbytes j e.1 ?_⟩
  rw [List.getElem?_map, hj]
  rfl

/-- Settles O51: after the whole codes the walk ends below the root. -/
theorem decodeReportsATruncatedStream : Obligations.DecodeReportsATruncatedStream := by
  intro s l r es sym p q hallowed htree hes hmem hp hq hbits
  obtain ⟨root, hroot, hden⟩ := RebuildStore.denotes_of_codeTree htree
  have hinside := walk_insidePath hden hden hmem hq (Nat.le_refl _) fun hnil => absurd hnil hp
  refine execDecode_of_error (e := .truncatedStream) ?_
  rw [State.decodeResult_of_root hallowed hroot, hbits, walk_streamOf hden hes, hinside]
  rfl

/-- Settles O52: after the whole codes the walk steps onto the placeholder. -/
theorem decodeReportsThePlaceholder : Obligations.DecodeReportsThePlaceholder := by
  intro s l r es p rest hallowed htree hes hp hbits
  obtain ⟨root, hroot, hden⟩ := RebuildStore.denotes_of_codeTree htree
  refine execDecode_of_error (e := .invalidCodeword) ?_
  rw [State.decodeResult_of_root hallowed hroot, hbits, List.append_assoc, walk_streamOf hden hes,
    walk_pholdPath root rest hden hp]
  rfl

/-! ### The operands of DECODE -/

/-- Two states that end DECODE with one result hold the same output. -/
theorem State.endDecode_obufAt (s t : State) (r : Except CmdError (List Byte)) {k : Nat}
    (hk : k < (s.endDecode r).olen.toNat) : (s.endDecode r).obufAt k = (t.endDecode r).obufAt k := by
  cases r with
  | error e => exact absurd hk (Nat.not_lt_zero k)
  | ok out =>
    have hlt : k < out.length := Nat.lt_of_lt_of_le hk (s.output_olen_toNat_le _)
    calc (s.endDecode (.ok out)).obufAt k = out[k] := s.output_obufAt _ hlt
      _ = (t.endDecode (.ok out)).obufAt k := (t.output_obufAt _ hlt).symm

/-- Settles O54: the result is computed from ILEN, PAD, the tree and the content bits, and the end of DECODE from the
result. -/
theorem decodeDependsOnContentBitsOnly : Obligations.DecodeDependsOnContentBitsOnly := by
  intro s s' hilen hpad hvalid htree hbits
  have hlen : s'.contentLength = s.contentLength := by rw [State.contentLength, State.contentLength, hilen, hpad]
  have hcontent : s'.contentBits = s.contentBits := by
    rw [State.contentBits, State.contentBits, hlen]
    exact List.map_congr_left fun k hk => (hbits k (List.mem_range.1 hk)).symm
  have hres : s'.decodeResult = s.decodeResult := by
    rw [State.decodeResult, State.decodeResult, hilen, hpad, hvalid, htree, hcontent]
  refine ⟨_, _, execDecode_eq s, execDecode_eq s', ?_⟩
  rw [hres]
  refine ⟨?_, ?_, fun k hk => s.endDecode_obufAt s' _ hk⟩
  all_goals cases s.decodeResult <;> rfl

end Sys2Proof.Machine

/-! PROOFS. Code trees without a placeholder and the arenas that hold them (00_scope.md R15, R18). -/

namespace Sys2Proof.Machine

/-! ### Leaves of a tree -/

/-- The paths of the leaves of a tree, left to right. -/
def CodeTree.paths (t : CodeTree) : List Bits :=
  t.leaves.map Prod.snd

theorem CodeTree.paths_node (l r : CodeTree) :
    (CodeTree.node l r).paths = l.paths.map (false :: ·) ++ r.paths.map (true :: ·) := by
  simp only [CodeTree.paths, CodeTree.leaves, List.map_append, List.map_map]
  rfl

theorem CodeTree.mem_paths {t : CodeTree} {p : Bits} : p ∈ t.paths ↔ ∃ sym, (sym, p) ∈ t.leaves := by
  simp [CodeTree.paths]

theorem CodeTree.nil_not_mem_paths_node (l r : CodeTree) : [] ∉ (CodeTree.node l r).paths := by
  simp [CodeTree.paths_node]

theorem CodeTree.cons_mem_paths_node {l r : CodeTree} {b : Bool} {p : Bits} :
    b :: p ∈ (CodeTree.node l r).paths ↔ p ∈ (CodeTree.side l r b).paths := by
  simp only [CodeTree.mem_paths, CodeTree.cons_mem_leaves_node]

theorem CodeTree.paths_nodup (t : CodeTree) : t.paths.Nodup := by
  induction t with
  | leaf sym => simp [CodeTree.paths, CodeTree.leaves]
  | phold => simp [CodeTree.paths, CodeTree.leaves]
  | node l r ihl ihr =>
    rw [CodeTree.paths_node]
    refine List.nodup_append.2 ⟨ihl.map (List.cons_injective), ihr.map (List.cons_injective), ?_⟩
    rintro p hp q hq rfl
    obtain ⟨_, -, rfl⟩ := List.mem_map.1 hp
    obtain ⟨_, -, hq⟩ := List.mem_map.1 hq
    cases hq

theorem CodeTree.leaves_nodup (t : CodeTree) : t.leaves.Nodup :=
  List.Nodup.of_map _ t.paths_nodup

/-- No path of a leaf goes on to another leaf (00_scope.md R18). -/
theorem CodeTree.eq_of_isPrefix {t : CodeTree} {p q : Bits} (hp : p ∈ t.paths) (hq : q ∈ t.paths) (h : p <+: q) : p = q := by
  induction t generalizing p q with
  | leaf sym => simp_all [CodeTree.paths, CodeTree.leaves]
  | phold => cases hp
  | node l r ihl ihr =>
    cases p with
    | nil => exact absurd hp (CodeTree.nil_not_mem_paths_node l r)
    | cons b p =>
      obtain ⟨rest, rfl⟩ := h
      have hp := CodeTree.cons_mem_paths_node.1 hp
      have hq := CodeTree.cons_mem_paths_node.1 hq
      cases b with
      | false => exact congrArg (false :: ·) (ihl hp hq ⟨rest, rfl⟩)
      | true => exact congrArg (true :: ·) (ihr hp hq ⟨rest, rfl⟩)

/-! ### Trees without a placeholder -/

/-- Every internal node has two children, none of them a placeholder. -/
def CodeTree.Full (t : CodeTree) : Prop :=
  t.hasPhold = false

theorem CodeTree.full_node {l r : CodeTree} : (CodeTree.node l r).Full ↔ l.Full ∧ r.Full := by
  simp [CodeTree.Full, CodeTree.hasPhold]

theorem CodeTree.not_full_phold : ¬ CodeTree.phold.Full := by
  simp [CodeTree.Full, CodeTree.hasPhold]

theorem CodeTree.Full.side {l r : CodeTree} (h : (CodeTree.node l r).Full) (b : Bool) : (CodeTree.side l r b).Full := by
  cases b
  · exact (CodeTree.full_node.1 h).1
  · exact (CodeTree.full_node.1 h).2

theorem CodeTree.Full.paths_ne_nil {t : CodeTree} (h : t.Full) : t.paths ≠ [] := by
  induction t with
  | leaf sym => simp [CodeTree.paths, CodeTree.leaves]
  | phold => exact absurd h CodeTree.not_full_phold
  | node l r ihl _ =>
    rw [CodeTree.paths_node]
    simp [ihl (CodeTree.full_node.1 h).1]

/-- A code is shorter than the number of leaves (40_build.md R126 (d)). -/
theorem CodeTree.Full.length_lt {t : CodeTree} (h : t.Full) {p : Bits} (hp : p ∈ t.paths) : p.length < t.paths.length := by
  induction t generalizing p with
  | leaf sym => simp_all [CodeTree.paths, CodeTree.leaves]
  | phold => cases hp
  | node l r ihl ihr =>
    obtain ⟨hl, hr⟩ := CodeTree.full_node.1 h
    have hlpos := List.length_pos_iff.2 hl.paths_ne_nil
    have hrpos := List.length_pos_iff.2 hr.paths_ne_nil
    rw [CodeTree.paths_node] at hp ⊢
    simp only [List.length_append, List.length_map]
    rcases List.mem_append.1 hp with hp | hp
    · obtain ⟨q, hq, rfl⟩ := List.mem_map.1 hp
      have := ihl hl hq
      rw [List.length_cons]
      omega
    · obtain ⟨q, hq, rfl⟩ := List.mem_map.1 hp
      have := ihr hr hq
      rw [List.length_cons]
      omega

/-- A full tree is known by its leaves. -/
theorem CodeTree.Full.eq_of_leaves {t u : CodeTree} (ht : t.Full) (hu : u.Full) (h : ∀ e, e ∈ t.leaves ↔ e ∈ u.leaves) :
    t = u := by
  induction t generalizing u with
  | leaf sym =>
    have hmem : (sym, []) ∈ u.leaves := (h _).1 (by simp [CodeTree.leaves])
    cases u with
    | leaf v =>
      obtain rfl : sym = v := by simpa [CodeTree.leaves] using hmem
      rfl
    | phold => exact absurd hu CodeTree.not_full_phold
    | node l r => exact absurd (CodeTree.mem_paths.2 ⟨_, hmem⟩) (CodeTree.nil_not_mem_paths_node l r)
  | phold => exact absurd ht CodeTree.not_full_phold
  | node l r ihl ihr =>
    cases u with
    | leaf v =>
      have hmem : (v, []) ∈ (CodeTree.node l r).leaves := (h _).2 (by simp [CodeTree.leaves])
      exact absurd (CodeTree.mem_paths.2 ⟨_, hmem⟩) (CodeTree.nil_not_mem_paths_node l r)
    | phold => exact absurd hu CodeTree.not_full_phold
    | node l' r' =>
      have hside : ∀ b, ∀ e, e ∈ (CodeTree.side l r b).leaves ↔ e ∈ (CodeTree.side l' r' b).leaves := fun b e => by
        rw [← CodeTree.cons_mem_leaves_node, ← CodeTree.cons_mem_leaves_node]
        exact h _
      obtain ⟨hl, hr⟩ := CodeTree.full_node.1 ht
      obtain ⟨hl', hr'⟩ := CodeTree.full_node.1 hu
      rw [ihl hl hl' (hside false), ihr hr hr' (hside true)]

/-- Beside the path of a leaf, the other side of its last node holds a leaf too. -/
theorem CodeTree.Full.exists_sibling {t : CodeTree} (h : t.Full) {c : Bits} {x : Bool} (hp : c ++ [x] ∈ t.paths) :
    ∃ q, c ++ (!x) :: q ∈ t.paths := by
  induction c generalizing t with
  | nil =>
    cases t with
    | leaf sym => simp [CodeTree.paths, CodeTree.leaves] at hp
    | phold => cases hp
    | node l r =>
      obtain ⟨q, hq⟩ := List.exists_mem_of_ne_nil _ (h.side (!x)).paths_ne_nil
      exact ⟨q, CodeTree.cons_mem_paths_node.2 hq⟩
  | cons b c ih =>
    cases t with
    | leaf sym => simp [CodeTree.paths, CodeTree.leaves] at hp
    | phold => cases hp
    | node l r =>
      obtain ⟨q, hq⟩ := ih (h.side b) (CodeTree.cons_mem_paths_node.1 hp)
      exact ⟨q, CodeTree.cons_mem_paths_node.2 hq⟩

/-- A full tree with a leaf at its root is that leaf. -/
theorem CodeTree.eq_leaf_of_nil_mem {t : CodeTree} (h : [] ∈ t.paths) : ∃ sym, t = .leaf sym := by
  cases t with
  | leaf sym => exact ⟨sym, rfl⟩
  | phold => cases h
  | node l r => exact absurd h (CodeTree.nil_not_mem_paths_node l r)

/-- Two sibling leaves can be cut to one leaf at their common path. -/
theorem CodeTree.Full.exists_prune {t : CodeTree} (h : t.Full) {c : Bits} (h0 : c ++ [false] ∈ t.paths)
    (h1 : c ++ [true] ∈ t.paths) :
    ∃ (u : CodeTree) (rest : List Bits), u.Full ∧ t.paths.Perm ((c ++ [false]) :: (c ++ [true]) :: rest) ∧
      u.paths.Perm (c :: rest) := by
  induction c generalizing t with
  | nil =>
    cases t with
    | leaf sym => simp [CodeTree.paths, CodeTree.leaves] at h0
    | phold => cases h0
    | node l r =>
      obtain ⟨a, rfl⟩ : ∃ sym, l = .leaf sym := CodeTree.eq_leaf_of_nil_mem (CodeTree.cons_mem_paths_node.1 h0)
      obtain ⟨b, rfl⟩ : ∃ sym, r = .leaf sym := CodeTree.eq_leaf_of_nil_mem (CodeTree.cons_mem_paths_node.1 h1)
      exact ⟨.leaf a, [], rfl, .refl _, .refl _⟩
  | cons b c ih =>
    cases t with
    | leaf sym => simp [CodeTree.paths, CodeTree.leaves] at h0
    | phold => cases h0
    | node l r =>
      obtain ⟨u, rest, hu, ht, hc⟩ := ih (h.side b) (CodeTree.cons_mem_paths_node.1 h0) (CodeTree.cons_mem_paths_node.1 h1)
      obtain ⟨hl, hr⟩ := CodeTree.full_node.1 h
      cases b with
      | false =>
        refine ⟨.node u r, rest.map (false :: ·) ++ r.paths.map (true :: ·), CodeTree.full_node.2 ⟨hu, hr⟩, ?_, ?_⟩
        · rw [CodeTree.paths_node]
          exact (ht.map (false :: ·)).append_right _
        · rw [CodeTree.paths_node]
          exact (hc.map (false :: ·)).append_right _
      | true =>
        have hmiddle : ∀ xs : List Bits, ((l.paths.map (false :: ·)) ++ xs).Perm (xs ++ l.paths.map (false :: ·)) :=
          fun xs => List.perm_append_comm
        refine ⟨.node l u, rest.map (true :: ·) ++ l.paths.map (false :: ·), CodeTree.full_node.2 ⟨hl, hu⟩, ?_, ?_⟩
        · rw [CodeTree.paths_node]
          exact (hmiddle _).trans ((ht.map (true :: ·)).append_right _)
        · rw [CodeTree.paths_node]
          exact (hmiddle _).trans ((hc.map (true :: ·)).append_right _)

/-! ### Arenas whose nodes point backward -/

/-- Every internal node points at earlier nodes. -/
def PointsBack (rn : List RebuildNode) : Prop :=
  ∀ i a b, nodeAt rn i = .internal a b → a < i ∧ b < i

theorem nodeAt_append_of_lt {rn xs : List RebuildNode} {i : Nat} (h : i < rn.length) : nodeAt (rn ++ xs) i = nodeAt rn i := by
  rw [nodeAt, nodeAt, List.getElem?_append_left h]

theorem nodeAt_append_length (rn : List RebuildNode) (n : RebuildNode) : nodeAt (rn ++ [n]) rn.length = n := by
  simp [nodeAt]

theorem nodeAt_of_ge {rn : List RebuildNode} {i : Nat} (h : rn.length ≤ i) : nodeAt rn i = .free := by
  simp [nodeAt, h]

/-- Only written records denote a tree. -/
theorem Denotes.lt_length {rn : List RebuildNode} {i : Nat} {t : CodeTree} (h : Denotes rn i t) : i < rn.length := by
  by_contra hge
  have hfree := nodeAt_of_ge (Nat.not_lt.1 hge)
  cases h with
  | leaf h => rw [hfree] at h; cases h
  | phold h => rw [hfree] at h; cases h
  | node h => rw [hfree] at h; cases h

/-- New records leave the trees of the old ones. -/
theorem Denotes.append {rn : List RebuildNode} {i : Nat} {t : CodeTree} (h : Denotes rn i t) (xs : List RebuildNode) :
    Denotes (rn ++ xs) i t := by
  induction h with
  | leaf h => exact .leaf ((nodeAt_append_of_lt (Denotes.leaf h).lt_length).trans h)
  | phold h => exact .phold ((nodeAt_append_of_lt (Denotes.phold h).lt_length).trans h)
  | node h hl hr ihl ihr => exact .node ((nodeAt_append_of_lt (Denotes.node h hl hr).lt_length).trans h) ihl ihr

/-- A new internal record over two trees denotes their node (40_build.md R118; 42_rebuild.md R168). -/
theorem Denotes.merge {rn : List RebuildNode} {a b : Nat} {l r : CodeTree} (hl : Denotes rn a l) (hr : Denotes rn b r) :
    Denotes (rn ++ [.internal a b]) rn.length (.node l r) :=
  .node (nodeAt_append_length rn _) (hl.append _) (hr.append _)

theorem PointsBack.append_internal {rn : List RebuildNode} (h : PointsBack rn) {a b : Nat} (ha : a < rn.length)
    (hb : b < rn.length) : PointsBack (rn ++ [.internal a b]) := by
  intro i x y hnode
  rcases Nat.lt_trichotomy i rn.length with hi | rfl | hi
  · exact h i x y ((nodeAt_append_of_lt hi).symm.trans hnode)
  · rw [nodeAt_append_length] at hnode
    cases hnode
    exact ⟨ha, hb⟩
  · rw [nodeAt_of_ge (by simp; omega)] at hnode
    cases hnode

/-- Where nodes point backward, an index is fuel enough for the tree below it. -/
theorem Denotes.treeOfRn {rn : List RebuildNode} (hback : PointsBack rn) {i : Nat} {t : CodeTree} (h : Denotes rn i t)
    {fuel : Nat} (hfuel : i < fuel) : treeOfRn rn fuel i = some t := by
  induction h generalizing fuel with
  | leaf h =>
    obtain ⟨f, rfl⟩ := Nat.exists_eq_add_of_lt hfuel
    simp only [Machine.treeOfRn, h]
  | phold h =>
    obtain ⟨f, rfl⟩ := Nat.exists_eq_add_of_lt hfuel
    simp only [Machine.treeOfRn, h]
  | @node i a b l r h hl hr ihl ihr =>
    obtain ⟨f, rfl⟩ := Nat.exists_eq_add_of_lt hfuel
    obtain ⟨ha, hb⟩ := hback i a b h
    simp only [Machine.treeOfRn, h, ihl (show a < i + f by omega), ihr (show b < i + f by omega)]

/-! ### Lists of roots up to their order -/

/-- An element of the image of a list comes from an element of the list. -/
theorem exists_perm_cons_of_map_perm {α β : Type} {f : α → β} {l : List α} {b : β} {bs : List β}
    (h : (l.map f).Perm (b :: bs)) : ∃ a l', f a = b ∧ l.Perm (a :: l') ∧ (l'.map f).Perm bs := by
  obtain ⟨a, ha, rfl⟩ := List.mem_map.1 (h.mem_iff.2 (List.mem_cons_self ..))
  obtain ⟨x, y, rfl⟩ := List.append_of_mem ha
  refine ⟨a, x ++ y, rfl, List.perm_middle, List.Perm.cons_inv (a := f a) (.trans ?_ h)⟩
  simpa using List.perm_middle.symm

theorem exists_eq_append_pair {α : Type} {l : List α} (h : 1 < l.length) : ∃ pre a b, l = pre ++ [a, b] := by
  obtain ⟨b, a, rest, hrev⟩ : ∃ b a rest, l.reverse = b :: a :: rest :=
    match l.reverse, (List.length_reverse.symm ▸ h : 1 < l.reverse.length) with
    | b :: a :: rest, _ => ⟨b, a, rest, rfl⟩
  exact ⟨rest.reverse, a, b, by simpa using List.reverse_eq_iff.1 hrev⟩

end Sys2Proof.Machine

/-! PROOFS. The tree builder: one merge, the forest it keeps, and the weights (40_build.md R115 to R120; 00_scope.md R16). -/

namespace Sys2Proof.Machine

/-! ### Weights of an arena that grows -/

theorem weightAt_append_of_lt {bn : List BuildNode} (xs : List BuildNode) {i : Nat} (h : i < bn.length) :
    weightAt (bn ++ xs) i = weightAt bn i := by
  rw [weightAt, weightAt, List.getElem?_append_left h]

theorem weightAt_append_internal (bn : List BuildNode) (l r : Nat) (w : Weight) :
    weightAt (bn ++ [.internal l r w]) bn.length = w := by
  simp [weightAt]

/-- The list is descending by weight (40_build.md R119). -/
def Descending (bn : List BuildNode) (wl : List Nat) : Prop :=
  wl.Pairwise fun i j => weightAt bn j ≤ weightAt bn i

/-- A descending list is cut at an insertion into the nodes at least as heavy and the lighter ones (40_build.md R118). -/
theorem insertByWeight_split {bn : List BuildNode} {wl : List Nat} (h : Descending bn wl) (i : Nat) :
    ∃ x y, wl = x ++ y ∧ insertByWeight bn wl i = x ++ i :: y ∧ (∀ j ∈ x, weightAt bn i ≤ weightAt bn j) ∧
      ∀ j ∈ y, weightAt bn j < weightAt bn i := by
  obtain ⟨htake, hdrop⟩ := take_drop_countP_of_pairwise (fun j => decide (weightAt bn i ≤ weightAt bn j))
    (h.imp fun hab hb => decide_eq_true (BitVec.le_trans (of_decide_eq_true hb) hab))
  refine ⟨_, _, (List.take_append_drop _ wl).symm, rfl, fun j hj => ?_, fun j hj => ?_⟩
  · rw [htake] at hj
    exact of_decide_eq_true (List.mem_filter.1 hj).2
  · rw [hdrop] at hj
    exact BitVec.not_le.1 (by simpa using (List.mem_filter.1 hj).2)

theorem Descending.insertByWeight {bn : List BuildNode} {wl : List Nat} (h : Descending bn wl) (i : Nat) :
    Descending bn (insertByWeight bn wl i) := by
  obtain ⟨x, y, rfl, hinsert, hx, hy⟩ := insertByWeight_split h i
  rw [hinsert]
  obtain ⟨hxx, hyy, hxy⟩ := List.pairwise_append.1 h
  refine List.pairwise_append.2 ⟨hxx, List.pairwise_cons.2 ⟨fun j hj => BitVec.le_of_lt (hy j hj), hyy⟩, fun a ha b hb => ?_⟩
  rcases List.mem_cons.1 hb with rfl | hb
  · exact hx a ha
  · exact hxy a ha b hb

/-- Settles O27: the list before the new node is cut where the lighter nodes begin. -/
theorem mergeStepKeepsTheListDescending : Obligations.MergeStepKeepsTheListDescending := by
  rintro ⟨bn, wl⟩ pre l r rfl hinUse hdesc
  rw [mergeStep_eq]
  have hold : ∀ i ∈ pre, ∀ n, weightAt (bn ++ [n]) i = weightAt bn i := fun i hi n =>
    weightAt_append_of_lt _ (hinUse i (List.mem_append_left _ hi))
  have hnew := weightAt_append_internal bn l r (weightAt bn l + weightAt bn r)
  have hpre : Descending (bn ++ [.internal l r (weightAt bn l + weightAt bn r)]) pre :=
    (List.pairwise_append.1 hdesc).1.imp_of_mem fun hi hj hij => by rw [hold _ hi, hold _ hj]; exact hij
  obtain ⟨x, y, rfl, hinsert, hx, hy⟩ := insertByWeight_split hpre bn.length
  refine ⟨rfl, hpre.insertByWeight bn.length, x, y, rfl, hinsert, fun i hi => ?_, fun i hi => ?_⟩
  · have hle := hx i hi
    rwa [hnew, hold i (List.mem_append_left _ hi)] at hle
  · have hlt := hy i hi
    rwa [hnew, hold i (List.mem_append_right _ hi)] at hlt

/-! ### The loop (40_build.md R111) -/

/-- What every merge keeps, the loop keeps. -/
theorem mergeLoop_induction {P : BuildStore → Prop}
    (hstep : ∀ bn pre l r, P { bn := bn, wl := pre ++ [l, r] } → P (mergeStep { bn := bn, wl := pre ++ [l, r] }))
    (fuel : Nat) {b : BuildStore} (h : P b) : P (mergeLoop fuel b) := by
  induction fuel generalizing b with
  | zero => exact h
  | succ fuel ih =>
    unfold mergeLoop
    split
    · rename_i hlen
      obtain ⟨bn, wl⟩ := b
      obtain ⟨pre, l, r, rfl⟩ := exists_eq_append_pair hlen
      exact ih (hstep bn pre l r h)
    · exact h

/-- With fuel for every element the loop ends with one (40_build.md R120). -/
theorem mergeLoop_length {fuel : Nat} {b : BuildStore} (hne : b.wl ≠ []) (hlen : b.wl.length ≤ fuel) :
    (mergeLoop fuel b).wl.length = 1 := by
  induction fuel generalizing b with
  | zero => exact absurd (List.length_eq_zero_iff.1 (Nat.le_zero.1 hlen)) hne
  | succ fuel ih =>
    unfold mergeLoop
    split
    · rename_i hmany
      obtain ⟨bn, wl⟩ := b
      obtain ⟨pre, l, r, rfl⟩ := exists_eq_append_pair hmany
      have hshorter : (mergeStep { bn := bn, wl := pre ++ [l, r] }).wl.length = pre.length + 1 := by
        rw [mergeStep_eq, insertByWeight_length]
      refine ih (fun hnil => ?_) ?_
      · rw [hnil] at hshorter
        cases hshorter
      · rw [hshorter]
        simpa using hlen
    · have := List.length_pos_iff.2 hne
      omega

/-! ### The build arena as an arena of trees -/

/-- A build record without its weight. -/
def BuildNode.shape : BuildNode → RebuildNode
  | .free => .free
  | .leaf sym _ => .leaf sym
  | .internal l r _ => .internal l r

theorem nodeAt_shapes (bn : List BuildNode) (i : Nat) :
    nodeAt (bn.map BuildNode.shape) i = (bn[i]?.map BuildNode.shape).getD .free := by
  rw [nodeAt, List.getElem?_map]

theorem nodeAt_shapes_eq_leaf {bn : List BuildNode} {i : Nat} {sym : Byte}
    (h : nodeAt (bn.map BuildNode.shape) i = .leaf sym) : ∃ w, bn[i]? = some (.leaf sym w) := by
  rw [nodeAt_shapes] at h
  rcases hn : bn[i]? with _ | _ | ⟨v, w⟩ | ⟨a, b, w⟩ <;> rw [hn] at h <;> cases h
  exact ⟨w, rfl⟩

theorem nodeAt_shapes_eq_internal {bn : List BuildNode} {i a b : Nat}
    (h : nodeAt (bn.map BuildNode.shape) i = .internal a b) : ∃ w, bn[i]? = some (.internal a b w) := by
  rw [nodeAt_shapes] at h
  rcases hn : bn[i]? with _ | _ | ⟨v, w⟩ | ⟨x, y, w⟩ <;> rw [hn] at h <;> cases h
  exact ⟨w, rfl⟩

theorem nodeAt_shapes_ne_phold (bn : List BuildNode) (i : Nat) : nodeAt (bn.map BuildNode.shape) i ≠ .phold := by
  rw [nodeAt_shapes]
  rcases bn[i]? with _ | _ | ⟨v, w⟩ | ⟨x, y, w⟩ <;> exact nofun

/-- The two readings of an arena as a tree agree (00_scope.md R15). -/
theorem treeOfBn_eq_treeOfRn (bn : List BuildNode) (fuel i : Nat) :
    treeOfBn bn fuel i = treeOfRn (bn.map BuildNode.shape) fuel i := by
  induction fuel generalizing i with
  | zero => rfl
  | succ fuel ih =>
    simp only [treeOfBn, treeOfRn, nodeAt_shapes, ih]
    rcases bn[i]? with _ | _ | ⟨v, w⟩ | ⟨x, y, w⟩ <;> rfl

/-- The traversal records the leaves of the tree with their paths (40_build.md R123). -/
theorem traverse_eq_leaves {bn : List BuildNode} (hback : PointsBack (bn.map BuildNode.shape)) {i : Nat} {t : CodeTree}
    (h : Denotes (bn.map BuildNode.shape) i t) {fuel : Nat} (hfuel : i < fuel) (c : Bits) :
    traverse bn fuel i c = t.leaves.map fun e => (e.1, c ++ e.2) := by
  induction h generalizing fuel c with
  | leaf h =>
    obtain ⟨f, rfl⟩ := Nat.exists_eq_add_of_lt hfuel
    obtain ⟨w, hw⟩ := nodeAt_shapes_eq_leaf h
    simp [traverse, hw, CodeTree.leaves]
  | phold h => exact absurd h (nodeAt_shapes_ne_phold _ _)
  | @node i a b l r h hl hr ihl ihr =>
    obtain ⟨f, rfl⟩ := Nat.exists_eq_add_of_lt hfuel
    obtain ⟨w, hw⟩ := nodeAt_shapes_eq_internal h
    obtain ⟨ha, hb⟩ := hback i a b h
    simp only [traverse, hw, ihl (show a < i + f by omega), ihr (show b < i + f by omega), CodeTree.leaves, List.map_append,
      List.map_map, Function.comp_def, List.append_assoc, List.singleton_append]

/-! ### The forest of a running build -/

/-- The working list stands for full trees whose leaves are the present symbols, and the newest node is in it. -/
structure BuildForest (p : List Byte) (b : BuildStore) : Prop where
  back : PointsBack (b.bn.map BuildNode.shape)
  trees : ∃ fs : List (Nat × CodeTree), (fs.map Prod.fst).Perm b.wl ∧
    (∀ f ∈ fs, Denotes (b.bn.map BuildNode.shape) f.1 f.2 ∧ f.2.Full) ∧
    (fs.flatMap fun f => f.2.leaves.map Prod.fst).Perm p
  size : b.bn.length + b.wl.length = 2 * p.length
  newest : b.bn.length - 1 ∈ b.wl

theorem BuildForest.mergeStep {p : List Byte} {bn : List BuildNode} {pre : List Nat} {l r : Nat}
    (h : BuildForest p { bn := bn, wl := pre ++ [l, r] }) : BuildForest p (mergeStep { bn := bn, wl := pre ++ [l, r] }) := by
  obtain ⟨fs, hroots, hden, hsyms⟩ := h.trees
  have hlr : (pre ++ [l, r]).Perm (l :: r :: pre) := by simpa using List.perm_append_comm (l₁ := pre) (l₂ := [l, r])
  obtain ⟨⟨l', tl⟩, fs1, hl', hfs1, hroots1⟩ := exists_perm_cons_of_map_perm (hroots.trans hlr)
  obtain ⟨⟨r', tr⟩, fs2, hr', hfs2, hroots2⟩ := exists_perm_cons_of_map_perm hroots1
  obtain rfl : l' = l := hl'
  obtain rfl : r' = r := hr'
  have hfs : fs.Perm ((l', tl) :: (r', tr) :: fs2) := hfs1.trans (hfs2.cons _)
  obtain ⟨hl, hlfull⟩ := hden (l', tl) (hfs.mem_iff.2 (by simp))
  obtain ⟨hr, hrfull⟩ := hden (r', tr) (hfs.mem_iff.2 (by simp))
  have hsize := h.size
  have hinsert := insertByWeight_perm (bn ++ [BuildNode.internal l' r' (weightAt bn l' + weightAt bn r')]) pre bn.length
  have hshapes : (bn ++ [BuildNode.internal l' r' (weightAt bn l' + weightAt bn r')]).map BuildNode.shape =
      bn.map BuildNode.shape ++ [.internal l' r'] := by simp [BuildNode.shape]
  have hlen : (bn.map BuildNode.shape).length = bn.length := List.length_map _
  rw [mergeStep_eq]
  refine ⟨?_, ⟨(bn.length, .node tl tr) :: fs2, ?_, ?_, ?_⟩, ?_, ?_⟩
  · rw [hshapes]
    exact h.back.append_internal hl.lt_length hr.lt_length
  · exact (hroots2.cons _).trans hinsert.symm
  · rw [hshapes]
    intro f hf
    rcases List.mem_cons.1 hf with rfl | hf
    · exact ⟨hlen ▸ hl.merge hr, CodeTree.full_node.2 ⟨hlfull, hrfull⟩⟩
    · obtain ⟨hf, hffull⟩ := hden f (hfs.mem_iff.2 (by simp [hf]))
      exact ⟨hf.append _, hffull⟩
  · refine List.Perm.trans ?_ ((hfs.flatMap_right _).symm.trans hsyms)
    simp [CodeTree.leaves, Function.comp_def]
  · simp only [List.length_append, List.length_cons, List.length_nil, insertByWeight_length] at hsize ⊢
    omega
  · simpa using hinsert.mem_iff.2 (List.mem_cons_self ..)

/-- Before the first merge each present symbol is a tree of its own (40_build.md R115). -/
theorem buildForest_initial (freq : Vector Word 256) {p : List Byte} (hp : p ≠ []) :
    BuildForest p { bn := makeLeaves freq p, wl := initialOrder (makeLeaves freq p) p.length } := by
  have hperm := initialOrder_perm (makeLeaves freq p) p.length
  have hshapes : (makeLeaves freq p).map BuildNode.shape = p.map RebuildNode.leaf := by
    simp [makeLeaves, BuildNode.shape]
  have hpos := List.length_pos_iff.2 hp
  refine ⟨?_, ⟨p.zipIdx.map fun x => (x.2, .leaf x.1), ?_, ?_, ?_⟩, ?_, ?_⟩
  · rw [hshapes]
    intro i a b hnode
    rw [nodeAt, List.getElem?_map] at hnode
    cases hi : p[i]? <;> rw [hi] at hnode <;> cases hnode
  · have hidx : (p.zipIdx.map fun x => (x.2, CodeTree.leaf x.1)).map Prod.fst = List.range p.length := by
      rw [List.map_map, List.range_eq_range', ← List.zipIdx_map_snd 0 p]
      rfl
    rw [hidx]
    exact hperm.symm
  · rw [hshapes]
    intro f hf
    obtain ⟨x, hx, rfl⟩ := List.mem_map.1 hf
    refine ⟨.leaf ?_, rfl⟩
    rw [nodeAt, List.getElem?_map, List.mem_zipIdx_iff_getElem?.1 hx]
    rfl
  · have hsyms : ((p.zipIdx.map fun x => (x.2, CodeTree.leaf x.1)).flatMap fun f => f.2.leaves.map Prod.fst) = p := by
      rw [List.flatMap_map]
      exact (List.map_eq_flatMap ▸ List.zipIdx_map_fst 0 p :)
    rw [hsyms]
  · simp only [makeLeaves_length, hperm.length_eq, List.length_range]
    omega
  · rw [makeLeaves_length]
    exact hperm.mem_iff.2 (List.mem_range.2 (by omega))

theorem buildTree_forest (freq : Vector Word 256) {p : List Byte} (hp : p ≠ []) : BuildForest p (buildTree freq p) :=
  mergeLoop_induction (fun _ _ _ _ => BuildForest.mergeStep) _ (buildForest_initial freq hp)

/-- The arena ends with all merges done: `2n - 1` nodes, and the working list holds the last of them (40_build.md R120). -/
theorem buildTree_end (freq : Vector Word 256) {p : List Byte} (hp : p ≠ []) :
    (buildTree freq p).bn.length = 2 * p.length - 1 ∧ (buildTree freq p).wl = [2 * p.length - 2] := by
  have hforest := buildTree_forest freq hp
  have hperm := initialOrder_perm (makeLeaves freq p) p.length
  have hlen : (initialOrder (makeLeaves freq p) p.length).length = p.length := by rw [hperm.length_eq, List.length_range]
  have hone : (buildTree freq p).wl.length = 1 := by
    refine mergeLoop_length (List.ne_nil_of_length_pos ?_) ?_
    · rw [hlen]
      exact List.length_pos_iff.2 hp
    · exact hlen.le
  obtain ⟨root, hroot⟩ := List.length_eq_one_iff.1 hone
  have hsize := hforest.size
  have hnewest := hforest.newest
  rw [hroot, List.mem_singleton] at hnewest
  rw [hroot] at hsize ⊢
  simp only [List.length_cons, List.length_nil] at hsize
  exact ⟨by omega, by rw [← hnewest]; congr 1; omega⟩

/-- The tree BUILD makes: full, with the present symbols as its leaves, and recorded by the traversal. -/
theorem buildTree_tree (freq : Vector Word 256) {p : List Byte} (hp : p ≠ []) :
    ∃ t : CodeTree, t.Full ∧ (t.leaves.map Prod.fst).Perm p ∧
      treeOfBn (buildTree freq p).bn (buildTree freq p).bn.length (2 * p.length - 2) = some t ∧
      traverse (buildTree freq p).bn (buildTree freq p).bn.length ((buildTree freq p).wl.headD 0) [] = t.leaves := by
  obtain ⟨hlen, hwl⟩ := buildTree_end freq hp
  obtain ⟨hback, ⟨fs, hroots, hden, hsyms⟩, -, -⟩ := buildTree_forest freq hp
  rw [hwl] at hroots
  obtain ⟨⟨root, t⟩, rest, rfl, hfs, hrest⟩ := exists_perm_cons_of_map_perm hroots
  obtain rfl : rest = [] := by simpa using hrest
  obtain rfl := List.perm_singleton.1 hfs
  obtain ⟨ht, hfull⟩ := hden _ (List.mem_singleton.2 rfl)
  have hpos := List.length_pos_iff.2 hp
  have hfuel : 2 * p.length - 2 < (buildTree freq p).bn.length := by omega
  refine ⟨t, hfull, by simpa using hsyms, ?_, ?_⟩
  · rw [treeOfBn_eq_treeOfRn]
    exact ht.treeOfRn hback hfuel
  · rw [hwl, List.headD_cons, traverse_eq_leaves hback ht hfuel]
    simp

end Sys2Proof.Machine

/-! PROOFS. The weights of the build arena do not overflow, and the root weighs the sum of all counts (00_scope.md R16;
40_build.md R118, R120). -/

namespace Sys2Proof.Machine

/-- Every internal node weighs the sum of its children as numbers, and the working list weighs `total` together. -/
structure BuildWeights (total : Nat) (b : BuildStore) : Prop where
  inUse : ∀ i ∈ b.wl, i < b.bn.length
  sums : ∀ i l r w, b.bn[i]? = some (.internal l r w) →
    l < i ∧ r < i ∧ w.toNat = (weightAt b.bn l).toNat + (weightAt b.bn r).toNat
  total : (b.wl.map fun i => (weightAt b.bn i).toNat).sum = total

/-- A merge keeps the total, so the sum of two weights stays within the total and does not overflow (00_scope.md R16). -/
theorem BuildWeights.mergeStep {total : Nat} (htotal : total < 2 ^ 40) {bn : List BuildNode} {pre : List Nat} {l r : Nat}
    (h : BuildWeights total { bn := bn, wl := pre ++ [l, r] }) :
    BuildWeights total (mergeStep { bn := bn, wl := pre ++ [l, r] }) := by
  obtain ⟨hinUse, hsums, hsum⟩ := h
  simp only [List.map_append, List.map_cons, List.map_nil, List.sum_append, List.sum_cons, List.sum_nil] at hsum
  have hl : l < bn.length := hinUse l (by simp)
  have hr : r < bn.length := hinUse r (by simp)
  have hpre : ∀ i ∈ pre, i < bn.length := fun i hi => hinUse i (List.mem_append_left _ hi)
  have hadd : (weightAt bn l + weightAt bn r).toNat = (weightAt bn l).toNat + (weightAt bn r).toNat := by
    rw [BitVec.toNat_add, Nat.mod_eq_of_lt (by omega)]
  rw [mergeStep_eq]
  obtain ⟨n, hn⟩ : ∃ n, n = BuildNode.internal l r (weightAt bn l + weightAt bn r) := ⟨_, rfl⟩
  rw [← hn]
  have hperm := insertByWeight_perm (bn ++ [n]) pre bn.length
  have hold : ∀ i, i < bn.length → weightAt (bn ++ [n]) i = weightAt bn i := fun i => weightAt_append_of_lt [n]
  have hnew : weightAt (bn ++ [n]) bn.length = weightAt bn l + weightAt bn r := by
    rw [hn]
    exact weightAt_append_internal bn l r _
  refine ⟨fun i hi => ?_, fun i x y w hi => ?_, ?_⟩
  · rw [List.length_append, List.length_singleton]
    rcases List.mem_cons.1 (hperm.mem_iff.1 hi) with rfl | hi
    · omega
    · have := hpre i hi
      omega
  · obtain ⟨hlt, -⟩ := List.getElem?_eq_some_iff.1 hi
    rw [List.length_append, List.length_singleton] at hlt
    rcases Nat.lt_succ_iff_lt_or_eq.1 hlt with hlt | rfl
    · obtain ⟨hx, hy, hw⟩ := hsums i x y w (by rwa [List.getElem?_append_left hlt] at hi)
      exact ⟨hx, hy, by rw [hold x (hx.trans hlt), hold y (hy.trans hlt), hw]⟩
    · rw [List.getElem?_concat_length, hn] at hi
      cases hi
      exact ⟨hl, hr, by rw [hold l hl, hold r hr, hadd]⟩
  · have hsame : (pre.map fun i => (weightAt (bn ++ [n]) i).toNat) = pre.map fun i => (weightAt bn i).toNat :=
      List.map_congr_left fun i hi => by rw [hold i (hpre i hi)]
    rw [(hperm.map _).sum_eq, List.map_cons, List.sum_cons, hsame, hnew, hadd]
    omega

theorem weightAt_makeLeaves (freq : Vector Word 256) (p : List Byte) {i : Nat} (h : i < p.length) :
    (weightAt (makeLeaves freq p) i).toNat = (symAt freq p[i]).toNat := by
  have hcount : (symAt freq p[i]).toNat < 2 ^ 32 := (symAt freq p[i]).isLt
  simp only [weightAt, makeLeaves, List.getElem?_map, List.getElem?_eq_getElem h, Option.map_some, BitVec.toNat_setWidth]
  omega

/-- The counts together fit a weight: 256 counts of 32 bits (00_scope.md R16). -/
theorem sum_counts_lt (freq : Vector Word 256) {p : List Byte} (hp : p.length ≤ 256) :
    (p.map fun sym => (symAt freq sym).toNat).sum < 2 ^ 40 := by
  have hbound : ∀ x ∈ p.map fun sym => (symAt freq sym).toNat, x ≤ 2 ^ 32 - 1 := fun x hx => by
    obtain ⟨sym, -, rfl⟩ := List.mem_map.1 hx
    exact Nat.le_sub_one_of_lt (symAt freq sym).isLt
  have hsum := List.sum_le_card_nsmul _ _ hbound
  rw [List.length_map, smul_eq_mul] at hsum
  exact Nat.lt_of_le_of_lt (hsum.trans (Nat.mul_le_mul_right _ hp)) (by decide)

theorem buildWeights_initial (freq : Vector Word 256) (p : List Byte) :
    BuildWeights (p.map fun sym => (symAt freq sym).toNat).sum
      { bn := makeLeaves freq p, wl := initialOrder (makeLeaves freq p) p.length } := by
  have hperm := initialOrder_perm (makeLeaves freq p) p.length
  refine ⟨fun i hi => ?_, fun i l r w hi => ?_, ?_⟩
  · simpa using hperm.mem_iff.1 hi
  · rw [makeLeaves, List.getElem?_map] at hi
    cases hp : p[i]? <;> rw [hp] at hi <;> cases hi
  · rw [(hperm.map _).sum_eq]
    congr 1
    refine List.ext_getElem (by simp) fun i hi hi' => ?_
    simp only [List.getElem_map, List.getElem_range]
    exact weightAt_makeLeaves freq p (by simpa using hi')

theorem buildTree_weights (freq : Vector Word 256) {p : List Byte} (hp : p.length ≤ 256) :
    BuildWeights (p.map fun sym => (symAt freq sym).toNat).sum (buildTree freq p) :=
  mergeLoop_induction (fun _ _ _ _ => BuildWeights.mergeStep (sum_counts_lt freq hp)) _ (buildWeights_initial freq p)

/-! ### The state BUILD leaves -/

/-- What BUILD leaves (40_build.md R110). -/
def State.built (s : State) : State :=
  ({ (s.writeCodeTable (buildCodes s.freq s.build).1) with build := (buildCodes s.freq s.build).2 }).dropTree.succeed

theorem exec_build_built (s : State) : exec .build s = .next s.built := execBuild_eq s

@[simp] theorem State.built_err (s : State) : s.built.err = 0 := rfl
@[simp] theorem State.built_build (s : State) : s.built.build = (buildCodes s.freq s.build).2 := rfl

/-- With two or more present symbols BUILD records the traversal of the tree it builds. -/
theorem buildCodes_of_two_le {freq : Vector Word 256} (old : BuildStore) (h : 2 ≤ (presentSymbols freq).length) :
    buildCodes freq old =
      (traverse (buildTree freq (presentSymbols freq)).bn (buildTree freq (presentSymbols freq)).bn.length
        ((buildTree freq (presentSymbols freq)).wl.headD 0) [], buildTree freq (presentSymbols freq)) := by
  unfold buildCodes
  split
  · rename_i hp
    rw [hp] at h
    cases h
  · rename_i hp
    rw [hp, List.length_singleton] at h
    omega
  · rfl

theorem presentSymbols_ne_nil {freq : Vector Word 256} (h : 2 ≤ (presentSymbols freq).length) : presentSymbols freq ≠ [] :=
  List.ne_nil_of_length_pos (by omega)

/-- Settles O28: the loop does `n - 1` merges, each over earlier nodes and each keeping the total of the weights. -/
theorem buildArenaHasAllMerges : Obligations.BuildArenaHasAllMerges := by
  intro s h
  have hle := presentSymbols_length_le s.freq
  have hbuild : s.built.build = buildTree s.freq (presentSymbols s.freq) := by
    rw [State.built_build, buildCodes_of_two_le _ h]
  obtain ⟨hlen, hwl⟩ := buildTree_end s.freq (presentSymbols_ne_nil h)
  obtain ⟨-, hsums, htotal⟩ := buildTree_weights s.freq hle
  rw [hwl, List.map_singleton, List.sum_singleton] at htotal
  refine ⟨_, exec_build_built s, ?_⟩
  rw [hbuild]
  exact ⟨hlen, by omega, hwl, hsums, htotal⟩

end Sys2Proof.Machine

/-! PROOFS. The code table BUILD writes (40_build.md R112, R113, R123 to R127; 10_state.md R46). -/

namespace Sys2Proof.Machine

/-! ### Recorded codes -/

theorem presentSymbols_nodup (freq : Vector Word 256) : (presentSymbols freq).Nodup :=
  allSymbols_nodup.filter _

/-- The codes are a code for each of the symbols `p`, of 1 to 255 bits. -/
structure CodesOf (p : List Byte) (codes : List (Byte × Bits)) : Prop where
  symbols : (codes.map Prod.fst).Perm p
  lengths : ∀ e ∈ codes, 1 ≤ e.2.length ∧ e.2.length ≤ 255

/-- A full tree of two to 256 leaves gives codes of 1 to 255 bits (40_build.md R126 (d)). -/
theorem CodeTree.Full.leaf_length {t : CodeTree} (h : t.Full) (h2 : 2 ≤ t.leaves.length) {e : Byte × Bits}
    (he : e ∈ t.leaves) : 1 ≤ e.2.length ∧ e.2.length ≤ t.leaves.length - 1 := by
  have hpath : e.2 ∈ t.paths := List.mem_map_of_mem he
  have hlen : t.paths.length = t.leaves.length := List.length_map _
  have hlt := h.length_lt hpath
  refine ⟨Nat.pos_of_ne_zero fun hzero => ?_, by omega⟩
  rw [List.length_eq_zero_iff.1 hzero] at hpath
  obtain ⟨sym, rfl⟩ := CodeTree.eq_leaf_of_nil_mem hpath
  exact absurd h2 (by simp [CodeTree.leaves])

/-- The tree BUILD makes of two or more present symbols, whose leaves it records. -/
theorem buildCodes_tree {freq : Vector Word 256} (old : BuildStore) (h : 2 ≤ (presentSymbols freq).length) :
    ∃ t : CodeTree, t.Full ∧ (buildCodes freq old).1 = t.leaves ∧ t.leaves.length = (presentSymbols freq).length ∧
      (t.leaves.map Prod.fst).Perm (presentSymbols freq) ∧
      treeOfBn (buildCodes freq old).2.bn (buildCodes freq old).2.bn.length (2 * (presentSymbols freq).length - 2) =
        some t := by
  obtain ⟨t, hfull, hsyms, htree, htraverse⟩ := buildTree_tree freq (presentSymbols_ne_nil h)
  rw [buildCodes_of_two_le old h]
  exact ⟨t, hfull, htraverse, by simpa using hsyms.length_eq, hsyms, htree⟩

theorem buildCodes_of_nil {freq : Vector Word 256} (old : BuildStore) (h : presentSymbols freq = []) :
    buildCodes freq old = ([], old) := by
  rw [buildCodes, h]

theorem buildCodes_of_singleton {freq : Vector Word 256} (old : BuildStore) {v : Byte} (h : presentSymbols freq = [v]) :
    buildCodes freq old = ([(v, [false])], old) := by
  rw [buildCodes, h]

theorem buildCodes_codesOf (freq : Vector Word 256) (old : BuildStore) :
    CodesOf (presentSymbols freq) (buildCodes freq old).1 := by
  rcases hp : presentSymbols freq with _ | ⟨v, _ | ⟨u, rest⟩⟩
  · rw [buildCodes_of_nil old hp]
    exact ⟨.refl _, nofun⟩
  · rw [buildCodes_of_singleton old hp]
    refine ⟨.refl _, fun e he => ?_⟩
    obtain rfl := List.mem_singleton.1 he
    exact ⟨Nat.le_refl 1, by simp⟩
  · rw [← hp]
    have h2 : 2 ≤ (presentSymbols freq).length := by rw [hp]; simp
    obtain ⟨t, hfull, hcodes, hlen, hsyms, -⟩ := buildCodes_tree old h2
    have hle := presentSymbols_length_le freq
    rw [hcodes]
    refine ⟨hsyms, fun e he => ?_⟩
    obtain ⟨h1, h255⟩ := hfull.leaf_length (by omega) he
    exact ⟨h1, by omega⟩

/-! ### The code of a symbol in the recorded codes -/

theorem codeIn_of_mem {codes : List (Byte × Bits)} (h : (codes.map Prod.fst).Nodup) {e : Byte × Bits} (he : e ∈ codes) :
    codeIn codes e.1 = e.2 := by
  unfold codeIn
  cases hfind : codes.find? fun f => f.1 == e.1 with
  | none => exact absurd (List.find?_eq_none.1 hfind e he) (by simp)
  | some f =>
    have hsym : f.1 = e.1 := by simpa using List.find?_some hfind
    exact congrArg Prod.snd (List.inj_on_of_nodup_map h (List.mem_of_find?_eq_some hfind) he hsym)

theorem codeIn_of_not_mem {codes : List (Byte × Bits)} {sym : Byte} (h : sym ∉ codes.map Prod.fst) :
    codeIn codes sym = [] := by
  have hnone : codes.find? (fun f => f.1 == sym) = none := List.find?_eq_none.2 fun f hf hsym =>
    h (List.mem_map.2 ⟨f, hf, by simpa using hsym⟩)
  rw [codeIn, hnone]

theorem CodesOf.nodup {freq : Vector Word 256} {codes : List (Byte × Bits)} (h : CodesOf (presentSymbols freq) codes) :
    (codes.map Prod.fst).Nodup :=
  h.symbols.nodup_iff.2 (presentSymbols_nodup freq)

theorem CodesOf.codeIn_length_le {freq : Vector Word 256} {codes : List (Byte × Bits)}
    (h : CodesOf (presentSymbols freq) codes) (sym : Byte) : (codeIn codes sym).length ≤ 255 := by
  by_cases hsym : sym ∈ codes.map Prod.fst
  · obtain ⟨e, he, rfl⟩ := List.mem_map.1 hsym
    rw [codeIn_of_mem h.nodup he]
    exact (h.lengths e he).2
  · rw [codeIn_of_not_mem hsym]
    exact Nat.zero_le _

/-! ### The table after BUILD -/

theorem State.built_code (s : State) (sym : Byte) : s.built.code sym = codeIn (buildCodes s.freq s.build).1 sym := by
  have hlen := (buildCodes_codesOf s.freq s.build).codeIn_length_le sym
  exact (State.code_of_fields (s := s.writeCodeTable (buildCodes s.freq s.build).1) rfl rfl sym).trans
    (s.writeCodeTable_code _ sym hlen)

theorem State.built_ctLenAt_toNat (s : State) (sym : Byte) :
    (s.built.ctLenAt sym).toNat = (codeIn (buildCodes s.freq s.build).1 sym).length := by
  rw [← State.code_length, State.built_code]

theorem State.built_ctValBit (s : State) (sym : Byte) (i : Nat) :
    s.built.ctValBit sym i = wordsBit (valueWords (codeIn (buildCodes s.freq s.build).1 sym)) i :=
  s.writeCodeTable_ctValBit _ sym i

theorem State.built_ctValWordAt (s : State) (sym : Byte) (w : Nat) :
    s.built.ctValWordAt sym w = (valueWords (codeIn (buildCodes s.freq s.build).1 sym))[w]?.getD 0 := by
  show (symAt (s.writeCodeTable (buildCodes s.freq s.build).1).ctVal sym)[w]?.getD 0 = _
  rw [State.writeCodeTable_ctVal, symAt_symTable]

/-- A symbol has an entry exactly when BUILD recorded a code for it. -/
theorem State.built_ctLenAt_ne_zero (s : State) (sym : Byte) :
    s.built.ctLenAt sym ≠ 0 ↔ sym ∈ (buildCodes s.freq s.build).1.map Prod.fst := by
  have hcodes := buildCodes_codesOf s.freq s.build
  have hzero : s.built.ctLenAt sym = 0 ↔ (codeIn (buildCodes s.freq s.build).1 sym).length = 0 := by
    rw [← State.built_ctLenAt_toNat, ← BitVec.toNat_inj]
    rfl
  rw [Ne, hzero]
  constructor
  · intro hlen
    by_contra hsym
    exact hlen (by rw [codeIn_of_not_mem hsym]; rfl)
  · intro hsym hlen
    obtain ⟨e, he, rfl⟩ := List.mem_map.1 hsym
    rw [codeIn_of_mem hcodes.nodup he] at hlen
    have := (hcodes.lengths e he).1
    omega

/-- The CodeTable after BUILD holds exactly the recorded codes. -/
theorem State.mem_built_codeTable (s : State) (e : Byte × Bits) :
    e ∈ s.built.codeTable ↔ e ∈ (buildCodes s.freq s.build).1 := by
  have hnodup := (buildCodes_codesOf s.freq s.build).nodup
  rw [State.mem_codeTable, State.built_ctLenAt_ne_zero, State.built_code]
  constructor
  · rintro ⟨hsym, hcode⟩
    obtain ⟨f, hf, hfe⟩ := List.mem_map.1 hsym
    rw [← hfe, codeIn_of_mem hnodup hf] at hcode
    rwa [show e = f from Prod.ext hfe.symm hcode]
  · exact fun he => ⟨List.mem_map_of_mem he, (codeIn_of_mem hnodup he).symm⟩

/-- Settles O29: BUILD records a code for each present symbol, and none is empty or cut. -/
theorem buildCoversExactlyThePresentSymbols : Obligations.BuildCoversExactlyThePresentSymbols := by
  refine fun s => ⟨_, exec_build_built s, fun sym => ?_⟩
  rw [State.built_ctLenAt_ne_zero, (buildCodes_codesOf s.freq s.build).symbols.mem_iff, mem_presentSymbols]
  rfl

/-- Settles O32: the value words hold the code's value, which is less than 2 to its length. -/
theorem buildZeroesTheBitsAboveTheCode : Obligations.BuildZeroesTheBitsAboveTheCode := by
  refine fun s => ⟨_, exec_build_built s, fun sym i hi => ?_⟩
  rw [State.built_ctLenAt_toNat] at hi
  rw [State.built_ctValBit]
  rcases Nat.lt_or_ge i 256 with hlt | hge
  · rw [wordsBit_valueWords _ hlt]
    exact Nat.testBit_eq_false_of_lt ((Bits.val_lt _).trans_le (Nat.pow_le_pow_right (by decide) hi))
  · exact wordsBit_of_ge _ hge

/-! ### The empty map and the single symbol -/

theorem valueWords_getD_of_val_eq_zero {c : Bits} (h : Bits.val c = 0) (w : Nat) : (valueWords c)[w]?.getD 0 = 0 := by
  by_cases hw : w < 8
  · simp [valueWords, hw, h]
  · simp [valueWords, hw]

/-- Settles O23: nothing is present, so nothing is recorded and the scratch stays. -/
theorem buildOfTheEmptyMap : Obligations.BuildOfTheEmptyMap := by
  intro s hzero
  have hp : presentSymbols s.freq = [] := List.eq_nil_iff_forall_not_mem.2 fun sym hsym =>
    (mem_presentSymbols s.freq sym).1 hsym (hzero sym)
  have hcodes := buildCodes_of_nil s.build hp
  refine ⟨_, exec_build_built s, rfl, by rw [State.built_build, hcodes], fun sym => ⟨?_, fun w _ => ?_⟩⟩
  · refine not_not.1 (mt (s.built_ctLenAt_ne_zero sym).1 ?_)
    rw [hcodes]
    exact List.not_mem_nil
  · rw [State.built_ctValWordAt, hcodes]
    exact valueWords_getD_of_val_eq_zero rfl w

theorem presentSymbols_eq_singleton {s : State} {v : Byte} (hv : s.freqAt v ≠ 0) (hothers : ∀ sym, sym ≠ v → s.freqAt sym = 0) :
    presentSymbols s.freq = [v] := by
  refine List.perm_singleton.1 ((List.perm_ext_iff_of_nodup (presentSymbols_nodup _) (List.nodup_singleton v)).2 fun sym => ?_)
  rw [mem_presentSymbols, List.mem_singleton]
  exact ⟨fun h => by_contra fun hne => h (hothers sym hne), fun h => h ▸ hv⟩

/-- Settles O24: one code is recorded, and the value of "0" is 0. -/
theorem buildOfASingleSymbol : Obligations.BuildOfASingleSymbol := by
  intro s v hv hothers
  have hcodes := buildCodes_of_singleton s.build (presentSymbols_eq_singleton hv hothers)
  have hother : ∀ sym, sym ≠ v → codeIn [(v, [false])] sym = [] := fun sym hsym => codeIn_of_not_mem (by simpa using hsym)
  have hcode : codeIn [(v, [false])] v = [false] := codeIn_of_mem (by simp) (List.mem_singleton.2 rfl)
  refine ⟨_, exec_build_built s, rfl, by rw [State.built_build, hcodes], by rw [State.built_code, hcodes, hcode],
    fun sym hsym => BitVec.eq_of_toNat_eq ?_, fun sym w _ => ?_⟩
  · rw [State.built_ctLenAt_toNat, hcodes, hother sym hsym]
    rfl
  · rw [State.built_ctValWordAt, hcodes]
    refine valueWords_getD_of_val_eq_zero ?_ w
    by_cases hsym : sym = v
    · rw [hsym, hcode]
      rfl
    · rw [hother sym hsym]
      rfl

/-! ### Two symbols -/

theorem presentSymbols_eq_pair {s : State} {a b : Byte} (hab : a.toNat < b.toNat) (ha : s.freqAt a ≠ 0) (hb : s.freqAt b ≠ 0)
    (hothers : ∀ sym, sym ≠ a → sym ≠ b → s.freqAt sym = 0) : presentSymbols s.freq = [a, b] := by
  have hne : a ≠ b := fun h => Nat.lt_irrefl _ (h ▸ hab)
  have hperm : (presentSymbols s.freq).Perm [a, b] :=
    (List.perm_ext_iff_of_nodup (presentSymbols_nodup _) (by simpa using hne)).2 fun sym => by
      rw [mem_presentSymbols, List.mem_cons, List.mem_singleton]
      constructor
      · exact fun h => by_contra fun hn => h (hothers sym (fun hsa => hn (.inl hsa)) fun hsb => hn (.inr hsb))
      · rintro (rfl | rfl)
        · exact ha
        · exact hb
  refine hperm.eq_of_pairwise (le := fun x y : Byte => x.toNat < y.toNat) (fun x y _ _ hxy hyx => absurd hxy (by omega)) ?_ ?_
  · exact allSymbols_ascending.filter _
  · simpa using hab

/-- With two leaves the initial order puts the heavier one first, on equal weights the first one (40_build.md R116). -/
theorem initialOrder_pair (a b : Byte) (x y : Weight) :
    initialOrder [.leaf a x, .leaf b y] 2 = if y ≤ x then [0, 1] else [1, 0] := by
  have hfirst : initialOrder [.leaf a x, .leaf b y] 1 = [0] := rfl
  rw [initialOrder_succ, hfirst, insertByWeight]
  by_cases hle : y ≤ x
  · simp [weightAt, hle]
  · simp [weightAt, hle]

/-- The codes of two symbols: "0" for the first in the initial order, "1" for the other (40_build.md R116, R118). -/
theorem buildCodes_of_pair {freq : Vector Word 256} (old : BuildStore) {a b : Byte} (hp : presentSymbols freq = [a, b]) :
    (buildCodes freq old).1 =
      if (symAt freq b).toNat ≤ (symAt freq a).toNat then [(a, [false]), (b, [true])] else [(b, [false]), (a, [true])] := by
  have h2 : 2 ≤ (presentSymbols freq).length := by rw [hp]; simp
  have hweight : (symAt freq b).setWidth 40 ≤ (symAt freq a).setWidth 40 ↔ (symAt freq b).toNat ≤ (symAt freq a).toNat := by
    have := (symAt freq a).isLt
    have := (symAt freq b).isLt
    rw [BitVec.le_def, BitVec.toNat_setWidth, BitVec.toNat_setWidth, Nat.mod_eq_of_lt (by omega), Nat.mod_eq_of_lt (by omega)]
  have htree : buildTree freq [a, b] = mergeLoop 2 { bn := makeLeaves freq [a, b], wl := initialOrder (makeLeaves freq [a, b]) 2 } :=
    rfl
  rw [buildCodes_of_two_le old h2, hp, htree, makeLeaves, List.map_cons, List.map_singleton, initialOrder_pair]
  simp only [hweight]
  split_ifs
  · rfl
  · rfl

/-- Settles O25: the first in the initial order gets "0". -/
theorem buildOfTwoSymbols : Obligations.BuildOfTwoSymbols := by
  intro s a b hab ha hb hothers
  have hne : a ≠ b := fun h => Nat.lt_irrefl _ (h ▸ hab)
  have hcodes := buildCodes_of_pair s.build (presentSymbols_eq_pair hab ha hb hothers)
  have hpair : ∀ x y : Byte, x ≠ y → codeIn [(x, [false]), (y, [true])] x = [false] ∧
      codeIn [(x, [false]), (y, [true])] y = [true] := fun x y hxy =>
    ⟨codeIn_of_mem (e := (x, [false])) (by simpa using hxy) (by simp),
      codeIn_of_mem (e := (y, [true])) (by simpa using hxy) (by simp)⟩
  refine ⟨_, exec_build_built s, fun hle => ?_, fun hlt => ?_, fun sym hsa hsb => ?_⟩
  · rw [State.built_code, State.built_code, hcodes.trans (if_pos hle)]
    exact hpair a b hne
  · rw [State.built_code, State.built_code, hcodes.trans (if_neg (Nat.not_le.2 hlt))]
    exact hpair b a hne.symm
  · refine not_not.1 (mt (s.built_ctLenAt_ne_zero sym).1 fun hsym => ?_)
    have hpresent := (buildCodes_codesOf s.freq s.build).symbols.mem_iff.1 hsym
    exact (mem_presentSymbols s.freq sym).1 hpresent (hothers sym hsa hsb)

/-! ### The table as a prefix-free code -/

theorem State.codeTable_nodup (s : State) : (s.codeTable.map Prod.fst).Nodup := by
  have hsyms : s.codeTable.map Prod.fst = allSymbols.filter s.hasEntry := by
    simp only [State.codeTable, List.map_map, Function.comp_def, List.map_id']
  rw [hsyms]
  exact allSymbols_nodup.filter _

/-- A table whose entries are the leaves of a full tree is complete (00_scope.md R18). -/
theorem completeTable_of_leaves {table : List (Byte × Bits)} (hnodup : table.Nodup) {t : CodeTree} (hfull : t.Full)
    (hmem : ∀ e, e ∈ table ↔ e ∈ t.leaves) : CompleteTable table := by
  have hperm : table.Perm t.leaves := (List.perm_ext_iff_of_nodup hnodup t.leaves_nodup).2 hmem
  have hcodes : (table.map Prod.snd).Perm t.paths := hperm.map Prod.snd
  exact ⟨hcodes.nodup_iff.2 t.paths_nodup, t, hfull, fun c => hcodes.mem_iff⟩

theorem State.built_tree {s : State} (h : 2 ≤ (presentSymbols s.freq).length) :
    ∃ t : CodeTree, t.Full ∧ (∀ e, e ∈ s.built.codeTable ↔ e ∈ t.leaves) ∧
      t.leaves.length = (presentSymbols s.freq).length ∧
      treeOfBn s.built.build.bn s.built.build.bn.length (2 * (presentSymbols s.freq).length - 2) = some t := by
  obtain ⟨t, hfull, hcodes, hlen, -, htree⟩ := buildCodes_tree s.build h
  exact ⟨t, hfull, fun e => by rw [State.mem_built_codeTable, hcodes], hlen, htree⟩

/-- Settles O30: the codes are the paths of a full tree with `n` leaves. -/
theorem buildTableIsPrefixFree : Obligations.BuildTableIsPrefixFree := by
  intro s h
  obtain ⟨t, hfull, hmem, hlen, -⟩ := State.built_tree h
  refine ⟨_, exec_build_built s, fun e he f hf hne hpq => hne ?_, fun e he => ?_⟩
  · have hle := (hmem e).1 he
    have hlf := (hmem f).1 hf
    have hcode := CodeTree.eq_of_isPrefix (List.mem_map_of_mem hle) (List.mem_map_of_mem hlf) hpq
    exact congrArg Prod.fst (List.inj_on_of_nodup_map t.paths_nodup hle hlf hcode)
  · rw [← hlen] at h ⊢
    exact hfull.leaf_length h ((hmem e).1 he)

/-- Settles O31: the tree of the build arena is the tree the table is complete with. -/
theorem buildTableIsComplete : Obligations.BuildTableIsComplete := by
  intro s h
  obtain ⟨t, hfull, hmem, -, -⟩ := State.built_tree h
  exact ⟨_, exec_build_built s, completeTable_of_leaves (.of_map _ s.built.codeTable_nodup) hfull hmem⟩

end Sys2Proof.Machine

/-! PROOFS. The tree reconstructor: the sorted list of keys, one merge, and the forest it keeps (42_rebuild.md R161 to R171). -/

namespace Sys2Proof.Machine

/-! ### Keys -/

/-- The key of an element as a bit-string (42_rebuild.md R161). -/
def RlEntry.key (e : RlEntry) : Bits :=
  Bits.str e.len e.val

/-- The element for the node made of a last element `b`: its key without the last bit (42_rebuild.md R168). -/
def RlEntry.parent (b : RlEntry) (node : Nat) : RlEntry :=
  { len := b.len - 1, val := b.val >>> 1, node := node }

@[simp] theorem RlEntry.key_length (e : RlEntry) : e.key.length = e.len :=
  Bits.str_length _ _

theorem Bits.str_succ (n v : Nat) : Bits.str (n + 1) v = Bits.str n (v >>> 1) ++ [v.testBit 0] := by
  simp only [Bits.str, List.range_succ, List.map_append, List.map_singleton, Nat.add_sub_cancel, Nat.sub_self]
  congr 1
  refine List.map_congr_left fun i hi => ?_
  rw [List.mem_range] at hi
  rw [Nat.testBit_shiftRight]
  congr 1
  omega

theorem RlEntry.key_eq_concat {e : RlEntry} (h : e.len ≠ 0) (node : Nat) :
    e.key = (e.parent node).key ++ [e.val.testBit 0] := by
  obtain ⟨n, hn⟩ := Nat.exists_eq_succ_of_ne_zero h
  simp only [RlEntry.key, RlEntry.parent, hn, Nat.succ_sub_one]
  exact Bits.str_succ n e.val

/-! ### The order of the list (42_rebuild.md R166) -/

theorem RlEntry.notAfter_iff {e k : RlEntry} : e.notAfter k = true ↔ e.len < k.len ∨ (e.len = k.len ∧ e.val ≤ k.val) := by
  simp [RlEntry.notAfter]

/-- The list stands in ascending order of its keys, and each value is a number of the key's length. -/
structure SortedKeys (rl : List RlEntry) : Prop where
  sorted : rl.Pairwise fun e k => e.notAfter k = true
  values : ∀ e ∈ rl, e.val < 2 ^ e.len

theorem SortedKeys.of_append_left {x y : List RlEntry} (h : SortedKeys (x ++ y)) : SortedKeys x :=
  ⟨(List.pairwise_append.1 h.sorted).1, fun e he => h.values e (List.mem_append_left _ he)⟩

theorem insertByKey_sorted {rl : List RlEntry} (h : rl.Pairwise fun e f => e.notAfter f = true) (k : RlEntry) :
    (insertByKey rl k).Pairwise fun e f => e.notAfter f = true := by
  have htrans : ∀ a b c : RlEntry, a.notAfter b = true → b.notAfter c = true → a.notAfter c = true := fun a b c hab hbc => by
    rw [RlEntry.notAfter_iff] at *
    omega
  obtain ⟨htake, hdrop⟩ := take_drop_countP_of_pairwise (fun e : RlEntry => e.notAfter k) (h.imp fun hab hb => htrans _ _ _ hab hb)
  have hafter : ∀ e ∈ rl.drop (rl.countP fun e => e.notAfter k), k.notAfter e = true := fun e he => by
    rw [hdrop] at he
    have hnot : ¬ e.notAfter k = true := by simpa using (List.mem_filter.1 he).2
    rw [RlEntry.notAfter_iff] at *
    omega
  have hbefore : ∀ e ∈ rl.take (rl.countP fun e => e.notAfter k), e.notAfter k = true := fun e he => by
    rw [htake] at he
    exact (List.mem_filter.1 he).2
  refine List.pairwise_append.2 ⟨h.sublist (List.take_sublist _ _),
    List.pairwise_cons.2 ⟨hafter, h.sublist (List.drop_sublist _ _)⟩, fun a ha b hb => ?_⟩
  rcases List.mem_cons.1 hb with rfl | hb
  · exact hbefore a ha
  · exact htrans _ _ _ (hbefore a ha) (hafter b hb)

theorem SortedKeys.insertByKey {rl : List RlEntry} (h : SortedKeys rl) {k : RlEntry} (hk : k.val < 2 ^ k.len) :
    SortedKeys (insertByKey rl k) := by
  refine ⟨insertByKey_sorted h.sorted k, fun e he => ?_⟩
  rcases List.mem_cons.1 ((insertByKey_perm rl k).mem_iff.1 he) with rfl | he
  · exact hk
  · exact h.values e he

theorem sortedKeys_sortByKey {rl : List RlEntry} (h : ∀ e ∈ rl, e.val < 2 ^ e.len) : SortedKeys (sortByKey rl) := by
  refine ⟨?_, fun e he => h e ((sortByKey_perm rl).mem_iff.1 he)⟩
  suffices hfold : ∀ acc : List RlEntry, acc.Pairwise (fun e k => e.notAfter k = true) →
      (rl.foldl insertByKey acc).Pairwise fun e k => e.notAfter k = true from hfold [] .nil
  clear h
  induction rl with
  | nil => exact fun acc hacc => hacc
  | cons k rl ih => exact fun acc hacc => ih _ (insertByKey_sorted hacc k)

/-! ### One merge -/

/-- What a pass does on the last two elements (42_rebuild.md R167 to R170). -/
theorem rebuildStep_append_pair (rn : List RebuildNode) (pre : List RlEntry) (a b : RlEntry) :
    rebuildStep rn (pre ++ [a, b]) =
      if a.siblings b then some (rn ++ [.internal a.node b.node], insertByKey pre (b.parent rn.length)) else none := by
  simp [rebuildStep, RlEntry.parent]

theorem RlEntry.siblings_iff {a b : RlEntry} :
    a.siblings b = true ↔ a.len = b.len ∧ b.len ≠ 0 ∧ a.val >>> 1 = b.val >>> 1 ∧ a.val ≠ b.val := by
  simp [RlEntry.siblings, and_assoc]

/-- Siblings in their order have the keys of a left and a right child (42_rebuild.md R169, R170). -/
theorem RlEntry.keys_of_siblings {a b : RlEntry} (horder : a.notAfter b = true) (h : a.siblings b = true) (node : Nat) :
    a.key = (b.parent node).key ++ [false] ∧ b.key = (b.parent node).key ++ [true] := by
  obtain ⟨hlen, hne, hhalf, hval⟩ := RlEntry.siblings_iff.1 h
  have hle : a.val ≤ b.val := by
    rcases RlEntry.notAfter_iff.1 horder with hlt | ⟨-, hle⟩
    · omega
    · exact hle
  have hparent : (a.parent node).key = (b.parent node).key := by simp only [RlEntry.parent, RlEntry.key, hlen, hhalf]
  rw [Nat.shiftRight_one, Nat.shiftRight_one] at hhalf
  have ha : a.val.testBit 0 = false := by
    rw [Nat.testBit_zero, decide_eq_false_iff_not]
    omega
  have hb : b.val.testBit 0 = true := by
    rw [Nat.testBit_zero, decide_eq_true_eq]
    omega
  rw [RlEntry.key_eq_concat (hlen ▸ hne) node, RlEntry.key_eq_concat hne node, ha, hb, hparent]
  exact ⟨rfl, rfl⟩

/-- What every merge keeps, a loop that ends keeps. -/
theorem rebuildLoop_induction {P : List RebuildNode → List RlEntry → Prop}
    (hstep : ∀ rn pre a b, P rn (pre ++ [a, b]) → a.siblings b = true →
      P (rn ++ [.internal a.node b.node]) (insertByKey pre (b.parent rn.length)))
    {fuel : Nat} {rn rn' : List RebuildNode} {rl rl' : List RlEntry} (h : P rn rl)
    (hloop : rebuildLoop fuel rn rl = some (rn', rl')) : P rn' rl' := by
  induction fuel generalizing rn rl with
  | zero =>
    cases hloop
    exact h
  | succ fuel ih =>
    unfold rebuildLoop at hloop
    split at hloop
    · rename_i hlen
      obtain ⟨pre, a, b, rfl⟩ := exists_eq_append_pair hlen
      rw [rebuildStep_append_pair] at hloop
      by_cases hsib : a.siblings b = true
      · rw [if_pos hsib] at hloop
        exact ih (hstep rn pre a b h hsib) hloop
      · rw [if_neg hsib] at hloop
        cases hloop
    · cases hloop
      exact h

/-! ### The forest of a running reconstruction -/

/-- The leaves of a tree that stands at a key. -/
def leavesAt (f : RlEntry × CodeTree) : List (Byte × Bits) :=
  f.2.leaves.map fun e => (e.1, f.1.key ++ e.2)

/-- The list stands for full trees whose leaves, each with its key before its path, are the entries of the table, and the
newest node is in it. -/
structure RebuildForest (table : List (Byte × Bits)) (rn : List RebuildNode) (rl : List RlEntry) : Prop where
  keys : SortedKeys rl
  back : PointsBack rn
  trees : ∃ fs : List (RlEntry × CodeTree), (fs.map Prod.fst).Perm rl ∧ (∀ f ∈ fs, Denotes rn f.1.node f.2 ∧ f.2.Full) ∧
    (fs.flatMap leavesAt).Perm table
  size : rn.length + rl.length = 2 * table.length
  newest : ∃ e ∈ rl, e.node = rn.length - 1

theorem leavesAt_merge {a b k : RlEntry} {ta tb : CodeTree} (ha : a.key = k.key ++ [false]) (hb : b.key = k.key ++ [true]) :
    leavesAt (k, .node ta tb) = leavesAt (a, ta) ++ leavesAt (b, tb) := by
  simp [leavesAt, CodeTree.leaves, ha, hb, Function.comp_def]

theorem perm_append_pair {α : Type} (pre : List α) (a b : α) : (pre ++ [a, b]).Perm (a :: b :: pre) := by
  simpa using List.perm_append_comm (l₁ := pre) (l₂ := [a, b])

theorem SortedKeys.merge {pre : List RlEntry} {a b : RlEntry} (h : SortedKeys (pre ++ [a, b])) (node : Nat) (hb : b.len ≠ 0) :
    SortedKeys (Machine.insertByKey pre (b.parent node)) := by
  refine h.of_append_left.insertByKey ?_
  have hval := h.values b (by simp)
  obtain ⟨n, hn⟩ := Nat.exists_eq_succ_of_ne_zero hb
  rw [hn, pow_succ] at hval
  simp only [RlEntry.parent, hn, Nat.succ_sub_one, Nat.shiftRight_one]
  omega

theorem SortedKeys.pair_notAfter {pre : List RlEntry} {a b : RlEntry} (h : SortedKeys (pre ++ [a, b])) :
    a.notAfter b = true :=
  (List.pairwise_cons.1 (List.pairwise_append.1 h.sorted).2.1).1 b (List.mem_singleton.2 rfl)

theorem RebuildForest.merge {table : List (Byte × Bits)} {rn : List RebuildNode} {pre : List RlEntry} {a b : RlEntry}
    (h : RebuildForest table rn (pre ++ [a, b])) (hsib : a.siblings b = true) :
    RebuildForest table (rn ++ [.internal a.node b.node]) (insertByKey pre (b.parent rn.length)) := by
  obtain ⟨hkeys, hback, ⟨fs, hroots, hden, hleaves⟩, hsize, -⟩ := h
  obtain ⟨-, hne, -, -⟩ := RlEntry.siblings_iff.1 hsib
  obtain ⟨hkeya, hkeyb⟩ := RlEntry.keys_of_siblings hkeys.pair_notAfter hsib rn.length
  obtain ⟨⟨a', ta⟩, fs1, ha', hfs1, hroots1⟩ := exists_perm_cons_of_map_perm (hroots.trans (perm_append_pair pre a b))
  obtain ⟨⟨b', tb⟩, fs2, hb', hfs2, hroots2⟩ := exists_perm_cons_of_map_perm hroots1
  obtain rfl : a' = a := ha'
  obtain rfl : b' = b := hb'
  have hfs : fs.Perm ((a', ta) :: (b', tb) :: fs2) := hfs1.trans (hfs2.cons _)
  obtain ⟨hda, hfulla⟩ := hden (a', ta) (hfs.mem_iff.2 (by simp))
  obtain ⟨hdb, hfullb⟩ := hden (b', tb) (hfs.mem_iff.2 (by simp))
  have hinsert := insertByKey_perm pre (b'.parent rn.length)
  refine ⟨hkeys.merge rn.length hne, hback.append_internal hda.lt_length hdb.lt_length,
    ⟨(b'.parent rn.length, .node ta tb) :: fs2, (hroots2.cons _).trans hinsert.symm, ?_, ?_⟩, ?_, ?_⟩
  · intro f hf
    rcases List.mem_cons.1 hf with rfl | hf
    · exact ⟨hda.merge hdb, CodeTree.full_node.2 ⟨hfulla, hfullb⟩⟩
    · obtain ⟨hf, hfull⟩ := hden f (hfs.mem_iff.2 (by simp [hf]))
      exact ⟨hf.append _, hfull⟩
  · refine List.Perm.trans ?_ ((hfs.flatMap_right _).symm.trans hleaves)
    simp [leavesAt_merge hkeya hkeyb]
  · have hlen := hinsert.length_eq
    simp only [List.length_append, List.length_cons, List.length_nil] at hlen hsize ⊢
    omega
  · exact ⟨_, hinsert.mem_iff.2 (List.mem_cons_self ..), by simp [RlEntry.parent]⟩

/-- Before the first merge each entry is a leaf at its code (42_rebuild.md R164). -/
theorem rebuildForest_initial {table : List (Byte × Bits)} (hne : table ≠ []) :
    RebuildForest table (rebuildLeaves table) (sortByKey (initialEntries table)) := by
  have hperm := sortByKey_perm (initialEntries table)
  have hentries : initialEntries table =
      table.zipIdx.map fun x => { len := x.1.2.length, val := Bits.val x.1.2, node := x.2 } := by
    rw [initialEntries, List.mapIdx_eq_zipIdx_map]
  have hpos := List.length_pos_iff.2 hne
  refine ⟨sortedKeys_sortByKey fun e he => ?_, fun i a b hnode => ?_,
    ⟨table.zipIdx.map fun x => ({ len := x.1.2.length, val := Bits.val x.1.2, node := x.2 }, .leaf x.1.1), ?_, ?_, ?_⟩, ?_, ?_⟩
  · rw [hentries] at he
    obtain ⟨x, -, rfl⟩ := List.mem_map.1 he
    exact Bits.val_lt _
  · rw [nodeAt, rebuildLeaves, List.getElem?_map] at hnode
    cases hi : table[i]? <;> rw [hi] at hnode <;> cases hnode
  · refine (List.Perm.of_eq ?_).trans hperm.symm
    rw [hentries, List.map_map]
    rfl
  · intro f hf
    obtain ⟨x, hx, rfl⟩ := List.mem_map.1 hf
    refine ⟨.leaf ?_, rfl⟩
    rw [nodeAt, rebuildLeaves, List.getElem?_map, List.mem_zipIdx_iff_getElem?.1 hx]
    rfl
  · have hleaf : ∀ x : (Byte × Bits) × Nat,
        leavesAt ({ len := x.1.2.length, val := Bits.val x.1.2, node := x.2 }, .leaf x.1.1) = [x.1] := fun x => by
      simp [leavesAt, CodeTree.leaves, RlEntry.key, Bits.str_val]
    rw [List.flatMap_map]
    simp only [hleaf]
    rw [← List.map_eq_flatMap, List.zipIdx_map_fst]
  · rw [hperm.length_eq, rebuildLeaves, initialEntries, List.length_map, List.length_mapIdx]
    omega
  · refine ⟨_, hperm.mem_iff.2 (List.mem_mapIdx.2 ⟨table.length - 1, by omega, rfl⟩), ?_⟩
    rw [rebuildLeaves, List.length_map]

/-- What a successful reconstruction leaves: a full tree with exactly the entries of the table as its leaves, in `2m - 1`
nodes with the root last (42_rebuild.md R172, R173). -/
structure Reconstructed (table : List (Byte × Bits)) (t : RebuildStore) (tree : CodeTree) : Prop where
  full : tree.Full
  leaves : tree.leaves.Perm table
  denotes : t.codeTree = some tree
  size : t.rn.length = 2 * table.length - 1
  root : t.rroot = some (t.rn.length - 1)

theorem rebuildFrom_reconstructed {table : List (Byte × Bits)} (hne : table ≠ []) {t : RebuildStore}
    (h : rebuildFrom (rebuildLeaves table) (initialEntries table) = some t) : ∃ tree, Reconstructed table t tree := by
  unfold rebuildFrom at h
  split at h
  · rename_i rn e hloop
    split at h
    · rename_i hlen
      obtain rfl := Option.some.inj h
      obtain ⟨-, hback, ⟨fs, hroots, hden, hleaves⟩, hsize, ⟨e', he', hnewest⟩⟩ :=
        rebuildLoop_induction (P := RebuildForest table) (fun _ _ _ _ => RebuildForest.merge) (rebuildForest_initial hne) hloop
      obtain rfl := List.mem_singleton.1 he'
      obtain ⟨⟨f, tree⟩, rest, hf, hfs, hrest⟩ := exists_perm_cons_of_map_perm hroots
      obtain rfl : f = e' := hf
      obtain rfl : rest = [] := by simpa using hrest
      obtain rfl := List.perm_singleton.1 hfs
      obtain ⟨hdenotes, hfull⟩ := hden _ (List.mem_singleton.2 rfl)
      have hkey : f.key = [] := List.length_eq_zero_iff.1 (by rw [RlEntry.key_length, hlen])
      refine ⟨tree, hfull, ?_, hdenotes.treeOfRn hback hdenotes.lt_length, ?_, by rw [hnewest]⟩
      · simpa [leavesAt, hkey] using hleaves
      · simp only [List.length_cons, List.length_nil] at hsize
        show rn.length = _
        omega
    · cases h
  · cases h
  · cases h

end Sys2Proof.Machine

/-! PROOFS. When REBUILD succeeds, and with which tree (42_rebuild.md R165, R172, R173, R176; 40_build.md R126 (e)). -/

namespace Sys2Proof.Machine

/-! ### The last two elements of a complete list are siblings -/

theorem RlEntry.val_key {e : RlEntry} (h : e.val < 2 ^ e.len) : Bits.val e.key = e.val := by
  rw [RlEntry.key, Bits.val_str, Nat.mod_eq_of_lt h]

/-- Two elements of one length and one value have one key. -/
theorem RlEntry.key_congr {e f : RlEntry} (hlen : e.len = f.len) (hval : e.val = f.val) : e.key = f.key := by
  rw [RlEntry.key, RlEntry.key, hlen, hval]

theorem RlEntry.notAfter_refl (e : RlEntry) : e.notAfter e = true :=
  RlEntry.notAfter_iff.2 (.inr ⟨rfl, Nat.le_refl _⟩)

theorem SortedKeys.notAfter_last {pre : List RlEntry} {b e : RlEntry} (h : SortedKeys (pre ++ [b])) (he : e ∈ pre ++ [b]) :
    e.notAfter b = true := by
  rcases List.mem_append.1 he with he | he
  · exact (List.pairwise_append.1 h.sorted).2.2 e he b (List.mem_singleton.2 rfl)
  · obtain rfl := List.mem_singleton.1 he
    exact e.notAfter_refl

/-- Where the keys are the paths of a full tree, the last element is a right child, because its sibling is a leaf that cannot
stand after it; and nothing stands between the two (42_rebuild.md R172). -/
theorem siblings_of_complete {pre : List RlEntry} {a b : RlEntry} (hkeys : SortedKeys (pre ++ [a, b])) {t : CodeTree}
    (hfull : t.Full) (hperm : t.paths.Perm ((pre ++ [a, b]).map RlEntry.key)) : a.siblings b = true := by
  have hsplit : pre ++ [a, b] = (pre ++ [a]) ++ [b] := by simp
  have hb : b.key ∈ t.paths := hperm.mem_iff.2 (List.mem_map_of_mem (by simp))
  have hne : b.len ≠ 0 := fun hzero => by
    have hnil : b.key = [] := List.length_eq_zero_iff.1 (by rw [RlEntry.key_length, hzero])
    obtain ⟨sym, rfl⟩ := CodeTree.eq_leaf_of_nil_mem (hnil ▸ hb)
    have := hperm.length_eq
    simp [CodeTree.paths, CodeTree.leaves] at this
  obtain ⟨c, x, hc⟩ : ∃ c x, b.key = c ++ [x] := ⟨_, _, RlEntry.key_eq_concat hne 0⟩
  obtain ⟨q, hq⟩ := hfull.exists_sibling (hc ▸ hb)
  obtain ⟨e, he, hekey⟩ := List.mem_map.1 (hperm.mem_iff.1 hq)
  have helast := RlEntry.notAfter_iff.1 ((hsplit ▸ hkeys).notAfter_last (hsplit ▸ he))
  have halast := RlEntry.notAfter_iff.1 hkeys.pair_notAfter
  have hblen : b.len = c.length + 1 := by simpa using congrArg List.length hc
  have helen : e.len = c.length + 1 + q.length := by
    have := congrArg List.length hekey
    simp at this
    omega
  obtain rfl : q = [] := List.length_eq_zero_iff.1 (by omega)
  have hbval : b.val = 2 * Bits.val c + x.toNat := by
    rw [← RlEntry.val_key (hkeys.values b (by simp)), hc, Bits.val_concat]
  have heval : e.val = 2 * Bits.val c + (!x).toNat := by
    rw [← RlEntry.val_key (hkeys.values e he), hekey, Bits.val_concat]
  simp only [List.length_nil, Nat.add_zero] at helen
  cases x with
  | false =>
    simp only [Bool.toNat_false, Bool.not_false, Bool.toNat_true] at hbval heval
    omega
  | true =>
    simp only [Bool.toNat_true, Bool.not_true, Bool.toNat_false] at hbval heval
    have hea : e ∈ pre ++ [a] := by
      rcases List.mem_append.1 (hsplit ▸ he) with he | he
      · exact he
      · obtain rfl := List.mem_singleton.1 he
        omega
    have hebefore := RlEntry.notAfter_iff.1 ((hsplit ▸ hkeys).of_append_left.notAfter_last hea)
    have hdistinct : a.key ≠ b.key := by
      have hnodup := hperm.nodup_iff.1 t.paths_nodup
      rw [List.map_append] at hnodup
      simpa using (List.nodup_append.1 hnodup).2.1
    have hval : a.val ≠ b.val := fun hval => hdistinct (RlEntry.key_congr (by omega) hval)
    rw [RlEntry.siblings_iff, Nat.shiftRight_one, Nat.shiftRight_one]
    omega

/-- A merge of two siblings cuts the full tree at their common path. -/
theorem complete_merge {pre : List RlEntry} {a b : RlEntry} (hkeys : SortedKeys (pre ++ [a, b])) (hsib : a.siblings b = true)
    {t : CodeTree} (hfull : t.Full) (hperm : t.paths.Perm ((pre ++ [a, b]).map RlEntry.key)) (node : Nat) :
    ∃ u : CodeTree, u.Full ∧ u.paths.Perm ((insertByKey pre (b.parent node)).map RlEntry.key) := by
  obtain ⟨ha, hb⟩ := RlEntry.keys_of_siblings hkeys.pair_notAfter hsib node
  have hpair : ((pre ++ [a, b]).map RlEntry.key).Perm (a.key :: b.key :: pre.map RlEntry.key) :=
    (perm_append_pair pre a b).map RlEntry.key
  rw [ha, hb] at hpair
  have hall := hperm.trans hpair
  obtain ⟨u, rest, hu, ht, huperm⟩ := hfull.exists_prune (c := (b.parent node).key) (hall.mem_iff.2 (by simp)) (hall.mem_iff.2 (by simp))
  have hrest : rest.Perm (pre.map RlEntry.key) := (ht.symm.trans hall).cons_inv.cons_inv
  refine ⟨u, hu, huperm.trans ((hrest.cons _).trans ?_)⟩
  exact ((insertByKey_perm pre (b.parent node)).map RlEntry.key).symm

/-- A complete list of at most one element is an element with the empty key (42_rebuild.md R171). -/
theorem singleton_of_complete {rl : List RlEntry} {t : CodeTree} (hfull : t.Full) (hperm : t.paths.Perm (rl.map RlEntry.key))
    (hlen : rl.length ≤ 1) : ∃ e, rl = [e] ∧ e.len = 0 := by
  have hpos := List.length_pos_iff.2 hfull.paths_ne_nil
  rw [hperm.length_eq, List.length_map] at hpos
  obtain ⟨e, rfl⟩ := List.length_eq_one_iff.1 (Nat.le_antisymm hlen hpos)
  have hlt := hfull.length_lt (hperm.mem_iff.2 (List.mem_singleton.2 rfl))
  rw [hperm.length_eq, RlEntry.key_length, List.length_map] at hlt
  exact ⟨e, rfl, Nat.lt_one_iff.1 hlt⟩

/-- On a complete list the loop runs to one element with the empty key. -/
theorem rebuildLoop_of_complete {fuel : Nat} {rn : List RebuildNode} {rl : List RlEntry} (hkeys : SortedKeys rl)
    {t : CodeTree} (hfull : t.Full) (hperm : t.paths.Perm (rl.map RlEntry.key)) (hfuel : rl.length ≤ fuel + 1) :
    ∃ rn' e, rebuildLoop fuel rn rl = some (rn', [e]) ∧ e.len = 0 := by
  induction fuel generalizing rn rl t with
  | zero =>
    obtain ⟨e, rfl, he⟩ := singleton_of_complete hfull hperm hfuel
    exact ⟨rn, e, rfl, he⟩
  | succ fuel ih =>
    unfold rebuildLoop
    by_cases hlen : rl.length > 1
    · obtain ⟨pre, a, b, rfl⟩ := exists_eq_append_pair hlen
      have hsib := siblings_of_complete hkeys hfull hperm
      obtain ⟨-, hne, -, -⟩ := RlEntry.siblings_iff.1 hsib
      obtain ⟨u, hu, huperm⟩ := complete_merge hkeys hsib hfull hperm rn.length
      have hshorter : (insertByKey pre (b.parent rn.length)).length = pre.length + 1 :=
        (insertByKey_perm pre (b.parent rn.length)).length_eq
      rw [if_pos hlen, rebuildStep_append_pair, if_pos hsib]
      refine ih (hkeys.merge rn.length hne) hu huperm ?_
      rw [hshorter]
      simpa using hfuel
    · obtain ⟨e, rfl, he⟩ := singleton_of_complete hfull hperm (Nat.not_lt.1 hlen)
      exact ⟨rn, e, if_neg hlen, he⟩

/-! ### The success condition (42_rebuild.md R172) -/

/-- The codes of a complete table are the paths of a full tree, each once. -/
theorem CompleteTable.exists_tree {table : List (Byte × Bits)} (h : CompleteTable table) :
    ∃ t : CodeTree, t.Full ∧ t.paths.Perm (table.map Prod.snd) := by
  obtain ⟨hnodup, t, hfull, hcodes⟩ := h
  exact ⟨t, hfull, (List.perm_ext_iff_of_nodup t.paths_nodup hnodup).2 fun c => (hcodes c).symm⟩

theorem initialEntries_keys (table : List (Byte × Bits)) : (initialEntries table).map RlEntry.key = table.map Prod.snd := by
  rw [initialEntries, List.mapIdx_eq_zipIdx_map, List.map_map]
  simp only [Function.comp_def, RlEntry.key, Bits.str_val]
  calc table.zipIdx.map (fun x => x.1.2) = (table.zipIdx.map Prod.fst).map Prod.snd := by rw [List.map_map]; rfl
    _ = table.map Prod.snd := by rw [List.zipIdx_map_fst]

theorem rebuildFrom_of_complete {table : List (Byte × Bits)} (h : CompleteTable table) :
    ∃ t, rebuildFrom (rebuildLeaves table) (initialEntries table) = some t := by
  obtain ⟨tree, hfull, hperm⟩ := h.exists_tree
  have hsort := sortByKey_perm (initialEntries table)
  have hkeys : SortedKeys (sortByKey (initialEntries table)) := sortedKeys_sortByKey fun e he => by
    obtain ⟨i, hi, rfl⟩ := List.mem_mapIdx.1 he
    exact Bits.val_lt _
  have hpaths : tree.paths.Perm ((sortByKey (initialEntries table)).map RlEntry.key) := by
    refine hperm.trans ?_
    rw [← initialEntries_keys]
    exact (hsort.map RlEntry.key).symm
  obtain ⟨rn, e, hloop, he⟩ := rebuildLoop_of_complete (rn := rebuildLeaves table) hkeys hfull hpaths
    (fuel := (initialEntries table).length) (by rw [hsort.length_eq]; omega)
  exact ⟨_, by rw [rebuildFrom, hloop]; exact if_pos he⟩

theorem Reconstructed.complete {table : List (Byte × Bits)} {t : RebuildStore} {tree : CodeTree}
    (h : Reconstructed table t tree) : CompleteTable table :=
  completeTable_of_leaves (h.leaves.nodup_iff.1 tree.leaves_nodup) h.full fun _ => h.leaves.mem_iff.symm

theorem rebuildTable_of_two_le {table : List (Byte × Bits)} (old : RebuildStore) (h : 2 ≤ table.length) :
    rebuildTable table old = rebuildFrom (rebuildLeaves table) (initialEntries table) := by
  rcases table with _ | ⟨e, _ | ⟨f, rest⟩⟩
  · cases h
  · exact absurd h (by simp)
  · rfl

/-- The tree of a lone one-bit code: the placeholder stands on the other side (42_rebuild.md R165). -/
theorem rebuildTable_lone (v : Byte) (b : Bool) (old : RebuildStore) : rebuildTable [(v, [b])] old =
    some
      { rn := [.leaf v, .phold, if b then .internal 1 0 else .internal 0 1]
        rl := [{ len := 0, val := 0, node := 2 }]
        rroot := some 2 } := by
  cases b <;> rfl

theorem rebuildTable_lone_of_length_ne_one (v : Byte) {c : Bits} (h : c.length ≠ 1) (old : RebuildStore) :
    rebuildTable [(v, c)] old = none :=
  if_neg h

/-- A complete table whose codes are not empty has two entries or more. -/
theorem CompleteTable.two_le_length {table : List (Byte × Bits)} (h : CompleteTable table) (hcodes : ∀ e ∈ table, e.2 ≠ []) :
    2 ≤ table.length := by
  obtain ⟨t, hfull, hperm⟩ := h.exists_tree
  have hpos := List.length_pos_iff.2 hfull.paths_ne_nil
  by_contra hlt
  have hone : t.paths.length = 1 := by
    have := hperm.length_eq
    rw [List.length_map] at this
    omega
  obtain ⟨e, he⟩ := List.exists_mem_of_ne_nil _ (List.ne_nil_of_length_pos (by
    have := hperm.length_eq
    rw [List.length_map] at this
    omega : 0 < table.length))
  have hpath := hfull.length_lt (hperm.mem_iff.2 (List.mem_map_of_mem he))
  rw [hone] at hpath
  exact hcodes e he (List.length_eq_zero_iff.1 (Nat.lt_one_iff.1 hpath))

/-- REBUILD makes a tree of exactly the tables of 42_rebuild.md R172, whatever the arena held. -/
theorem rebuildTable_isSome_iff {table : List (Byte × Bits)} (hcodes : ∀ e ∈ table, e.2 ≠ []) (old : RebuildStore) :
    (∃ t, rebuildTable table old = some t) ↔ Rebuildable table := by
  constructor
  · rintro ⟨t, ht⟩
    rcases table with _ | ⟨⟨v, c⟩, _ | ⟨f, rest⟩⟩
    · exact .inl rfl
    · by_cases hlen : c.length = 1
      · exact .inr (.inl ⟨v, c, rfl, hlen⟩)
      · rw [rebuildTable_lone_of_length_ne_one v hlen] at ht
        cases ht
    · rw [rebuildTable_of_two_le old (by simp)] at ht
      obtain ⟨tree, htree⟩ := rebuildFrom_reconstructed (List.cons_ne_nil _ _) ht
      exact .inr (.inr htree.complete)
  · rintro (rfl | ⟨v, c, rfl, hlen⟩ | hcomplete)
    · exact ⟨_, rfl⟩
    · obtain ⟨b, rfl⟩ := List.length_eq_one_iff.1 hlen
      exact ⟨_, rebuildTable_lone v b old⟩
    · rw [rebuildTable_of_two_le old (hcomplete.two_le_length hcodes)]
      exact rebuildFrom_of_complete hcomplete

theorem State.codeTable_code_ne_nil (s : State) : ∀ e ∈ s.codeTable, e.2 ≠ [] := by
  intro e he hnil
  obtain ⟨hlen, hcode⟩ := (s.mem_codeTable e).1 he
  have hzero : (s.ctLenAt e.1).toNat = 0 := by rw [← State.code_length, ← hcode, hnil]; rfl
  exact hlen (BitVec.eq_of_toNat_eq hzero)

theorem exec_rebuild_of_some {s : State} {t : RebuildStore} (h : rebuildTable s.codeTable s.tree = some t) :
    exec .rebuild s = .next ({ s with tree := t }).keepTree.succeed := by
  rw [exec_rebuild, execRebuild, h]

theorem exec_rebuild_of_none {s : State} (h : rebuildTable s.codeTable s.tree = none) :
    exec .rebuild s = .next s.failRebuild := by
  rw [exec_rebuild, execRebuild, h]

/-- Settles O44: the reconstruction of a table succeeds exactly in these three cases. -/
theorem rebuildSucceedsExactlyOnCompleteTables : Obligations.RebuildSucceedsExactlyOnCompleteTables := by
  intro s
  have hiff := rebuildTable_isSome_iff s.codeTable_code_ne_nil s.tree
  cases h : rebuildTable s.codeTable s.tree with
  | some t => exact ⟨_, exec_rebuild_of_some h, fun _ => ⟨rfl, rfl⟩, fun hnot => absurd (hiff.1 ⟨t, h⟩) hnot⟩
  | none =>
    refine ⟨_, exec_rebuild_of_none h, fun hyes => ?_, fun _ => ⟨rfl, rfl⟩⟩
    obtain ⟨t, ht⟩ := hiff.2 hyes
    rw [h] at ht
    cases ht

theorem State.rebuild_reconstructed {s : State} (h2 : 2 ≤ s.codeTable.length) (h : CompleteTable s.codeTable) :
    ∃ t tree, rebuildTable s.codeTable s.tree = some t ∧ Reconstructed s.codeTable t tree := by
  obtain ⟨t, ht⟩ := rebuildFrom_of_complete h
  obtain ⟨tree, htree⟩ := rebuildFrom_reconstructed (List.ne_nil_of_length_pos (by omega)) ht
  exact ⟨t, tree, (rebuildTable_of_two_le s.tree h2).trans ht, htree⟩

/-- Settles O45: the merges keep the leaves with their keys, and at the end the key is empty. -/
theorem rebuiltTreeHasExactlyTheTableCodes : Obligations.RebuiltTreeHasExactlyTheTableCodes := by
  intro s h2 hcomplete
  obtain ⟨t, tree, ht, htree⟩ := State.rebuild_reconstructed h2 hcomplete
  exact ⟨_, tree, exec_rebuild_of_some ht, rfl, htree.denotes, htree.full, fun e => htree.leaves.mem_iff⟩

/-- Settles O46: each merge turns two elements of the list into one and adds one node. -/
theorem rebuiltArenaSize : Obligations.RebuiltArenaSize := by
  intro s hrebuildable hne
  have hle := s.codeTable_length_le
  rcases hrebuildable with hnil | ⟨v, c, htable, hlen⟩ | hcomplete
  · exact absurd hnil hne
  · obtain ⟨b, rfl⟩ := List.length_eq_one_iff.1 hlen
    have ht : rebuildTable s.codeTable s.tree = some _ := htable ▸ rebuildTable_lone v b s.tree
    exact ⟨_, exec_rebuild_of_some ht, by rw [htable]; rfl, (by decide : 3 ≤ 511), rfl⟩
  · have h2 := hcomplete.two_le_length s.codeTable_code_ne_nil
    obtain ⟨t, tree, ht, htree⟩ := State.rebuild_reconstructed h2 hcomplete
    have hsize := htree.size
    refine ⟨_, exec_rebuild_of_some ht, ?_, ?_, htree.root⟩
    · rw [if_neg (by omega)]
      exact hsize
    · show t.rn.length ≤ 511
      omega

/-! ### A lone code -/

theorem State.codeTable_eq_singleton {s : State} {v : Byte} (hv : s.ctLenAt v ≠ 0)
    (hothers : ∀ sym, sym ≠ v → s.ctLenAt sym = 0) : s.codeTable = [(v, s.code v)] := by
  refine List.perm_singleton.1 ((List.perm_ext_iff_of_nodup (.of_map _ s.codeTable_nodup) (List.nodup_singleton _)).2 fun e => ?_)
  rw [State.mem_codeTable, List.mem_singleton]
  constructor
  · rintro ⟨hlen, hcode⟩
    obtain rfl : e.1 = v := by_contra fun hne => hlen (hothers _ hne)
    exact Prod.ext rfl hcode
  · rintro rfl
    exact ⟨hv, rfl⟩

/-- Settles O43: a one-bit code is merged with the placeholder at once; any other lone code is refused. -/
theorem rebuildOfALoneCode : Obligations.RebuildOfALoneCode := by
  intro s v hv hothers
  have htable := State.codeTable_eq_singleton hv hothers
  have hlone : ∀ b, s.code v = [b] → rebuildTable s.codeTable s.tree = some _ := fun b hb => by
    rw [htable, hb]
    exact rebuildTable_lone v b s.tree
  by_cases hlen : (s.code v).length = 1
  · obtain ⟨b, hb⟩ := List.length_eq_one_iff.1 hlen
    refine ⟨_, exec_rebuild_of_some (hlone b hb), fun hf => ?_, fun ht => ?_, fun hne => absurd hlen hne⟩
    · obtain rfl : b = false := by simpa [hb] using hf
      exact ⟨rfl, rfl, rfl⟩
    · obtain rfl : b = true := by simpa [hb] using ht
      exact ⟨rfl, rfl, rfl⟩
  · have hnone : rebuildTable s.codeTable s.tree = none := by
      rw [htable]
      exact rebuildTable_lone_of_length_ne_one v hlen s.tree
    exact ⟨_, exec_rebuild_of_none hnone, fun hf => absurd (by rw [hf]; rfl) hlen, fun ht => absurd (by rw [ht]; rfl) hlen,
      fun _ => ⟨rfl, rfl⟩⟩

/-! ### The operands of REBUILD -/

/-- The old arena decides neither the success nor the tree. -/
theorem rebuildTable_codeTree (table : List (Byte × Bits)) (old old' : RebuildStore) :
    (rebuildTable table old).map RebuildStore.codeTree = (rebuildTable table old').map RebuildStore.codeTree := by
  rcases table with _ | ⟨e, _ | ⟨f, rest⟩⟩ <;> rfl

/-- Settles O48: the table is read from the codes, and the old arena decides nothing. -/
theorem rebuildDependsOnTheCodesOnly : Obligations.RebuildDependsOnTheCodesOnly := by
  intro s s' hcode
  have htable : s'.codeTable = s.codeTable := State.codeTable_of_code fun sym => (hcode sym).symm
  have htree := rebuildTable_codeTree s.codeTable s.tree s'.tree
  cases h : rebuildTable s.codeTable s.tree with
  | some t =>
    rw [h] at htree
    obtain ⟨t', h', ht'⟩ := Option.map_eq_some_iff.1 htree.symm
    rw [← htable] at h'
    exact ⟨_, _, exec_rebuild_of_some h, exec_rebuild_of_some h', rfl, rfl, fun _ => ht'.symm⟩
  | none =>
    rw [h] at htree
    have h' := Option.map_eq_none_iff.1 htree.symm
    rw [← htable] at h'
    exact ⟨_, _, exec_rebuild_of_none h, exec_rebuild_of_none h', rfl, rfl, nofun⟩

/-! ### REBUILD after BUILD (40_build.md R126 (e)) -/

/-- A table with the members of a list without repetitions, up to order. -/
theorem State.built_codeTable_perm (s : State) : s.built.codeTable.Perm (buildCodes s.freq s.build).1 :=
  (List.perm_ext_iff_of_nodup (.of_map _ s.built.codeTable_nodup)
    (.of_map _ (buildCodes_codesOf s.freq s.build).nodup)).2 s.mem_built_codeTable

theorem State.built_rebuildable (s : State) : Rebuildable s.built.codeTable := by
  have hperm := s.built_codeTable_perm
  rcases hp : presentSymbols s.freq with _ | ⟨v, _ | ⟨u, rest⟩⟩
  · rw [buildCodes_of_nil s.build hp] at hperm
    exact .inl hperm.eq_nil
  · rw [buildCodes_of_singleton s.build hp] at hperm
    exact .inr (.inl ⟨v, [false], List.perm_singleton.1 hperm, rfl⟩)
  · have h2 : 2 ≤ (presentSymbols s.freq).length := by rw [hp]; simp
    obtain ⟨t, hfull, hmem, -, -⟩ := State.built_tree h2
    exact .inr (.inr (completeTable_of_leaves (.of_map _ s.built.codeTable_nodup) hfull hmem))

/-- Settles O34: both trees are full and have the entries of the table as their leaves, so they are one tree. -/
theorem rebuildAfterBuildGivesTheSameTree : Obligations.RebuildAfterBuildGivesTheSameTree := by
  intro s
  obtain ⟨t, ht⟩ := (rebuildTable_isSome_iff s.built.codeTable_code_ne_nil s.built.tree).2 s.built_rebuildable
  refine ⟨_, _, exec_build_built s, exec_rebuild_of_some ht, rfl, rfl, fun h2 => ?_⟩
  obtain ⟨tree, hfull, hmem, hlen, htree⟩ := State.built_tree h2
  have hperm : s.built.codeTable.Perm tree.leaves :=
    (List.perm_ext_iff_of_nodup (.of_map _ s.built.codeTable_nodup) tree.leaves_nodup).2 hmem
  have htwo : 2 ≤ s.built.codeTable.length := by rw [hperm.length_eq, hlen]; exact h2
  rw [rebuildTable_of_two_le _ htwo] at ht
  obtain ⟨tree', htree'⟩ := rebuildFrom_reconstructed (List.ne_nil_of_length_pos (by omega)) ht
  obtain rfl : tree' = tree := htree'.full.eq_of_leaves hfull fun e => (htree'.leaves.trans hperm).mem_iff
  exact ⟨tree', htree'.denotes, htree⟩

end Sys2Proof.Machine

/-! PROOFS. The round trip (43_decode.md R192; 70_reset_and_hazards.md R246, R254). -/

namespace Sys2Proof.Machine

/-! ### The tree of a table that is not empty -/

/-- A rebuilt tree of a table with entries is a node, and the entries are leaves of it; the lone code stands beside the
placeholder (42_rebuild.md R165, R172). -/
theorem rebuildTable_leaves {table : List (Byte × Bits)} (hne : table ≠ []) {old t : RebuildStore}
    (h : rebuildTable table old = some t) :
    ∃ l r : CodeTree, t.codeTree = some (.node l r) ∧ ∀ e ∈ table, e ∈ (CodeTree.node l r).leaves := by
  rcases table with _ | ⟨⟨v, c⟩, _ | ⟨f, rest⟩⟩
  · exact absurd rfl hne
  · by_cases hlen : c.length = 1
    · obtain ⟨b, rfl⟩ := List.length_eq_one_iff.1 hlen
      obtain rfl := Option.some.inj ((rebuildTable_lone v b old).symm.trans h)
      cases b with
      | false => exact ⟨.leaf v, .phold, rfl, fun e he => he⟩
      | true => exact ⟨.phold, .leaf v, rfl, fun e he => he⟩
    · rw [rebuildTable_lone_of_length_ne_one v hlen] at h
      cases h
  · rw [rebuildTable_of_two_le old (by simp)] at h
    obtain ⟨tree, htree⟩ := rebuildFrom_reconstructed (List.cons_ne_nil _ _) h
    cases tree with
    | leaf sym => exact absurd htree.leaves.length_eq (by simp [CodeTree.leaves])
    | phold => exact absurd htree.full CodeTree.not_full_phold
    | node l r => exact ⟨l, r, htree.denotes, fun e he => htree.leaves.mem_iff.2 he⟩

/-! ### The content bits of a moved output -/

/-- `m` holds the output of `ENCODE` from `s` as its input (30_encoding.md R98 `MOVOI`). -/
structure HoldsOutput (s m : State) : Prop where
  ilen : m.ilen = s.encoded.olen
  ibuf : ∀ i, i < s.encoded.olen.toNat → m.ibufAt i = s.encoded.obufAt i
  pad : m.pad = s.encoded.pad

theorem OutputMoved.holdsOutput {s m : State} (h : OutputMoved s.encoded m) : HoldsOutput s m :=
  ⟨h.ilen, h.ibuf, h.pad⟩

/-- The content bits of the moved output are the stream that was packed (43_decode.md R185). -/
theorem HoldsOutput.contentBits {s m : State} (h : HoldsOutput s m) (hs : EncodeAllowed s) : m.contentBits = s.stream := by
  have hpadded := State.eight_mul_encoded_olen hs
  have hlen : m.contentLength = s.stream.length := by
    rw [State.contentLength, h.ilen, h.pad]
    omega
  refine List.ext_getElem (by rw [State.contentBits_length, hlen]) fun k _ hk => ?_
  have hbyte := State.encoded_obufAt_getLsbD hs (k := k) (by omega)
  rw [List.getD_eq_getElem _ _ hk] at hbyte
  simp only [State.contentBits, List.getElem_map, List.getElem_range, State.contentBit]
  rw [h.ibuf _ (by omega), hbyte]

theorem HoldsOutput.decodeAllowed {s m : State} (h : HoldsOutput s m) (hs : EncodeAllowed s)
    (hlen : s.encoded.olen.toNat ≤ 65536) (hvalid : m.treeValid = true) : DecodeAllowed m where
  length := by rw [h.ilen]; exact hlen
  valid := hvalid
  padRange := by
    rw [h.pad, State.encoded_pad_toNat]
    exact padFor_le _
  padFits := by
    have hpadded := State.eight_mul_encoded_olen hs
    rw [h.pad, h.ilen]
    omega

/-! ### DECODE after ENCODE -/

/-- The stream of the data is the stream of table entries. -/
theorem State.stream_eq_streamOf (s : State) : s.stream = streamOf (s.inputBytes.map fun b => (b, s.code b)) := by
  rw [State.stream, streamOf, List.flatMap_map]

/-- With the tree of the table that packed them, DECODE computes the data from the moved output (43_decode.md R192). -/
theorem HoldsOutput.decodeResult {s m : State} (h : HoldsOutput s m) (hs : EncodeAllowed s)
    (hlen : s.encoded.olen.toNat ≤ 65536) (hvalid : m.treeValid = true) {old : RebuildStore}
    (htree : rebuildTable s.codeTable old = some m.tree) : m.decodeResult = .ok s.inputBytes := by
  have hallowed := h.decodeAllowed hs hlen hvalid
  by_cases hne : s.codeTable = []
  · have hilen : s.ilen = 0 := by
      by_contra hilen
      have hpos : 0 < s.ilen.toNat := Nat.pos_of_ne_zero fun h0 => hilen (BitVec.eq_of_toNat_eq h0)
      exact hs.covered 0 hpos (s.codeTable_eq_nil.1 hne _)
    have hinput := State.inputBytes_of_ilen_eq_zero hilen
    have holen : m.ilen = 0 := by
      have hpadded := State.eight_mul_encoded_olen hs
      rw [State.encoded_pad_toNat, State.stream, hinput] at hpadded
      rw [h.ilen]
      exact BitVec.eq_of_toNat_eq (by simpa [padFor] using hpadded)
    rw [hne] at htree
    have hroot : m.tree.rroot = none := by rw [← Option.some.inj htree]
    rw [State.decodeResult_of_no_root hallowed hroot, if_neg (not_not.2 holen), hinput]
  · obtain ⟨l, r, hcodeTree, hleaves⟩ := rebuildTable_leaves hne htree
    have hentries : ∀ e ∈ s.inputBytes.map fun b => (b, s.code b), e ∈ (CodeTree.node l r).leaves := fun e he => by
      obtain ⟨b, hb, rfl⟩ := List.mem_map.1 he
      obtain ⟨i, hi, rfl⟩ := State.mem_inputBytes.1 hb
      exact hleaves _ ((s.mem_codeTable _).2 ⟨hs.covered i hi, rfl⟩)
    have hbits := (h.contentBits hs).trans s.stream_eq_streamOf
    rw [State.decodeResult_of_streamOf hallowed hcodeTree hentries hbits, List.map_map]
    exact congrArg Except.ok (List.map_id _)

/-- What DECODE of the moved output leaves: the data of `s` in OBUF. -/
theorem HoldsOutput.decode {s m : State} (h : HoldsOutput s m) (hs : EncodeAllowed s)
    (hlen : s.encoded.olen.toNat ≤ 65536) (hvalid : m.treeValid = true) {old : RebuildStore}
    (htree : rebuildTable s.codeTable old = some m.tree) :
    ∃ d, exec .decode m = .next d ∧ d.err = 0 ∧ d.olen = s.ilen ∧ ∀ i, i < s.ilen.toNat → d.obufAt i = s.ibufAt i := by
  have hres := h.decodeResult hs hlen hvalid htree
  obtain ⟨holen, hbytes⟩ := State.decoded_output hres
  refine ⟨_, execDecode_of_ok hres, rfl, BitVec.eq_of_toNat_eq (by rw [holen, State.inputBytes_length]), fun i hi => ?_⟩
  exact hbytes i (s.ibufAt i) (by simp [State.inputBytes, hi])

/-- A successful REBUILD leaves the tree of the table in a state that differs in the tree and the status only. -/
theorem eq_of_exec_rebuild {s r : State} (h : exec .rebuild s = .next r) (herr : r.err = 0) :
    ∃ t, rebuildTable s.codeTable s.tree = some t ∧ r = ({ s with tree := t }).keepTree.succeed := by
  rcases execRebuild_cases s with ⟨t, ht, hr⟩ | ⟨-, hr⟩ <;> obtain rfl := Host.Outcome.next.inj (h.symm.trans hr)
  · exact ⟨t, ht, rfl⟩
  · cases herr

/-- Settles O55: the tree is that of the table that packed the data, whether it was made before or after. -/
theorem encodeThenDecodeGivesTheData : Obligations.EncodeThenDecodeGivesTheData := by
  intro s r hr herr hs
  obtain ⟨t, ht, rfl⟩ := eq_of_exec_rebuild hr herr
  constructor
  · have hallowed : EncodeAllowed ({ s with tree := t }).keepTree.succeed := ⟨hs.length, hs.covered⟩
    refine ⟨_, execEncode_of_allowed hallowed, rfl, fun hlen m hm => ?_⟩
    have htree : rebuildTable s.codeTable s.tree = some m.tree := ht.trans (congrArg some hm.tree.tree.symm)
    exact hm.holdsOutput.decode hallowed hlen hm.tree.valid htree
  · refine ⟨_, execEncode_of_allowed hs, rfl, fun hlen m hm => ?_⟩
    have htable : m.codeTable = s.codeTable := State.codeTable_of_fields hm.table.len hm.table.val
    have hrebuildable := (rebuildTable_isSome_iff s.codeTable_code_ne_nil s.tree).1 ⟨t, ht⟩
    obtain ⟨u, hu⟩ := (rebuildTable_isSome_iff m.codeTable_code_ne_nil m.tree).2 (htable ▸ hrebuildable)
    have hholds : HoldsOutput s ({ m with tree := u }).keepTree.succeed := ⟨hm.ilen, hm.ibuf, hm.pad⟩
    obtain ⟨d, hd, hdata⟩ := hholds.decode hs hlen rfl (htable ▸ hu)
    exact ⟨_, d, exec_rebuild_of_some hu, rfl, hd, hdata⟩

/-- Settles O56: the codes of BUILD cover the data, 2056 of them fit IBUF when packed, and MOVOI moves them. -/
theorem wholeSessionGivesBackTheData : Obligations.WholeSessionGivesBackTheData := by
  intro s hilen hcounts
  have hallowed : EncodeAllowed s.built := by
    refine ⟨le_trans hilen (by decide), fun i hi => ?_⟩
    rw [State.built_ctLenAt_ne_zero, (buildCodes_codesOf s.freq s.build).symbols.mem_iff, mem_presentSymbols]
    exact hcounts i hi
  have hlen : s.built.encoded.olen.toNat ≤ 65536 := by
    have hpadded := State.eight_mul_encoded_olen hallowed
    have hpad := padFor_le s.built.stream.length
    have hstream : s.built.stream.length ≤ 255 * s.built.inputBytes.length := State.flatMap_code_length_le _ _
    rw [← State.encoded_pad_toNat] at hpad
    rw [State.inputBytes_length, show s.built.ilen = s.ilen from rfl] at hstream
    omega
  obtain ⟨t, ht⟩ := (rebuildTable_isSome_iff s.built.codeTable_code_ne_nil s.built.encoded.tree).2 s.built_rebuildable
  have hlegal : ScriptLine.movoi.legalAt ({ s.built.encoded with tree := t }).keepTree.succeed = true := decide_eq_true hlen
  obtain ⟨m, hm, hmoved⟩ := moveOutputToInput _ hlegal
  have hholds : HoldsOutput s.built m := ⟨hmoved.ilen, hmoved.ibuf, hmoved.pad⟩
  have htree : rebuildTable s.built.codeTable s.built.encoded.tree = some m.tree :=
    ht.trans (congrArg some hmoved.tree.tree.symm)
  obtain ⟨d, hd, hdata⟩ := hholds.decode hallowed hlen hmoved.tree.valid htree
  exact ⟨_, _, _, m, d, exec_build_built s, execEncode_of_allowed hallowed, exec_rebuild_of_some (s := s.built.encoded) ht, hm,
    hd, hdata⟩

end Sys2Proof.Machine
